-- ==== Sys2Proof/Word.lean ====
section
/-! DEFINITION. The word types of RSAPAD: bytes, 16-bit identifiers, 32-bit register words, and byte strings
(00_scope.md R8, R9, R10). -/

namespace Sys2Proof

/-- A byte; bit 7 is the most significant (R9). -/
abbrev Byte := BitVec 8

/-- A 16-bit identifier: the ALG field, a cipher identifier, a mode identifier. -/
abbrev Half := BitVec 16

/-- A 32-bit register or command word; bit 0 is the least significant (R9). -/
abbrev Word := BitVec 32

/-- A byte string, byte 0 first (R10; D0's ByteBuffer). -/
abbrev Bytes := List Byte

end Sys2Proof
end

