-- ==== Sys2Proof/Syntax.lean ====
section
/-! DEFINITION. The commands of RSAPAD (30_encoding.md R74), one constructor per row of spec/opcode_table.json,
and the assembler's command term (R82). A command carries exactly the fields its format has (R70 to R73): format H
its 16-bit ALG field, of which every value is legal (R71); CTXNEW the flags RNDKEY and IVSET, SYMENC and SYMDEC the
flag IVSET. -/

namespace Sys2Proof

/-- The 20 commands (30_encoding.md R74), in opcode order. -/
inductive Instr where
  | digsz (alg : Half)
  | blksz (alg : Half)
  | ishash (alg : Half)
  | mgf1 (alg : Half)
  | kdfa (alg : Half)
  | split
  | xor
  | xorp
  | kdfxor (alg : Half)
  | oaepenc (alg : Half)
  | oaepdec (alg : Half)
  | pssenc (alg : Half)
  | pssvfy (alg : Half)
  | p15enc (alg : Half)
  | ctxnew (rndkey ivset : Bool)
  | ctxrel
  | symenc (ivset : Bool)
  | symdec (ivset : Bool)
  | deenv (alg : Half)
  | clrbuf
  deriving DecidableEq, Repr

/-- The mnemonics of R74. -/
inductive Mnemonic where
  | digsz | blksz | ishash | mgf1 | kdfa | split | xor | xorp | kdfxor | oaepenc | oaepdec | pssenc | pssvfy
  | p15enc | ctxnew | ctxrel | symenc | symdec | deenv | clrbuf
  deriving DecidableEq, Repr

/-- The two formats of a command word (R70): H carries a hash algorithm, N carries none. -/
inductive Format where
  | H | N
  deriving DecidableEq, Repr

/-- An assembler command (R82): `MNEMONIC flags? alg?`. Not every such term is a command: WellFormed.lean says
which are. -/
structure AsmCommand where
  mnemonic : Mnemonic
  rnd      : Bool
  iv       : Bool
  alg      : Option Half
  deriving DecidableEq, Repr

/-- The assembler command of a command (R82). -/
def Instr.asm : Instr → AsmCommand
  | .digsz alg   => ⟨.digsz, false, false, some alg⟩
  | .blksz alg   => ⟨.blksz, false, false, some alg⟩
  | .ishash alg  => ⟨.ishash, false, false, some alg⟩
  | .mgf1 alg    => ⟨.mgf1, false, false, some alg⟩
  | .kdfa alg    => ⟨.kdfa, false, false, some alg⟩
  | .split       => ⟨.split, false, false, none⟩
  | .xor         => ⟨.xor, false, false, none⟩
  | .xorp        => ⟨.xorp, false, false, none⟩
  | .kdfxor alg  => ⟨.kdfxor, false, false, some alg⟩
  | .oaepenc alg => ⟨.oaepenc, false, false, some alg⟩
  | .oaepdec alg => ⟨.oaepdec, false, false, some alg⟩
  | .pssenc alg  => ⟨.pssenc, false, false, some alg⟩
  | .pssvfy alg  => ⟨.pssvfy, false, false, some alg⟩
  | .p15enc alg  => ⟨.p15enc, false, false, some alg⟩
  | .ctxnew r v  => ⟨.ctxnew, r, v, none⟩
  | .ctxrel      => ⟨.ctxrel, false, false, none⟩
  | .symenc v    => ⟨.symenc, false, v, none⟩
  | .symdec v    => ⟨.symdec, false, v, none⟩
  | .deenv alg   => ⟨.deenv, false, false, some alg⟩
  | .clrbuf      => ⟨.clrbuf, false, false, none⟩

end Sys2Proof
end

