-- ==== Sys2Proof/WellFormed.lean ====
section
/-! DEFINITION. Which assembler commands are commands (30_encoding.md R71, R72, R73, R82): `alg` is required for
format H and forbidden for format N; `.RND` only on CTXNEW; `.IV` only on CTXNEW, SYMENC and SYMDEC. A term of
`Instr` meets the checks by its type. -/

namespace Sys2Proof

/-- The format column of R74 (R71, R72). -/
def Mnemonic.format : Mnemonic → Format
  | .digsz | .blksz | .ishash | .mgf1 | .kdfa | .kdfxor | .oaepenc | .oaepdec | .pssenc | .pssvfy | .p15enc
  | .deenv => .H
  | .split | .xor | .xorp | .ctxnew | .ctxrel | .symenc | .symdec | .clrbuf => .N

/-- FLG.RNDKEY is defined only for CTXNEW (R73). -/
def Mnemonic.allowsRnd : Mnemonic → Bool
  | .ctxnew => true
  | _ => false

/-- FLG.IVSET is defined only for CTXNEW, SYMENC and SYMDEC (R73). -/
def Mnemonic.allowsIv : Mnemonic → Bool
  | .ctxnew | .symenc | .symdec => true
  | _ => false

/-- Check 1 (R82): `alg` stands exactly on the mnemonics of format H. -/
def AsmCommand.algOk (c : AsmCommand) : Bool :=
  match c.mnemonic.format with
  | .H => c.alg.isSome
  | .N => c.alg.isNone

/-- Check 2 (R73): `.RND` only where RNDKEY is defined. -/
def AsmCommand.rndOk (c : AsmCommand) : Bool := !c.rnd || c.mnemonic.allowsRnd

/-- Check 3 (R73): `.IV` only where IVSET is defined. -/
def AsmCommand.ivOk (c : AsmCommand) : Bool := !c.iv || c.mnemonic.allowsIv

/-- The assembler command is a command (R82). -/
def AsmCommand.wellFormed (c : AsmCommand) : Bool := c.algOk && c.rndOk && c.ivOk

/-- The command is well-formed: it has the fields its row of R74 allows. -/
def Instr.wellFormed (i : Instr) : Bool := i.asm.wellFormed

end Sys2Proof
end

