-- ==== Sys2Proof/Decode.lean ====
section
/-! DEFINITION. Decoding a command word (30_encoding.md R70, R74, R75, R79), total on all 2^32 words and rejecting
by name, and the encoder of R82. -/

namespace Sys2Proof

/-- Why a word is illegal (R79). -/
inductive Illegal where
  /-- (a) the OPC byte is not one of the 20 of R74. -/
  | reservedOpcode
  /-- (b) a reserved FLG bit (word bits 15:10) is 1. -/
  | reservedFlag
  /-- (c) a defined flag bit is 1 on a command that does not allow it. -/
  | flagNotAllowed
  /-- (d) the format is N and ALG is not 0. -/
  | algNotZero
  deriving DecidableEq, Repr

/-- The OPC column of R74. -/
def Mnemonic.opc : Mnemonic → Byte
  | .digsz   => 0x01#8
  | .blksz   => 0x02#8
  | .ishash  => 0x03#8
  | .mgf1    => 0x10#8
  | .kdfa    => 0x20#8
  | .split   => 0x21#8
  | .xor     => 0x30#8
  | .xorp    => 0x31#8
  | .kdfxor  => 0x32#8
  | .oaepenc => 0x40#8
  | .oaepdec => 0x41#8
  | .pssenc  => 0x50#8
  | .pssvfy  => 0x51#8
  | .p15enc  => 0x60#8
  | .ctxnew  => 0x70#8
  | .ctxrel  => 0x71#8
  | .symenc  => 0x72#8
  | .symdec  => 0x73#8
  | .deenv   => 0x74#8
  | .clrbuf  => 0x7F#8

/-- The rows of R74, in opcode order. -/
def Mnemonic.all : List Mnemonic :=
  [.digsz, .blksz, .ishash, .mgf1, .kdfa, .split, .xor, .xorp, .kdfxor, .oaepenc] ++
  [.oaepdec, .pssenc, .pssvfy, .p15enc, .ctxnew, .ctxrel, .symenc, .symdec, .deenv, .clrbuf]

/-- The "allowed flags" column of R74 as a FLG byte: bit 0 is RNDKEY, bit 1 is IVSET (R73). -/
def Mnemonic.allowedFlags (m : Mnemonic) : Byte :=
  (if m.allowsRnd then 0x01#8 else 0x00#8) ||| (if m.allowsIv then 0x02#8 else 0x00#8)

/-- The "mask" column of R74. -/
def Mnemonic.mask : Mnemonic → Word
  | .digsz | .blksz | .ishash | .mgf1 | .kdfa | .kdfxor | .oaepenc | .oaepdec | .pssenc | .pssvfy | .p15enc
  | .deenv => 0x0000FFFF#32
  | .split | .xor | .xorp | .ctxrel | .clrbuf => 0xFFFFFFFF#32
  | .ctxnew => 0xFFFFFCFF#32
  | .symenc | .symdec => 0xFFFFFDFF#32

/-- The "match" column of R74: the OPC byte, all other fixed bits 0. -/
def Mnemonic.pattern (m : Mnemonic) : Word := m.opc.setWidth 32

/-- The word's OPC field, bits 7:0 (R70). -/
def opcField (w : Word) : Byte := w.extractLsb' 0 8

/-- The word's FLG field, bits 15:8 (R70). -/
def flgField (w : Word) : Byte := w.extractLsb' 8 8

/-- The word's ALG field, bits 31:16 (R70). -/
def algField (w : Word) : Half := w.extractLsb' 16 16

/-- The row of R74 with this OPC. -/
def mnemonicOf (opc : Byte) : Option Mnemonic := Mnemonic.all.find? fun m => m.opc == opc

/-- The command of a row, given the word's fields. -/
def Mnemonic.instr (m : Mnemonic) (alg : Half) (rndkey ivset : Bool) : Instr :=
  match m with
  | .digsz   => .digsz alg
  | .blksz   => .blksz alg
  | .ishash  => .ishash alg
  | .mgf1    => .mgf1 alg
  | .kdfa    => .kdfa alg
  | .split   => .split
  | .xor     => .xor
  | .xorp    => .xorp
  | .kdfxor  => .kdfxor alg
  | .oaepenc => .oaepenc alg
  | .oaepdec => .oaepdec alg
  | .pssenc  => .pssenc alg
  | .pssvfy  => .pssvfy alg
  | .p15enc  => .p15enc alg
  | .ctxnew  => .ctxnew rndkey ivset
  | .ctxrel  => .ctxrel
  | .symenc  => .symenc ivset
  | .symdec  => .symdec ivset
  | .deenv   => .deenv alg
  | .clrbuf  => .clrbuf

/-- Decoding a latched word (R75); the names of the rejections are the cases of R79. -/
def decode (w : Word) : Except Illegal Instr :=
  match mnemonicOf (opcField w) with
  | none => .error .reservedOpcode
  | some m =>
    if flgField w &&& ~~~m.allowedFlags ≠ 0#8 then
      if flgField w &&& 0xFC#8 ≠ 0#8 then .error .reservedFlag else .error .flagNotAllowed
    else if m.format = .N ∧ algField w ≠ 0#16 then .error .algNotZero
    else .ok (m.instr (algField w) ((flgField w).getLsbD 0) ((flgField w).getLsbD 1))

/-- The word of an assembler command (R82): `OPC | (RNDKEY << 8) | (IVSET << 9) | (ALG << 16)`. -/
def encodeAsm (c : AsmCommand) : Word :=
  c.mnemonic.opc.setWidth 32 ||| ((if c.rnd then 1#32 else 0#32) <<< 8) ||| ((if c.iv then 1#32 else 0#32) <<< 9) |||
    ((c.alg.getD 0#16).setWidth 32 <<< 16)

/-- The command word of a command (R70, R74, R82). -/
def encode (i : Instr) : Word := encodeAsm i.asm

/-- The command of a well-formed assembler command (R82). -/
def AsmCommand.instr? (c : AsmCommand) : Option Instr :=
  if c.wellFormed then some (c.mnemonic.instr (c.alg.getD 0#16) c.rnd c.iv) else none

/-- The instruction the decoder reads from a table word. A command is one 32-bit word (R70, R81), so bit `k` of the
table's number is bit `k` of the word; the bits above `nbits` are 0. -/
def decodeTableWord (nbits w : Nat) : Option Instr :=
  match decode (BitVec.ofNat 32 (w % 2 ^ nbits)) with
  | .ok i => some i
  | .error _ => none

end Sys2Proof
end

