-- ==== Sys2Proof/Config.lean ====
section
/-! DEFINITION. The parameters of the block (00_scope.md R7) and the free values. A `Config` is plain data, so
that a machine state can carry the parameters it was built with (log entry 1): every statement about all states
is then a statement about all parameter values. The provider's functions (R12) are a table of answers together
with ONE constant without a body, `Config.freeByte`, for every request the table does not list (log entry 2). -/

namespace Sys2Proof

/-- The five real hashes of the closed set (40_catalog.md R90). -/
inductive RealHash where
  | sha1 | sha256 | sha384 | sha512 | sm3
  deriving DecidableEq, Repr

/-- The direction of a cipher transform (47_symenv.md R181). -/
inductive Dir where
  | enc | dec
  deriving DecidableEq, Repr

/-- The contents of a cipher context, all six elements of 47_symenv.md R175: the argument `c` of `IvUpdate`. -/
structure ContextValue where
  cipher    : Half
  mode      : Half
  keyBits   : Nat
  blockSize : Nat
  key       : Bytes
  iv        : Bytes
  deriving DecidableEq, Repr

/-- What the block may ask of its surroundings: the provider's functions (R12), the `nth` random draw, and the
value of the parameter `IvUpdate(dir, c, iv0, X, Y)` (47_symenv.md R185) where it is not the default. -/
inductive Request where
  | hash (alg : RealHash) (message : Bytes)
  | hmac (alg : RealHash) (key message : Bytes)
  | cipher (dir : Dir) (cipher mode : Half) (key iv data : Bytes)
  | random (nth count : Nat)
  | ivUpdate (dir : Dir) (c : ContextValue) (iv0 x y : Bytes)
  deriving DecidableEq, Repr

/-- One row of `CipherCatalog` (47_symenv.md R176): a triple and its block size in bytes. -/
structure CipherRow where
  cipher    : Half
  mode      : Half
  keyBits   : Nat
  blockSize : Nat
  deriving DecidableEq, Repr

/-- The parameter `IvUpdate` (47_symenv.md R185): the default "IV unchanged", or any other function, asked for
as a request. -/
inductive IvPolicy where
  | unchanged | answered
  deriving DecidableEq, Repr

/-- The parameters of R7. `answers` lists answers of the provider; a request it does not list is answered by
`Config.freeByte`. -/
structure Config where
  bufcap   : Nat
  ciphers  : List CipherRow
  ivPolicy : IvPolicy
  answers  : List (Request × Bytes)
  deriving DecidableEq, Repr

/-- FREE VALUE (log entries 2, 3): byte `i` of the answer to a request that no table lists. It has no body:
nothing is known of it. -/
opaque Config.freeByte : Request → Nat → Byte

/-- The default `CipherCatalog` of R176: AES (0x0006) with 128, 192 or 256 key bits, block size 16, in the modes
CTR, OFB, CBC, CFB, ECB. -/
def Config.defaultCiphers : List CipherRow :=
  [0x0040#16, 0x0041#16, 0x0042#16, 0x0043#16, 0x0044#16].flatMap fun mode =>
    [128, 192, 256].map fun keyBits => ⟨0x0006#16, mode, keyBits, 16⟩

/-- The default parameters of R7: BUFCAP 4096, the table of R176, "IV unchanged" (R185); nothing is known of the
provider. -/
def Config.default : Config where
  bufcap   := 4096
  ciphers  := Config.defaultCiphers
  ivPolicy := .unchanged
  answers  := []

/-- What R7 and R176 require of the parameters: 256 ≤ BUFCAP ≤ 65536, a multiple of 4; a block size between 1
and 32 that depends on the cipher alone; key sizes that are multiples of 8 between 8 and 512. -/
abbrev Config.WF (cfg : Config) : Prop :=
  (256 ≤ cfg.bufcap ∧ cfg.bufcap ≤ 65536 ∧ cfg.bufcap % 4 = 0) ∧
  (∀ r ∈ cfg.ciphers, 1 ≤ r.blockSize ∧ r.blockSize ≤ 32 ∧ 8 ≤ r.keyBits ∧ r.keyBits ≤ 512 ∧ r.keyBits % 8 = 0) ∧
  (∀ r ∈ cfg.ciphers, ∀ q ∈ cfg.ciphers, r.cipher = q.cipher → r.blockSize = q.blockSize)

end Sys2Proof
end

