-- ==== Sys2Proof/Machine/State.lean ====
section
/-! DEFINITION. The state of one RSAPAD instance (10_state.md R20 to R43), the reasons a step can stop, the outcomes
of a command (R41), the accesses and events the surroundings supply, and the state after reset (R43). -/

namespace Sys2Proof.Machine

/-- A byte storage: the cells that are not zero, by rising offset. An offset that is not listed reads 0, the reset
contents of every storage (R43). -/
abbrev Memory := List Host.Cell

/-- An operand buffer (R23): its storage of BUFCAP bytes and its length. -/
structure Buffer where
  mem : Memory
  len : Nat
  deriving DecidableEq, Repr

/-- The fields of STATUS (R27), but for BUSY, which is SEQ's (R33). -/
structure Status where
  done    : Bool
  err     : Bool
  ok      : Bool
  errcode : Byte
  opc     : Byte
  deriving DecidableEq, Repr

/-- The sequencer (R33): idle, or executing the latched command word. -/
inductive Seq where
  | idle
  | busy (w : Word)
  deriving DecidableEq, Repr

/-- A cipher context (R30, 47_symenv.md R175): CTX_DEF, CTX_KEYBITS, the fields VALID and BLK of CTX_STAT, and the
KEY (64 bytes) and IV (32 bytes) stores. -/
structure CipherCtx where
  defn    : Word
  keyBits : Word
  valid   : Bool
  blk     : Byte
  key     : Memory
  iv      : Memory
  deriving DecidableEq, Repr

/-- The released context (R43; 47_symenv.md R177 `released`): every element zero. -/
def CipherCtx.released : CipherCtx where
  defn    := 0
  keyBits := 0
  valid   := false
  blk     := 0
  key     := []
  iv      := []

/-- The loop engine (R34): counter and accumulator. -/
structure LoopEngine where
  ctr : Word
  acc : Bytes
  deriving DecidableEq, Repr

/-- The loop engine cleared, as reset and every completion leave it (R34, R41). -/
def LoopEngine.cleared : LoopEngine where
  ctr := 0
  acc := []

/-- The kind of a host access (20_memory.md R55). -/
inductive AccessKind where
  | read | write
  deriving DecidableEq, Repr

/-- A host access (R55): kind, byte offset in the 512 KiB window, size, write data. -/
structure Access where
  kind : AccessKind
  off  : BitVec 19
  size : Nat
  data : Word
  deriving DecidableEq, Repr

/-- The answer to a host access (R55, R56): OKAY to a write, OKAY with data to a read, or ERROR, with no data. -/
inductive BusAnswer where
  | okay
  | okayData (v : Word)
  | error
  deriving DecidableEq, Repr

/-- What happens next to the block: a host access, the engine's completion of the running command, or an assertion
of `rst_n` (00_scope.md R16, 70_reset_and_hazards.md R230). -/
inductive Event where
  | access (a : Access)
  | engine
  | reset
  deriving DecidableEq, Repr

/-- The error classes (60_exceptions.md R200). -/
inductive ErrorClass where
  | unsupportedAlgorithm | lengthMismatch | unsupportedOperation | messageTooLong | encodingError
  | encodedMessageTooShort | integrityCheckFailed | malformedInput | capacity | noContext | illegalCommand
  deriving DecidableEq, Repr

/-- The three outcomes of a command (R41), each with the context slot it leaves. -/
inductive Completion where
  | success (ob0 ob1 : Bytes) (res : Word) (ctx : CipherCtx)
  | boolFalse (ctx : CipherCtx)
  | error (code : ErrorClass) (ctx : CipherCtx)
  deriving DecidableEq, Repr

/-- The complete state (R20), and behind it the model's own fields: the parameters, the number of draws made, the
events to come and the answer to the last host access (log entries 1 to 5). -/
structure State where
  p0        : Word
  p1        : Word
  ib0       : Buffer
  ib1       : Buffer
  ib2       : Buffer
  ib3       : Buffer
  ob0       : Buffer
  ob1       : Buffer
  cmd       : Word
  status    : Status
  inten     : Word
  res       : Word
  ctx       : CipherCtx
  seq       : Seq
  loop      : LoopEngine
  transient : CipherCtx
  cfg       : Config
  drawCount : Nat
  agenda    : List Event
  busAnswer : Option BusAnswer
  deriving DecidableEq, Repr

/-- The reasons the machine stops with a fault: there are none. A command that fails completes with an error class
in STATUS (60_exceptions.md R206) and a refused access is answered ERROR (R204); both are next states. -/
inductive Fault where
  deriving DecidableEq, Repr

/-- The reasons a step is refused. -/
inductive Refusal where
  /-- Raised by an arm of `exec` whose instruction has no meaning yet; no arm is left so. Safe: a stop. -/
  | notModelled (mnemonic : String)
  deriving DecidableEq, Repr

/-- The state after reset (R43; 70_reset_and_hazards.md R231). The model's own fields: the default parameters of
00_scope.md R7, no draw made, no event to come, no access answered (log entries 1 to 5). -/
def State.reset : State where
  p0        := 0
  p1        := 0
  ib0       := ⟨[], 0⟩
  ib1       := ⟨[], 0⟩
  ib2       := ⟨[], 0⟩
  ib3       := ⟨[], 0⟩
  ob0       := ⟨[], 0⟩
  ob1       := ⟨[], 0⟩
  cmd       := 0
  status    := ⟨false, false, false, 0, 0⟩
  inten     := 0
  res       := 0
  ctx       := CipherCtx.released
  seq       := .idle
  loop      := LoopEngine.cleared
  transient := CipherCtx.released
  cfg       := Config.default
  drawCount := 0
  agenda    := []
  busAnswer := none

end Sys2Proof.Machine
end

