-- ==== Sys2Proof/Machine/Ops.lean ====
section
/-! DEFINITION. The named operations: byte strings (00_scope.md R8, R10), byte storages, buffers (10_state.md R23),
START (R40), the completion of a command (R41) with its Error branch, the block's "trap entry" (60_exceptions.md
R206), and the acknowledge, its "trap return" (R209). -/

namespace Sys2Proof.Machine

/-! ## Byte strings (R10) -/

/-- `rep(v, n)`: n bytes of value v. -/
def rep (v : Byte) (n : Nat) : Bytes := List.replicate n v

/-- `zeros(n)`: n bytes 0x00. -/
def zeros (n : Nat) : Bytes := rep 0x00#8 n

/-- `X[a:b]`: the bytes a .. b-1 of X. -/
def slice (x : Bytes) (a b : Nat) : Bytes := (x.drop a).take (b - a)

/-- `int(X)`: the number whose big-endian base-256 digits are X. -/
def intOf (x : Bytes) : Nat := x.foldl (fun v b => v * 256 + b.toNat) 0

/-- `bytes_n(v)`: the n-byte big-endian string of v. -/
def bytesN : Nat → Nat → Bytes
  | 0, _ => []
  | n + 1, v => bytesN n (v / 256) ++ [BitVec.ofNat 8 v]

/-- `BE32(v)` (D0: BigEndian32). -/
def be32 (v : Nat) : Bytes := bytesN 4 v

/-- `BE16(v)`. -/
def be16 (v : Nat) : Bytes := bytesN 2 v

/-- `ceil(a/b)` for b > 0 (R8). -/
def ceilDiv (a b : Nat) : Nat := (a + (b - 1)) / b

/-- The bytewise exclusive-or of two strings, as far as both reach; on equal lengths it is R10's `X xor Y`. -/
def xorBytes (a b : Bytes) : Bytes := List.zipWith (fun x y => x ^^^ y) a b

/-- `LengthPrefixed(X) = BE16(len(X)) ‖ X` (00_scope.md R15, 47_symenv.md R189). -/
def lengthPrefixed (x : Bytes) : Bytes := be16 x.length ++ x

/-! ## Byte storages -/

/-- The canonical form: offsets strictly rising, no cell that is zero. -/
abbrev Memory.WF (m : Memory) : Prop :=
  m.Pairwise (fun c d => c.1 < d.1) ∧ ∀ c ∈ m, c.2 ≠ 0#8

/-- The canonical form, as a Bool. -/
def Memory.wf (m : Memory) : Bool := decide (Memory.WF m)

/-- Every listed offset lies below `n`: the bytes at `n` and beyond are zero. -/
abbrev Memory.Below (m : Memory) (n : Nat) : Prop := ∀ c ∈ m, c.1 < n

/-- `mem[a]`: a byte that is not listed reads 0. -/
def Memory.read : Memory → Nat → Byte
  | [], _ => 0#8
  | (k, b) :: m, a => if k = a then b else Memory.read m a

/-- `mem[a] <- b`, keeping the canonical form. -/
def Memory.write : Memory → Nat → Byte → Memory
  | [], a, b => if b = 0#8 then [] else [(a, b)]
  | (k, c) :: m, a, b =>
    if a < k then (if b = 0#8 then (k, c) :: m else (a, b) :: (k, c) :: m)
    else if a = k then (if b = 0#8 then m else (k, b) :: m)
    else (k, c) :: Memory.write m a b

/-- The storage that holds X from offset `a` on and zero everywhere else. -/
def Memory.ofBytesFrom : Nat → Bytes → Memory
  | _, [] => []
  | a, b :: x => if b = 0#8 then Memory.ofBytesFrom (a + 1) x else (a, b) :: Memory.ofBytesFrom (a + 1) x

/-- The storage whose first bytes are X, every other byte 0 (00_scope.md R11). -/
def Memory.ofBytes (x : Bytes) : Memory := Memory.ofBytesFrom 0 x

/-- `mem[0:n]`. -/
def Memory.bytes (m : Memory) (n : Nat) : Bytes := (List.range n).map m.read

/-- Little-endian lanes (20_memory.md R54, 48_laws.md R224): the sum over i < n of mem[o+i] * 256^i. -/
def Memory.readLanes (m : Memory) (o : Nat) : Nat → Nat
  | 0 => 0
  | n + 1 => (m.read o).toNat + 256 * Memory.readLanes m (o + 1) n

/-- Little-endian lanes (R224): for i < n, mem[o+i] <- (data div 256^i) mod 256. -/
def Memory.writeLanes (m : Memory) (o data : Nat) : Nat → Memory
  | 0 => m
  | n + 1 => Memory.writeLanes (m.write o (BitVec.ofNat 8 data)) (o + 1) (data / 256) n

/-! ## Buffers (R23) -/

/-- The value of a buffer: `mem[0:len]`. -/
def Buffer.value (b : Buffer) : Bytes := b.mem.bytes b.len

/-- `OB[k] <- X` (00_scope.md R11): length len(X), the first bytes X, every other byte of the storage 0. -/
def Buffer.ofBytes (x : Bytes) : Buffer := ⟨Memory.ofBytes x, x.length⟩

/-- The empty buffer, its whole storage zero (R43; 47_symenv.md R197). -/
def Buffer.empty : Buffer := ⟨[], 0⟩

/-- The live KEY bytes of a context: CTX_KEYBITS/8 of them (R30). -/
def CipherCtx.keyBytes (c : CipherCtx) : Bytes := c.key.bytes (c.keyBits.toNat / 8)

/-- The live IV bytes of a context: BLK of them (R30). -/
def CipherCtx.ivBytes (c : CipherCtx) : Bytes := c.iv.bytes c.blk.toNat

/-- Input buffer IBk. -/
def State.ib (s : State) (k : Fin 4) : Buffer :=
  match k with
  | 0 => s.ib0
  | 1 => s.ib1
  | 2 => s.ib2
  | 3 => s.ib3

/-- Output buffer OBk. -/
def State.ob (s : State) (k : Fin 2) : Buffer :=
  match k with
  | 0 => s.ob0
  | 1 => s.ob1

/-- Write input buffer IBk. -/
def State.setIb (s : State) (k : Fin 4) (b : Buffer) : State :=
  match k with
  | 0 => { s with ib0 := b }
  | 1 => { s with ib1 := b }
  | 2 => { s with ib2 := b }
  | 3 => { s with ib3 := b }

/-- CLRBUF's write of the input buffers (47_symenv.md R197). -/
def State.clearInputs (s : State) : State :=
  { s with ib0 := Buffer.empty, ib1 := Buffer.empty, ib2 := Buffer.empty, ib3 := Buffer.empty }

/-- One draw has been made (log entry 3). -/
def State.countDraw (s : State) : State := { s with drawCount := s.drawCount + 1 }

/-! ## START and COMPLETE (R40, R41) -/

/-- BUSY is the sequencer's phase (R33). -/
def State.busy (s : State) : Bool :=
  match s.seq with
  | .idle => false
  | .busy _ => true

/-- Host step START (R40), for an accepted write of `w` to CMD. -/
def State.start (s : State) (w : Word) : State :=
  { s with
    cmd := w
    status := { done := false, err := false, ok := false, errcode := 0, opc := w.extractLsb' 0 8 }
    seq := .busy w }

/-- The ERRCODE of an error class (60_exceptions.md R200). -/
def ErrorClass.code : ErrorClass → Byte
  | .unsupportedAlgorithm   => 0x01#8
  | .lengthMismatch         => 0x02#8
  | .unsupportedOperation   => 0x03#8
  | .messageTooLong         => 0x04#8
  | .encodingError          => 0x05#8
  | .encodedMessageTooShort => 0x06#8
  | .integrityCheckFailed   => 0x07#8
  | .malformedInput         => 0x08#8
  | .capacity               => 0x09#8
  | .noContext              => 0x0A#8
  | .illegalCommand         => 0x0B#8

/-- What every completion writes (R41): the outputs, RES, the context slot and the STATUS result fields; then DONE,
the loop engine cleared, the transient context zeroised, the sequencer idle. -/
def State.finish (s : State) (ob0 ob1 : Bytes) (res : Word) (ctx : CipherCtx) (err ok : Bool) (errcode : Byte) : State :=
  { s with
    ob0 := Buffer.ofBytes ob0
    ob1 := Buffer.ofBytes ob1
    res := res
    ctx := ctx
    status := { done := true, err := err, ok := ok, errcode := errcode, opc := s.status.opc }
    seq := .idle
    loop := LoopEngine.cleared
    transient := CipherCtx.released }

/-- Error completion, the "trap entry" (60_exceptions.md R206): outputs empty, RES 0, ERR 1, ERRCODE the class. -/
def State.completeError (s : State) (code : ErrorClass) (ctx : CipherCtx) : State :=
  s.finish [] [] 0 ctx true false code.code

/-- Engine step COMPLETE's write of an outcome (R41). -/
def State.complete (s : State) : Completion → State
  | .success ob0 ob1 res ctx => s.finish ob0 ob1 res ctx false true 0
  | .boolFalse ctx => s.finish [] [] 0 ctx false false 0
  | .error code ctx => s.completeError code ctx

/-- Acknowledge, the "trap return" (60_exceptions.md R209): the write-1-to-clear of DONE (R27). ERR, ERRCODE and OK
stay. -/
def State.acknowledge (s : State) : State := { s with status := { s.status with done := false } }

/-! ## Outcomes, as the command rules write them -/

/-- `Success(ob0 = x)`: OB1 empty, RES 0, the slot unchanged (R41). -/
def State.successOb0 (s : State) (x : Bytes) : Completion := .success x [] 0 s.ctx

/-- `raise E`: the slot unchanged (R41). -/
def State.raise (s : State) (e : ErrorClass) : Completion := .error e s.ctx

/-- The outcome of a command whose function yields OB0's bytes or raises. -/
def State.ofExcept (s : State) : Except ErrorClass Bytes → Completion
  | .ok x => s.successOb0 x
  | .error e => s.raise e

end Sys2Proof.Machine
end

