-- ==== Sys2Proof/Machine/Flags.lean ====
section
/-! DEFINITION. The register words that hold flags (10_state.md R27, R28, R30, R31) and the interrupt output
(60_exceptions.md R211). There are no arithmetic flags (R38). -/

namespace Sys2Proof.Machine

/-- A flag as one bit. -/
def flagBit (b : Bool) : BitVec 1 := BitVec.ofBool b

/-- STATUS as a word (R27): OPC 23:16, ERRCODE 15:8, OK 3, ERR 2, DONE 1, BUSY 0, the rest zero. -/
def statusWord (busy : Bool) (st : Status) : Word :=
  0#8 ++ st.opc ++ st.errcode ++ 0#4 ++ flagBit st.ok ++ flagBit st.err ++ flagBit st.done ++ flagBit busy

/-- STATUS as the host reads it. -/
def State.statusReg (s : State) : Word := statusWord s.busy s.status

/-- CTX_STAT as a word (R30): BLK 15:8, VALID 0, the rest zero. -/
def CipherCtx.statWord (c : CipherCtx) : Word := 0#16 ++ c.blk ++ 0#7 ++ flagBit c.valid

/-- CAP (R31): BUFCAP in 19:0, NIB = 4 in 23:20, NOB = 2 in 27:24, zero in 31:28. -/
def capWord (cfg : Config) : Word := 0#4 ++ 2#4 ++ 4#4 ++ BitVec.ofNat 20 cfg.bufcap

/-- ID (R31). -/
def idWord : Word := 0x52504144#32

/-- VERSION (R31). -/
def versionWord : Word := 0x00010000#32

/-- What a write leaves in INTEN: bit 0 only (R28; 48_laws.md R224). -/
def intenWritten (data : Word) : Word := data &&& 0x00000001#32

/-- `irq = STATUS.DONE AND INTEN.DONE_IE` (R28, R211). -/
def State.irq (s : State) : Bool := s.status.done && s.inten.getLsbD 0

end Sys2Proof.Machine
end

