-- ==== Sys2Proof/Machine/Operands.lean ====
section
/-! DEFINITION. The operand forms: the ALG field (30_encoding.md R76, R77; 40_catalog.md R90, R91), the parameter
registers and buffer values (10_state.md R22, R23), the symDef word (R78) and the cipher catalog (47_symenv.md
R176). -/

namespace Sys2Proof.Machine

/-- The three classes of 16-bit identifier (R90). -/
inductive AlgClass where
  | real (h : RealHash)
  | sentinel
  | outside
  deriving DecidableEq, Repr

/-- The variant an ALG value names (R77). -/
def algClass (alg : Half) : AlgClass :=
  if alg = 0x0004#16 then .real .sha1
  else if alg = 0x000B#16 then .real .sha256
  else if alg = 0x000C#16 then .real .sha384
  else if alg = 0x000D#16 then .real .sha512
  else if alg = 0x0010#16 then .sentinel
  else if alg = 0x0012#16 then .real .sm3
  else .outside

/-- The real hash an ALG value names, if `IsHash(alg)` (R90). -/
def realHash? (alg : Half) : Option RealHash :=
  match algClass alg with
  | .real h => some h
  | .sentinel => none
  | .outside => none

/-- `IsHash(alg)` (R90). -/
def isHash (alg : Half) : Bool := (realHash? alg).isSome

/-- `DigestSize` of a real hash (R91), written `hLen` in the rules. -/
def digestSize : RealHash → Nat
  | .sha1   => 20
  | .sha256 => 32
  | .sha384 => 48
  | .sha512 => 64
  | .sm3    => 32

/-- `BlockSize` of a real hash (R91). -/
def blockSize : RealHash → Nat
  | .sha1   => 64
  | .sha256 => 64
  | .sha384 => 128
  | .sha512 => 128
  | .sm3    => 64

/-- `DigestSize(alg)` (R91): 0 for NONE, undefined outside the closed set. -/
def digestSizeOf (alg : Half) : Option Nat :=
  match algClass alg with
  | .real h => some (digestSize h)
  | .sentinel => some 0
  | .outside => none

/-- `BlockSize(alg)` (R91): 0 for NONE, undefined outside the closed set. -/
def blockSizeOf (alg : Half) : Option Nat :=
  match algClass alg with
  | .real h => some (blockSize h)
  | .sentinel => some 0
  | .outside => none

/-- `P[0]`, as an integer (R76). -/
def State.p0n (s : State) : Nat := s.p0.toNat

/-- `P[1]`, as an integer (R76). -/
def State.p1n (s : State) : Nat := s.p1.toNat

/-- The cipher identifier of a symDef word, bits 15:0 (R78). -/
def symCipher (symDef : Word) : Half := symDef.extractLsb' 0 16

/-- The mode identifier of a symDef word, bits 31:16 (R78). -/
def symMode (symDef : Word) : Half := symDef.extractLsb' 16 16

/-- `CipherCatalog(cipher, mode, keyBits)` (R176): the block size, undefined for a triple not in the table. -/
def cipherCatalog (cfg : Config) (cipher mode : Half) (keyBits : Nat) : Option Nat :=
  (cfg.ciphers.find? fun r => r.cipher == cipher && r.mode == mode && r.keyBits == keyBits).map (·.blockSize)

/-- `CipherCatalog` of a symDef word and a key size, as CTXNEW and DEENV ask for it (R177, R190). -/
def symBlock (cfg : Config) (symDef : Word) (keyBits : Nat) : Option Nat :=
  cipherCatalog cfg (symCipher symDef) (symMode symDef) keyBits

end Sys2Proof.Machine
end

