-- ==== Sys2Proof/Machine/Provider.lean ====
section
/-! DEFINITION. The Primitive Crypto Provider (00_scope.md R12, R13): total deterministic functions of which only the
lengths are known, and the draws. The wrappers `H` and `HM` (40_catalog.md R94) are `providerHash` and
`providerHmac`: they take a real hash, so that the check of R94, which every command makes first (60_exceptions.md
R205), has been made by the time one is called. -/

namespace Sys2Proof.Machine

/-- The provider's answer to a request, exactly `n` bytes: byte `i` is the listed answer's where the table has it,
else the free value (log entry 2). -/
def providerAnswer (cfg : Config) (r : Request) (n : Nat) : Bytes :=
  (List.range n).map fun i => (((cfg.answers.lookup r).getD [])[i]?).getD (Config.freeByte r i)

/-- `Provider.Hash(alg, M)`: DigestSize(alg) bytes (R13 (b)). -/
def providerHash (cfg : Config) (h : RealHash) (message : Bytes) : Bytes :=
  providerAnswer cfg (.hash h message) (digestSize h)

/-- `Provider.HMAC(alg, K, M)`: DigestSize(alg) bytes (R13 (b)). -/
def providerHmac (cfg : Config) (h : RealHash) (key message : Bytes) : Bytes :=
  providerAnswer cfg (.hmac h key message) (digestSize h)

/-- `Provider.Encrypt` and `Provider.Decrypt`: as many bytes as the data (R13 (c)). -/
def providerCipher (cfg : Config) (dir : Dir) (cipher mode : Half) (key iv data : Bytes) : Bytes :=
  providerAnswer cfg (.cipher dir cipher mode key iv data) data.length

/-- `Provider.SecureRandomBytes(count)` (R13 (d)): the bytes of the next draw, exactly `count` (log entry 3). -/
def State.drawn (s : State) (count : Nat) : Bytes := providerAnswer s.cfg (.random s.drawCount count) count

end Sys2Proof.Machine
end

