-- ==== Sys2Proof/Machine/Catalog.lean ====
section
/-! DEFINITION. The hash algorithm catalog commands (40_catalog.md R92, R93, R95, R96). -/

namespace Sys2Proof.Machine

/-- A catalog query's outcome (R92, R93): the size in RES, or `UnsupportedAlgorithm` outside the closed set. -/
def State.sizeResult (s : State) : Option Nat → Completion
  | none => s.raise .unsupportedAlgorithm
  | some n => .success [] [] (BitVec.ofNat 32 n) s.ctx

/-- DIGSZ (R92). -/
def execDigsz (alg : Half) (s : State) : Host.Outcome State Fault Refusal :=
  .next (s.complete (s.sizeResult (digestSizeOf alg)))

/-- BLKSZ (R93). -/
def execBlksz (alg : Half) (s : State) : Host.Outcome State Fault Refusal :=
  .next (s.complete (s.sizeResult (blockSizeOf alg)))

/-- ISHASH (R95; 90_conflicts.md C3): a total predicate, its answer in RES. -/
def execIshash (alg : Half) (s : State) : Host.Outcome State Fault Refusal :=
  .next (s.complete (.success [] [] (if isHash alg then 1#32 else 0#32) s.ctx))

end Sys2Proof.Machine
end

