-- ==== Sys2Proof/Machine/Kdfa.lean ====
section
/-! DEFINITION. The KDFa counter-mode loop engine and the bit-length splitter (42_kdfa.md R110 to R116). -/

namespace Sys2Proof.Machine

/-- `numLoops` (R110). -/
def kdfaLoops (h : RealHash) (n : Nat) : Nat := ceilDiv n (digestSize h * 8)

/-- The HMAC input X_i (R110): BE32(i) ‖ label ‖ 00 ‖ U ‖ V ‖ BE32(n). -/
def kdfaInput (label u v : Bytes) (n i : Nat) : Bytes :=
  be32 i ++ label ++ [0x00#8] ++ u ++ v ++ be32 n

/-- The loop of R111, with the turns that remain: `ACC ‖ HM(…)`, CTR counts. -/
def kdfaLoop (cfg : Config) (h : RealHash) (key label u v : Bytes) (n : Nat) : Nat → LoopEngine → LoopEngine
  | 0, e => e
  | k + 1, e =>
    kdfaLoop cfg h key label u v n k
      { ctr := e.ctr + 1, acc := e.acc ++ providerHmac cfg h key (kdfaInput label u v n e.ctr.toNat) }

/-- The engine when the loop of R111 has ended: CTR starts at 1, and the loop runs exactly numLoops times. -/
def kdfaController (cfg : Config) (h : RealHash) (key label u v : Bytes) (n : Nat) : LoopEngine :=
  kdfaLoop cfg h key label u v n (kdfaLoops h n) { ctr := 1, acc := [] }

/-- The final shift (R110, R112; 90_conflicts.md C5): `bytes_m(int(S) >> E)`. -/
def kdfaShift (h : RealHash) (n : Nat) (stream : Bytes) : Bytes :=
  bytesN (ceilDiv n 8) (intOf stream >>> (kdfaLoops h n * digestSize h * 8 - n))

/-- `KDFaf(alg, key, label, U, V, n)` (R110, R111). -/
def kdfa (cfg : Config) (h : RealHash) (key label u v : Bytes) (n : Nat) : Bytes :=
  kdfaShift h n (kdfaController cfg h key label u v n).acc

/-- The outcome of KDFA (R114). -/
def State.kdfaResult (s : State) (alg : Half) : Completion :=
  match realHash? alg with
  | none => s.raise .unsupportedAlgorithm
  | some h =>
    if s.cfg.bufcap < ceilDiv s.p0n 8 then s.raise .capacity
    else s.successOb0 (kdfa s.cfg h s.ib0.value s.ib1.value s.ib2.value s.ib3.value s.p0n)

/-- KDFA (R114). -/
def execKdfa (alg : Half) (s : State) : Host.Outcome State Fault Refusal :=
  .next (s.complete (s.kdfaResult alg))

/-- `Splitf(B, n1, n2)` (R115). -/
def splitBits (b : Bytes) (n1 n2 : Nat) : Except ErrorClass (Bytes × Bytes) :=
  if n1 % 8 ≠ 0 ∨ n2 % 8 ≠ 0 then .error .unsupportedOperation
  else if b.length < ceilDiv n1 8 + n2 / 8 then .error .malformedInput
  else .ok (slice b 0 (n1 / 8), slice b (ceilDiv n1 8) (ceilDiv n1 8 + n2 / 8))

/-- The outcome of SPLIT (R116). -/
def State.splitResult (s : State) : Completion :=
  match splitBits s.ib0.value s.p0n s.p1n with
  | .ok (a1, a2) => .success a1 a2 0 s.ctx
  | .error e => s.raise e

/-- SPLIT (R116). -/
def execSplit (s : State) : Host.Outcome State Fault Refusal :=
  .next (s.complete s.splitResult)

end Sys2Proof.Machine
end

