-- ==== Sys2Proof/Machine/Mgf1.lean ====
section
/-! DEFINITION. The MGF1 mask-generation controller (41_mgf1.md R100 to R102). -/

namespace Sys2Proof.Machine

/-- One turn of the controller's loop (R101): ACC takes the digest of seed ‖ BE32(CTR), CTR counts. -/
def mgf1Turn (cfg : Config) (h : RealHash) (seed : Bytes) (e : LoopEngine) : LoopEngine :=
  { ctr := e.ctr + 1, acc := e.acc ++ providerHash cfg h (seed ++ be32 e.ctr.toNat) }

/-- The loop of R101, `while len(ACC) < L`. The first argument bounds the turns: each adds at least one byte, so L
of them are enough (log entry 13). -/
def mgf1Loop (cfg : Config) (h : RealHash) (seed : Bytes) (len : Nat) : Nat → LoopEngine → LoopEngine
  | 0, e => e
  | n + 1, e => if e.acc.length < len then mgf1Loop cfg h seed len n (mgf1Turn cfg h seed e) else e

/-- The controller's engine when its loop has ended (R101). -/
def mgf1Controller (cfg : Config) (h : RealHash) (seed : Bytes) (len : Nat) : LoopEngine :=
  mgf1Loop cfg h seed len len LoopEngine.cleared

/-- `MGF1f(alg, seed, L)` as the controller computes it (R101): `ACC[0:L]`. -/
def mgf1 (cfg : Config) (h : RealHash) (seed : Bytes) (len : Nat) : Bytes :=
  (mgf1Controller cfg h seed len).acc.take len

/-- `MGF1f(alg, seed, L)` as R100 defines it: the first L bytes of the concatenated digests. -/
def mgf1Defined (cfg : Config) (h : RealHash) (seed : Bytes) (len : Nat) : Bytes :=
  ((List.range (ceilDiv len (digestSize h))).flatMap fun j => providerHash cfg h (seed ++ be32 j)).take len

/-- The outcome of MGF1 (R102). -/
def State.mgf1Result (s : State) (alg : Half) : Completion :=
  match realHash? alg with
  | none => s.raise .unsupportedAlgorithm
  | some h =>
    if s.cfg.bufcap < s.p0n then s.raise .capacity
    else s.successOb0 (mgf1 s.cfg h s.ib0.value s.p0n)

/-- MGF1 (R102). -/
def execMgf1 (alg : Half) (s : State) : Host.Outcome State Fault Refusal :=
  .next (s.complete (s.mgf1Result alg))

end Sys2Proof.Machine
end

