-- ==== Sys2Proof/Machine/Oaep.lean ====
section
/-! DEFINITION. The OAEP encoder and decoder (44_oaep.md R135 to R142). -/

namespace Sys2Proof.Machine

/-- The data block before masking (R135): pHash ‖ zeros(psLen) ‖ 01 ‖ message. -/
def oaepBlock (pHash : Bytes) (psLen : Nat) (message : Bytes) : Bytes :=
  pHash ++ zeros psLen ++ [0x01#8] ++ message

/-- Masking (R136 steps 4 to 6): maskedSeed ‖ maskedDB. -/
def oaepMask (cfg : Config) (h : RealHash) (db seed : Bytes) : Bytes :=
  let maskedDb := xorBytes db (mgf1 cfg h seed db.length)
  xorBytes seed (mgf1 cfg h maskedDb (digestSize h)) ++ maskedDb

/-- `OaepEncodef(alg, message, params, modulusBytes, seed)` (R136), its length check passed. -/
def oaepEncode (cfg : Config) (h : RealHash) (message params : Bytes) (modulusBytes : Nat) (seed : Bytes) : Bytes :=
  let psLen := modulusBytes - 1 - message.length - 2 * digestSize h - 1
  oaepMask cfg h (oaepBlock (providerHash cfg h params) psLen message) seed

/-- The checks of OAEPENC before its draw, in order (R137); the arithmetic is over the integers (R136). -/
def State.oaepencCheck (s : State) (alg : Half) : Except ErrorClass RealHash :=
  match realHash? alg with
  | none => .error .unsupportedAlgorithm
  | some h =>
    if (s.p0n : Int) - 1 - 2 * digestSize h - 1 < (s.ib0.len : Int) then .error .messageTooLong
    else if (s.cfg.bufcap : Int) < (s.p0n : Int) - 1 then .error .capacity
    else .ok h

/-- OAEPENC (R137): one draw of hLen bytes when every check has passed. -/
def execOaepenc (alg : Half) (s : State) : Host.Outcome State Fault Refusal :=
  match s.oaepencCheck alg with
  | .error e => .next (s.complete (s.raise e))
  | .ok h =>
    .next (s.countDraw.complete
      (s.successOb0 (oaepEncode s.cfg h s.ib0.value s.ib1.value s.p0n (s.drawn (digestSize h)))))

/-- Unmasking (R139): the seed from maskedDB, then DB from the seed. -/
def oaepUnmask (cfg : Config) (h : RealHash) (em : Bytes) : Bytes :=
  let maskedSeed := em.take (digestSize h)
  let maskedDb := em.drop (digestSize h)
  let seed := xorBytes maskedSeed (mgf1 cfg h maskedDb (digestSize h))
  xorBytes maskedDb (mgf1 cfg h seed maskedDb.length)

/-- The scan of R139 over `DB[hLen:]`: past the zero bytes, the first other byte must be 01; what follows it is the
message (R142; 90_conflicts.md C1: the separator may be the last byte). -/
def oaepScan (region : Bytes) : Option Bytes :=
  match region.dropWhile (fun b => b == 0x00#8) with
  | [] => none
  | b :: message => if b = 0x01#8 then some message else none

/-- `OaepDecodef(alg, EM, params)` (R139); `none` is its `fail`. -/
def oaepDecode (cfg : Config) (h : RealHash) (em params : Bytes) : Option Bytes :=
  if em.length < 2 * digestSize h + 1 then none
  else
    let db := oaepUnmask cfg h em
    if db.take (digestSize h) = providerHash cfg h params then oaepScan (db.drop (digestSize h)) else none

/-- The outcome of OAEPDEC (R141): one boolean for every failing check (R140). -/
def State.oaepdecResult (s : State) (alg : Half) : Completion :=
  match realHash? alg with
  | none => s.raise .unsupportedAlgorithm
  | some h =>
    match oaepDecode s.cfg h s.ib0.value s.ib1.value with
    | none => .boolFalse s.ctx
    | some message => s.successOb0 message

/-- OAEPDEC (R141). -/
def execOaepdec (alg : Half) (s : State) : Host.Outcome State Fault Refusal :=
  .next (s.complete (s.oaepdecResult alg))

end Sys2Proof.Machine
end

