-- ==== Sys2Proof/Machine/Pkcs15.lean ====
section
/-! DEFINITION. The PKCS#1 v1.5 signature encoder (46_pkcs15.md R165 to R167). -/

namespace Sys2Proof.Machine

/-- The DER DigestInfo header of the three SHA-2 hashes (R165): they differ in three bytes. -/
def sha2DigestInfo (outer oid hLen : Byte) : Bytes :=
  [0x30#8, outer, 0x30#8, 0x0d#8, 0x06#8, 0x09#8, 0x60#8, 0x86#8, 0x48#8, 0x01#8] ++
  [0x65#8, 0x03#8, 0x04#8, 0x02#8, oid, 0x05#8, 0x00#8, 0x04#8, hLen]

/-- `Prefix(alg)` (R165), defined for four algorithms only. -/
def digestInfo : RealHash → Option Bytes
  | .sha1 => some
    ([0x30#8, 0x21#8, 0x30#8, 0x09#8, 0x06#8, 0x05#8, 0x2b#8, 0x0e#8] ++
     [0x03#8, 0x02#8, 0x1a#8, 0x05#8, 0x00#8, 0x04#8, 0x14#8])
  | .sha256 => some (sha2DigestInfo 0x31#8 0x01#8 0x20#8)
  | .sha384 => some (sha2DigestInfo 0x41#8 0x02#8 0x30#8)
  | .sha512 => some (sha2DigestInfo 0x51#8 0x03#8 0x40#8)
  | .sm3 => none

/-- The real hash an ALG value names together with its DigestInfo header, if it has one (R165, R167). -/
def p15Hash? (alg : Half) : Option (RealHash × Bytes) :=
  match realHash? alg with
  | none => none
  | some h => (digestInfo h).map fun header => (h, header)

/-- `Pkcs15Encodef(alg, message, emLen)` (R166), its length check passed: 00 ‖ 01 ‖ PS ‖ 00 ‖ T. -/
def p15Encode (cfg : Config) (h : RealHash) (header message : Bytes) (emLen : Nat) : Bytes :=
  let t := header ++ providerHash cfg h message
  [0x00#8, 0x01#8] ++ rep 0xff#8 (emLen - t.length - 3) ++ [0x00#8] ++ t

/-- The outcome of P15ENC (R167). -/
def State.p15encResult (s : State) (alg : Half) : Completion :=
  match p15Hash? alg with
  | none => s.raise .unsupportedAlgorithm
  | some (h, header) =>
    if s.p0n < header.length + digestSize h + 11 then s.raise .encodedMessageTooShort
    else if s.cfg.bufcap < s.p0n then s.raise .capacity
    else s.successOb0 (p15Encode s.cfg h header s.ib0.value s.p0n)

/-- P15ENC (R167). -/
def execP15enc (alg : Half) (s : State) : Host.Outcome State Fault Refusal :=
  .next (s.complete (s.p15encResult alg))

end Sys2Proof.Machine
end

