-- ==== Sys2Proof/Machine/Pss.lean ====
section
/-! DEFINITION. The PSS encoder and verifier (45_pss.md R150 to R155). -/

namespace Sys2Proof.Machine

/-- `0xFF >> t` (R150): the byte whose top t bits are clear (00_scope.md R9). -/
def topClear (t : Nat) : Byte := 0xFF#8 >>> t

/-- The first byte of a string ANDed with a mask (R150 step 4). -/
def andFirst (mask : Byte) : Bytes → Bytes
  | [] => []
  | b :: x => (b &&& mask) :: x

/-- `t = 8*emLen - emBits` (R152). -/
def pssTop (emBits : Nat) : Nat := 8 * ceilDiv emBits 8 - emBits

/-- `h = H(zeros(8) ‖ mHash ‖ salt)` (R150 step 2). -/
def pssHash (cfg : Config) (h : RealHash) (message salt : Bytes) : Bytes :=
  providerHash cfg h (zeros 8 ++ providerHash cfg h message ++ salt)

/-- The data block before masking (R152): zeros(emLen - saltLen - hLen - 2) ‖ 01 ‖ salt. -/
def pssBlock (h : RealHash) (emLen : Nat) (salt : Bytes) : Bytes :=
  zeros (emLen - salt.length - digestSize h - 2) ++ [0x01#8] ++ salt

/-- `PssEncodef(alg, message, saltLen, emBits, salt)` (R150), its length check passed; saltLen is the salt's
length. -/
def pssEncode (cfg : Config) (h : RealHash) (message : Bytes) (emBits : Nat) (salt : Bytes) : Bytes :=
  let emLen := ceilDiv emBits 8
  let hh := pssHash cfg h message salt
  let masked := xorBytes (pssBlock h emLen salt) (mgf1 cfg h hh (emLen - digestSize h - 1))
  andFirst (topClear (pssTop emBits)) masked ++ hh ++ [0xbc#8]

/-- The checks of PSSENC before its draw, in order (R151). -/
def State.pssencCheck (s : State) (alg : Half) : Except ErrorClass RealHash :=
  match realHash? alg with
  | none => .error .unsupportedAlgorithm
  | some h =>
    if ceilDiv s.p1n 8 < digestSize h + s.p0n + 2 then .error .encodingError
    else if s.cfg.bufcap < ceilDiv s.p1n 8 then .error .capacity
    else .ok h

/-- PSSENC (R151): one draw of saltLen bytes when every check has passed. -/
def execPssenc (alg : Half) (s : State) : Host.Outcome State Fault Refusal :=
  match s.pssencCheck alg with
  | .error e => .next (s.complete (s.raise e))
  | .ok h =>
    .next (s.countDraw.complete
      (s.successOb0 (pssEncode s.cfg h s.ib0.value s.p1n (s.drawn s.p0n))))

/-- The unmasked data block (R153): `Xorf(maskedDB, dbMask)` with its top t bits cleared. -/
def pssUnmask (cfg : Config) (h : RealHash) (em : Bytes) (emBits : Nat) : Bytes :=
  let emLen := ceilDiv emBits 8
  let maskedDb := slice em 0 (emLen - digestSize h - 1)
  let hh := slice em (emLen - digestSize h - 1) (emLen - 1)
  andFirst (topClear (pssTop emBits)) (xorBytes maskedDb (mgf1 cfg h hh (emLen - digestSize h - 1)))

/-- `PssVerifyf(alg, message, EM, saltLen, emBits)` (R153), checks (a) to (g) in order. -/
def pssVerify (cfg : Config) (h : RealHash) (message em : Bytes) (saltLen emBits : Nat) : Bool :=
  let emLen := ceilDiv emBits 8
  let hLen := digestSize h
  let db := pssUnmask cfg h em emBits
  let z := emLen - hLen - saltLen - 2
  if em.length ≠ emLen then false
  else if emLen < hLen + saltLen + 2 then false
  else if em.getD (emLen - 1) 0 ≠ 0xbc#8 then false
  else if em.getD 0 0 &&& ~~~topClear (pssTop emBits) ≠ 0#8 then false
  else if slice db 0 z ≠ zeros z then false
  else if db.getD z 0 ≠ 0x01#8 then false
  else pssHash cfg h message (slice db (z + 1) db.length) == slice em (emLen - hLen - 1) (emLen - 1)

/-- The outcome of PSSVFY (R154): the verification result in OK, never an error but for ALG (R155). -/
def State.pssvfyResult (s : State) (alg : Half) : Completion :=
  match realHash? alg with
  | none => s.raise .unsupportedAlgorithm
  | some h =>
    if pssVerify s.cfg h s.ib0.value s.ib1.value s.p0n s.p1n then s.successOb0 [] else .boolFalse s.ctx

/-- PSSVFY (R154). -/
def execPssvfy (alg : Half) (s : State) : Host.Outcome State Fault Refusal :=
  .next (s.complete (s.pssvfyResult alg))

end Sys2Proof.Machine
end

