-- ==== Sys2Proof/Machine/SymEnvelope.lean ====
section
/-! DEFINITION. The symmetric envelope (47_symenv.md R175 to R197): the cipher context, the transform wrapper, the
de-envelope splitter and the buffer clear. -/

namespace Sys2Proof.Machine

/-- A live context (R177): symDef word, key size, block size, key and IV. -/
def CipherCtx.make (symDef : Word) (keyBits : Word) (bs : Nat) (key iv : Bytes) : CipherCtx where
  defn    := symDef
  keyBits := keyBits
  valid   := true
  blk     := BitVec.ofNat 8 bs
  key     := Memory.ofBytes key
  iv      := Memory.ofBytes iv

/-- The checks of CTXNEW, in order, and the block size (R177). -/
def State.ctxnewCheck (s : State) (rndkey ivset : Bool) : Except ErrorClass Nat :=
  match symBlock s.cfg s.p0 s.p1n with
  | none => .error .unsupportedAlgorithm
  | some bs =>
    if rndkey = false ∧ 8 * s.ib0.len ≠ s.p1n then .error .malformedInput
    else if ivset = true ∧ s.ib1.len ≠ bs then .error .malformedInput
    else .ok bs

/-- The key of a new context (R177): the value of IB0, or a draw of P1/8 bytes. -/
def State.newKey (s : State) (rndkey : Bool) : Bytes :=
  if rndkey then s.drawn (s.p1n / 8) else s.ib0.value

/-- The IV of a new context (R177): the value of IB1, or zeros. -/
def State.newIv (s : State) (ivset : Bool) (bs : Nat) : Bytes :=
  if ivset then s.ib1.value else zeros bs

/-- CTXNEW (R177): every error leaves the slot released (R178); with RNDKEY, one draw when every check has passed. -/
def execCtxnew (rndkey ivset : Bool) (s : State) : Host.Outcome State Fault Refusal :=
  match s.ctxnewCheck rndkey ivset with
  | .error e => .next (s.complete (.error e CipherCtx.released))
  | .ok bs =>
    .next ((if rndkey then s.countDraw else s).complete
      (.success [] [] 0 (CipherCtx.make s.p0 s.p1 bs (s.newKey rndkey) (s.newIv ivset bs))))

/-- CTXREL (R180). -/
def execCtxrel (s : State) : Host.Outcome State Fault Refusal :=
  .next (s.complete (.success [] [] 0 CipherCtx.released))

/-- `data ‖ zeros((-L) mod bs)` (R181). -/
def padToBlock (bs : Nat) (data : Bytes) : Bytes := data ++ zeros ((-(data.length : Int)) % (bs : Int)).toNat

/-- `SymTransformf(dir, c, data, iv)` (R181; 90_conflicts.md C9): the result, the padded input X and the provider's
output Y. Empty data makes no provider call. -/
def symTransform (cfg : Config) (dir : Dir) (c : CipherCtx) (data iv : Bytes) : Bytes × Bytes × Bytes :=
  if data.length = 0 then ([], [], [])
  else
    let x := padToBlock c.blk.toNat data
    let y := providerCipher cfg dir (symCipher c.defn) (symMode c.defn) c.keyBytes iv x
    (y.take data.length, x, y)

/-- The contents of a context (R175): the KEY and IV bytes are the live ones (10_state.md R30). -/
def CipherCtx.value (c : CipherCtx) : ContextValue where
  cipher    := symCipher c.defn
  mode      := symMode c.defn
  keyBits   := c.keyBits.toNat
  blockSize := c.blk.toNat
  key       := c.keyBytes
  iv        := c.ivBytes

/-- `IvUpdate(dir, c, iv0, X, Y)` (R185): the default leaves iv0; any other function is a request, with all five
arguments, for BLK bytes (log entry 17). With IVSET the slot's own IV, in `c`, may differ from iv0. -/
def ivUpdate (cfg : Config) (dir : Dir) (c : CipherCtx) (iv0 x y : Bytes) : Bytes :=
  match cfg.ivPolicy with
  | .unchanged => iv0
  | .answered =>
    providerAnswer cfg (.ivUpdate dir c.value iv0 x y) c.blk.toNat

/-- The IV of a transform (R182, R184): the value of IB1 with IVSET, else the slot's. -/
def State.transformIv (s : State) (ivset : Bool) : Bytes :=
  if ivset then s.ib1.value else s.ctx.ivBytes

/-- The slot after a transform: its IV is `IvUpdate(…)` (R182, R184), nothing else changes. -/
def State.transformCtx (s : State) (dir : Dir) (ivset : Bool) : CipherCtx :=
  let iv0 := s.transformIv ivset
  let r := symTransform s.cfg dir s.ctx s.ib0.value iv0
  { s.ctx with iv := Memory.ofBytes (ivUpdate s.cfg dir s.ctx iv0 r.2.1 r.2.2) }

/-- The outcome of SYMENC and SYMDEC, which differ in the direction only (R182, R183). -/
def State.transformResult (s : State) (dir : Dir) (ivset : Bool) : Completion :=
  if s.ctx.valid = false then s.raise .noContext
  else if ivset = true ∧ s.ib1.len ≠ s.ctx.blk.toNat then s.raise .malformedInput
  else .success (symTransform s.cfg dir s.ctx s.ib0.value (s.transformIv ivset)).1 [] 0 (s.transformCtx dir ivset)

/-- SYMENC (R182). -/
def execSymenc (ivset : Bool) (s : State) : Host.Outcome State Fault Refusal :=
  .next (s.complete (s.transformResult .enc ivset))

/-- SYMDEC (R183). -/
def execSymdec (ivset : Bool) (s : State) : Host.Outcome State Fault Refusal :=
  .next (s.complete (s.transformResult .dec ivset))

/-- Step 4 of the de-envelope (R190, R195): strip the payload's length prefix, which must be exact. -/
def stripPayload (payload : Bytes) : Except ErrorClass Bytes :=
  if payload.length < 2 then .error .malformedInput
  else if intOf (slice payload 0 2) ≠ payload.length - 2 then .error .malformedInput
  else .ok (slice payload 2 (2 + intOf (slice payload 0 2)))

/-- Steps 2 to 4 of the de-envelope (R190, R192): split the inner object, check its integrity tag over the whole
hLen + 2 bytes, strip the prefix. -/
def openInner (cfg : Config) (h : RealHash) (inner associatedName : Bytes) : Except ErrorClass Bytes :=
  if inner.length < digestSize h + 2 then .error .malformedInput
  else
    match splitBits inner (16 + 8 * digestSize h) (8 * (inner.length - digestSize h - 2)) with
    | .error e => .error e
    | .ok (innerIntegrity, payload) =>
      if lengthPrefixed (providerHash cfg h (payload ++ associatedName)) ≠ innerIntegrity then
        .error .integrityCheckFailed
      else stripPayload payload

/-- The transient context T of R190 (10_state.md R35): its key from encKey, its IV all zero. -/
def deenvCtx (symDef keyBits : Word) (bs : Nat) (encKey : Bytes) : CipherCtx :=
  CipherCtx.make symDef keyBits bs encKey (zeros bs)

/-- `Deenvelopef(nameAlg, symDef, keyBits, outerBlob, encKey, associatedName)` (R190). -/
def deenvelope (cfg : Config) (h : RealHash) (symDef keyBits : Word) (outerBlob encKey associatedName : Bytes) :
    Except ErrorClass Bytes :=
  match symBlock cfg symDef keyBits.toNat with
  | none => .error .unsupportedAlgorithm
  | some bs =>
    if 8 * encKey.length ≠ keyBits.toNat then .error .malformedInput
    else
      openInner cfg h (symTransform cfg .dec (deenvCtx symDef keyBits bs encKey) outerBlob (zeros bs)).1 associatedName

/-- The outcome of DEENV (R191). -/
def State.deenvResult (s : State) (alg : Half) : Completion :=
  match realHash? alg with
  | none => s.raise .unsupportedAlgorithm
  | some h => s.ofExcept (deenvelope s.cfg h s.p0 s.p1 s.ib0.value s.ib1.value s.ib2.value)

/-- DEENV (R191). -/
def execDeenv (alg : Half) (s : State) : Host.Outcome State Fault Refusal :=
  .next (s.complete (s.deenvResult alg))

/-- CLRBUF (R197): the only command that writes input buffers. -/
def execClrbuf (s : State) : Host.Outcome State Fault Refusal :=
  .next (s.clearInputs.complete (s.successOb0 []))

end Sys2Proof.Machine
end

