-- ==== Sys2Proof/Machine/XorEngine.lean ====
section
/-! DEFINITION. The XOR byte-stream engine (43_xor.md R125 to R130). -/

namespace Sys2Proof.Machine

/-- `Xorf(a, b)` (R125). -/
def xorChecked (a b : Bytes) : Except ErrorClass Bytes :=
  if a.length ≠ b.length then .error .lengthMismatch else .ok (xorBytes a b)

/-- `XorPartialf(a, b)` (R126): the first min(len(a), len(b)) bytes of each operand. -/
def xorPartial (a b : Bytes) : Bytes := xorBytes a b

/-- The label "XOR" (42_kdfa.md R113): 58 4f 52. -/
def xorLabel : Bytes := [0x58#8, 0x4f#8, 0x52#8]

/-- `KdfThenXorf(alg, key, U, V, data)` (R127). -/
def kdfThenXor (cfg : Config) (h : RealHash) (key u v data : Bytes) : Except ErrorClass Bytes :=
  xorChecked data (kdfa cfg h key xorLabel u v (8 * data.length))

/-- XOR (R128). -/
def execXor (s : State) : Host.Outcome State Fault Refusal :=
  .next (s.complete (s.ofExcept (xorChecked s.ib0.value s.ib1.value)))

/-- XORP (R129). -/
def execXorp (s : State) : Host.Outcome State Fault Refusal :=
  .next (s.complete (s.successOb0 (xorPartial s.ib0.value s.ib1.value)))

/-- The outcome of KDFXOR (R130). -/
def State.kdfxorResult (s : State) (alg : Half) : Completion :=
  match realHash? alg with
  | none => s.raise .unsupportedAlgorithm
  | some h => s.ofExcept (kdfThenXor s.cfg h s.ib0.value s.ib2.value s.ib3.value s.ib1.value)

/-- KDFXOR (R130). -/
def execKdfxor (alg : Half) (s : State) : Host.Outcome State Fault Refusal :=
  .next (s.complete (s.kdfxorResult alg))

end Sys2Proof.Machine
end

