-- ==== Sys2Proof/Machine/Dispatch.lean ====
section
/-! DEFINITION. One arm per command: its meaning, the engine's evaluation and completion (10_state.md R41). -/

namespace Sys2Proof.Machine

def exec (i : Instr) (s : State) : Host.Outcome State Fault Refusal :=
  match i with
  | .digsz alg => Sys2Proof.Machine.execDigsz alg s
  | .blksz alg => Sys2Proof.Machine.execBlksz alg s
  | .ishash alg => Sys2Proof.Machine.execIshash alg s
  | .mgf1 alg => Sys2Proof.Machine.execMgf1 alg s
  | .kdfa alg => Sys2Proof.Machine.execKdfa alg s
  | .split => Sys2Proof.Machine.execSplit s
  | .xor => Sys2Proof.Machine.execXor s
  | .xorp => Sys2Proof.Machine.execXorp s
  | .kdfxor alg => Sys2Proof.Machine.execKdfxor alg s
  | .oaepenc alg => Sys2Proof.Machine.execOaepenc alg s
  | .oaepdec alg => Sys2Proof.Machine.execOaepdec alg s
  | .pssenc alg => Sys2Proof.Machine.execPssenc alg s
  | .pssvfy alg => Sys2Proof.Machine.execPssvfy alg s
  | .p15enc alg => Sys2Proof.Machine.execP15enc alg s
  | .ctxnew rndkey ivset => Sys2Proof.Machine.execCtxnew rndkey ivset s
  | .ctxrel => Sys2Proof.Machine.execCtxrel s
  | .symenc ivset => Sys2Proof.Machine.execSymenc ivset s
  | .symdec ivset => Sys2Proof.Machine.execSymdec ivset s
  | .deenv alg => Sys2Proof.Machine.execDeenv alg s
  | .clrbuf => Sys2Proof.Machine.execClrbuf s

end Sys2Proof.Machine
end

