-- ==== Sys2Proof/Machine/HostAccess.lean ====
section
/-! DEFINITION. The host's accesses to the window (10_state.md R32; 20_memory.md R50 to R58, R66; 48_laws.md R224). -/

namespace Sys2Proof.Machine

/-- The registers of sub-window 0 (R32). -/
inductive Reg where
  | id | version | cap | cmd | status | inten | res | p0 | p1
  | ibLen (k : Fin 4)
  | obLen (k : Fin 2)
  | ctxDef | ctxKeybits | ctxStat
  deriving DecidableEq, Repr

/-- The offset of a register (R32). -/
def Reg.offset : Reg → Nat
  | .id => 0x000
  | .version => 0x004
  | .cap => 0x008
  | .cmd => 0x00C
  | .status => 0x010
  | .inten => 0x014
  | .res => 0x018
  | .p0 => 0x020
  | .p1 => 0x024
  | .ibLen k => 0x040 + 4 * k.val
  | .obLen k => 0x050 + 4 * k.val
  | .ctxDef => 0x060
  | .ctxKeybits => 0x064
  | .ctxStat => 0x068

/-- All registers, by rising offset. -/
def Reg.all : List Reg :=
  [.id, .version, .cap, .cmd, .status, .inten, .res, .p0, .p1] ++
  [.ibLen 0, .ibLen 1, .ibLen 2, .ibLen 3, .obLen 0, .obLen 1, .ctxDef, .ctxKeybits, .ctxStat]

/-- The register at an offset of sub-window 0; every other offset is reserved (R51). -/
def Reg.at? (o : Nat) : Option Reg := Reg.all.find? fun r => r.offset == o

/-- The current 32-bit value of a register (R32, R224). -/
def State.readReg (s : State) : Reg → Word
  | .id => idWord
  | .version => versionWord
  | .cap => capWord s.cfg
  | .cmd => s.cmd
  | .status => s.statusReg
  | .inten => s.inten
  | .res => s.res
  | .p0 => s.p0
  | .p1 => s.p1
  | .ibLen k => BitVec.ofNat 32 (s.ib k).len
  | .obLen k => BitVec.ofNat 32 (s.ob k).len
  | .ctxDef => s.ctx.defn
  | .ctxKeybits => s.ctx.keyBits
  | .ctxStat => s.ctx.statWord

/-- A write to a register while idle (R224); `none` is a bus error: a read-only register (R56 (3)), or a length above
BUFCAP (R24). -/
def State.writeReg (s : State) (r : Reg) (data : Word) : Option State :=
  match r with
  | .cmd => some (s.start data)
  | .status => some (if data.getLsbD 1 then s.acknowledge else s)
  | .inten => some { s with inten := intenWritten data }
  | .p0 => some { s with p0 := data }
  | .p1 => some { s with p1 := data }
  | .ibLen k =>
    if s.cfg.bufcap < data.toNat then none else some (s.setIb k { s.ib k with len := data.toNat })
  | .id | .version | .cap | .res | .obLen _ | .ctxDef | .ctxKeybits | .ctxStat => none

/-- An access to sub-window 0 at offset `o` (R51, R55, R57, R224). -/
def State.regAccess (s : State) (a : Access) (o : Nat) : State × BusAnswer :=
  if a.size ≠ 4 ∨ o % 4 ≠ 0 then (s, .error)
  else
    match Reg.at? o with
    | none => (s, .error)
    | some r =>
      match a.kind with
      | .read => (s, .okayData (s.readReg r))
      | .write =>
        if s.busy then (s, .error)
        else
          match s.writeReg r a.data with
          | none => (s, .error)
          | some t => (t, .okay)

/-- An access at offset `o` of a buffer sub-window is admitted: not while BUSY, a size of 1, 2 or 4, naturally
aligned, inside BUFCAP (R52, R55, R57, R224). -/
def State.bufferAdmits (s : State) (a : Access) (o : Nat) : Bool :=
  !s.busy && (a.size == 1 || a.size == 2 || a.size == 4) && o % a.size == 0 && decide (o + a.size ≤ s.cfg.bufcap)

/-- The data of a buffer read (R54, R224). -/
def bufferData (b : Buffer) (o size : Nat) : Word := BitVec.ofNat 32 (b.mem.readLanes o size)

/-- An access to the sub-window of IBk (R24, R66, R224): a write never changes `len`. -/
def State.ibAccess (s : State) (k : Fin 4) (a : Access) (o : Nat) : State × BusAnswer :=
  if s.bufferAdmits a o = false then (s, .error)
  else
    match a.kind with
    | .read => (s, .okayData (bufferData (s.ib k) o a.size))
    | .write => (s.setIb k { s.ib k with mem := (s.ib k).mem.writeLanes o a.data.toNat a.size }, .okay)

/-- An access to the sub-window of OBk (R25, R66, R224): output buffers are read-only. -/
def State.obAccess (s : State) (k : Fin 2) (a : Access) (o : Nat) : State × BusAnswer :=
  if s.bufferAdmits a o = false then (s, .error)
  else
    match a.kind with
    | .read => (s, .okayData (bufferData (s.ob k) o a.size))
    | .write => (s, .error)

/-- The sub-window of an access (R50): `off div 0x10000`. -/
def Access.window (a : Access) : Nat := a.off.toNat / 0x10000

/-- The offset inside the sub-window: `off mod 0x10000`. -/
def Access.inner (a : Access) : Nat := a.off.toNat % 0x10000

/-- The host access function (R224). -/
def State.hostAccess (s : State) (a : Access) : State × BusAnswer :=
  match a.window with
  | 0 => s.regAccess a a.inner
  | 1 => s.ibAccess 0 a a.inner
  | 2 => s.ibAccess 1 a a.inner
  | 3 => s.ibAccess 2 a a.inner
  | 4 => s.ibAccess 3 a a.inner
  | 5 => s.obAccess 0 a a.inner
  | 6 => s.obAccess 1 a a.inner
  | _ => (s, .error)

/-- The step of a host access: its effect, and the answer the host sees. -/
def State.applyAccess (s : State) (a : Access) : State :=
  { (s.hostAccess a).1 with busAnswer := some (s.hostAccess a).2 }

/-- The byte a host would find at offset `o` of sub-window `w` (R50, R52, R66), whether or not the engine runs; 0
where there is no storage. -/
def State.windowByte (s : State) (w o : Nat) : Byte :=
  match w with
  | 1 => s.ib0.mem.read o
  | 2 => s.ib1.mem.read o
  | 3 => s.ib2.mem.read o
  | 4 => s.ib3.mem.read o
  | 5 => s.ob0.mem.read o
  | 6 => s.ob1.mem.read o
  | _ => 0#8

end Sys2Proof.Machine
end

