-- ==== Sys2Proof/Machine/Sequencer.lean ====
section
/-! DEFINITION. The sequencer (10_state.md R33, R40, R41) and the events that reach the block: the engine's completion
of the latched command, a host access, a reset (70_reset_and_hazards.md R230 to R232). -/

namespace Sys2Proof.Machine

/-- Engine step COMPLETE (R41): the latched word's command is evaluated and completed; an illegal word ends in
`IllegalCommand` (30_encoding.md R79). While IDLE the engine waits (70_reset_and_hazards.md R231). -/
def State.engineStep (s : State) : Host.Outcome State Fault Refusal :=
  match s.seq with
  | .idle => .next s
  | .busy w =>
    match decode w with
    | .ok i => exec i s
    | .error _ => .next (s.completeError .illegalCommand s.ctx)

/-- `rst_n` (R230 to R232): every element of the block takes its reset value (R43), a running command is abandoned.
The model's own fields for the surroundings stay: the parameters, the count of draws, the events to come (log entry
16). -/
def State.assertReset (s : State) : State :=
  { State.reset with cfg := s.cfg, drawCount := s.drawCount, agenda := s.agenda }

/-- One event. -/
def State.runEvent (s : State) : Event → Host.Outcome State Fault Refusal
  | .access a => .next (s.applyAccess a)
  | .engine => s.engineStep
  | .reset => .next s.assertReset

end Sys2Proof.Machine
end

