-- ==== Sys2Proof/Machine/Step.lean ====
section
/-! DEFINITION. One step: the next event of the agenda, or, when none is listed, the engine's (log entry 4). -/

namespace Sys2Proof.Machine

def step (s : State) : Host.Outcome State Fault Refusal :=
  match s.agenda with
  | [] => s.engineStep
  | e :: rest => State.runEvent { s with agenda := rest } e

/-- The state in which the next step runs the command word `w`: START with it (10_state.md R40), and the engine's
completion as the next event (log entry 6). -/
def State.withFetchWord (s : State) (nbits w : Nat) : State :=
  { s.start (BitVec.ofNat 32 (w % 2 ^ nbits)) with agenda := .engine :: s.agenda }

end Sys2Proof.Machine
end

