-- ==== Sys2Proof/Machine/HostScript.lean ====
section
/-! DEFINITION. The host-script lines and pseudo-instructions (30_encoding.md R83, R84) as bus accesses and events. The
`POLL` loop is the host's control flow, not the block's: one turn of it is one read of STATUS (`pollTurn`). -/

namespace Sys2Proof.Machine

/-- A buffer, denoting the start of its sub-window (R83). -/
inductive BufName where
  | ib (k : Fin 4)
  | ob (k : Fin 2)
  deriving DecidableEq, Repr

/-- The window offset of byte `o` of a buffer (20_memory.md R50, R52). -/
def BufName.at (b : BufName) (o : Nat) : BitVec 19 :=
  match b with
  | .ib k => BitVec.ofNat 19 (0x10000 * (k.val + 1) + o)
  | .ob k => BitVec.ofNat 19 (0x10000 * (k.val + 5) + o)

/-- `WR reg, v`. -/
def wr (r : Reg) (v : Word) : Access := ⟨.write, BitVec.ofNat 19 r.offset, 4, v⟩

/-- `RD reg`. -/
def rd (r : Reg) : Access := ⟨.read, BitVec.ofNat 19 r.offset, 4, 0⟩

/-- `WB buf+o, b`. -/
def wb (buf : BufName) (o : Nat) (b : Byte) : Access := ⟨.write, buf.at o, 1, b.setWidth 32⟩

/-- `WW buf+o, v`. -/
def ww (buf : BufName) (o : Nat) (v : Word) : Access := ⟨.write, buf.at o, 4, v⟩

/-- `RB buf+o`. -/
def rb (buf : BufName) (o : Nat) : Access := ⟨.read, buf.at o, 1, 0⟩

/-- `RW buf+o`. -/
def rw32 (buf : BufName) (o : Nat) : Access := ⟨.read, buf.at o, 4, 0⟩

/-- `GO command`: `WR CMD, word(command)`. -/
def go (i : Instr) : Access := wr .cmd (encode i)

/-- The byte writes of `LOAD`, from offset `o` on. -/
def loadBytes (k : Fin 4) : Nat → Bytes → List Access
  | _, [] => []
  | o, b :: x => wb (.ib k) o b :: loadBytes k (o + 1) x

/-- `LOAD IBk, b0 b1 …` (R84): the bytes one by one, then the length. -/
def load (k : Fin 4) (x : Bytes) : List Access := loadBytes k 0 x ++ [wr (.ibLen k) (BitVec.ofNat 32 x.length)]

/-- One turn of `POLL` (R84): a read of STATUS. -/
def pollTurn : Access := rd .status

/-- `RUN command` (R84) where the completion falls before the first poll: START, the engine, a read of STATUS that
finds DONE. -/
def run (i : Instr) : List Event := [.access (go i), .engine, .access pollTurn]

/-- `ACK` (R84): clears DONE. -/
def ack : Access := wr .status 0x00000002#32

/-- The accesses of `EXPECT OBk, …` of `n` bytes (R84): the length, then each byte. -/
def expectReads (k : Fin 2) (n : Nat) : List Access := rd (.obLen k) :: (List.range n).map (rb (.ob k))

end Sys2Proof.Machine
end

