-- ==== Sys2Proof/Safety.lean ====
section
/-! DEFINITION. What holds of every state the block can be in (the invariants 10_state.md and 47_symenv.md state for
it), and what a host can tell two states apart by. -/

namespace Sys2Proof.Machine

/-- A buffer inside its storage (10_state.md R23): canonical, nothing stored at or beyond `cap`, len ≤ cap. -/
structure Buffer.Fits (b : Buffer) (cap : Nat) : Prop where
  mem_wf : b.mem.WF
  mem_below : b.mem.Below cap
  len_le : b.len ≤ cap

/-- A context slot is released, every element zero, or live with a triple of the catalog, its KEY and IV stores zero
beyond the live bytes (10_state.md R30, 47_symenv.md R176, R179, 90_conflicts.md C8). -/
def CipherCtx.Legal (cfg : Config) (c : CipherCtx) : Prop :=
  c = CipherCtx.released ∨
  (c.valid = true ∧ symBlock cfg c.defn c.keyBits.toNat = some c.blk.toNat ∧
    c.key.WF ∧ c.key.Below (c.keyBits.toNat / 8) ∧ c.iv.WF ∧ c.iv.Below c.blk.toNat)

/-- The invariant of the block. -/
structure State.Inv (s : State) : Prop where
  /-- the parameters meet 00_scope.md R7 and 47_symenv.md R176 -/
  cfg_wf : s.cfg.WF
  /-- input buffers (10_state.md R23) -/
  ib_fits : ∀ k, (s.ib k).Fits s.cfg.bufcap
  /-- output buffers (10_state.md R23) -/
  ob_fits : ∀ k, (s.ob k).Fits s.cfg.bufcap
  /-- `mem[i] = 0` for every i ≥ len of an output buffer (10_state.md R25) -/
  ob_zero : ∀ k, (s.ob k).mem.Below (s.ob k).len
  /-- bits 31:1 of INTEN read as zero (10_state.md R28) -/
  inten_bit : s.inten = intenWritten s.inten
  /-- OPC is bits 7:0 of the last accepted command word (10_state.md R27) -/
  opc_cmd : s.status.opc = opcField s.cmd
  /-- while BUSY: the latched word is CMD's, DONE, ERR, OK and ERRCODE are 0 (10_state.md R26, R27, R40) -/
  busy_clear : ∀ w, s.seq = .busy w → s.cmd = w ∧ s.status.done = false ∧ s.status.err = false ∧
    s.status.ok = false ∧ s.status.errcode = 0
  /-- ERRCODE is 0 exactly when ERR is, and never above 0x0B (10_state.md R27, 60_exceptions.md R200) -/
  err_code : (s.status.err = false ↔ s.status.errcode = 0) ∧ s.status.errcode.toNat ≤ 0x0B
  /-- OK is 0 after an error (10_state.md R27) -/
  ok_err : s.status.ok = true → s.status.err = false
  /-- the context slot (10_state.md R30) -/
  ctx_legal : s.ctx.Legal s.cfg
  /-- CTR and ACC are cleared between commands (10_state.md R34) -/
  loop_clear : s.loop = LoopEngine.cleared
  /-- the transient context is zeroised between commands (10_state.md R35) -/
  transient_clear : s.transient = CipherCtx.released

/-- Two states that differ at most in what has no address: the KEY and IV stores, the loop engine and the transient
context (60_exceptions.md R214). -/
def State.SameVisible (s t : State) : Prop :=
  { s with ctx := { s.ctx with key := t.ctx.key, iv := t.ctx.iv }, loop := t.loop, transient := t.transient } = t

/-- The identifiers with `IsHash` and the hash each names (40_catalog.md R90). -/
def hashTable : List (Half × RealHash) :=
  [(0x0004#16, .sha1), (0x000B#16, .sha256), (0x000C#16, .sha384), (0x000D#16, .sha512), (0x0012#16, .sm3)]

/-- The state after `raise UnsupportedAlgorithm` (60_exceptions.md R200, R206), the slot unchanged. -/
def State.unsupported (s : State) : State := s.complete (.error .unsupportedAlgorithm s.ctx)

end Sys2Proof.Machine
end

