-- ==== Sys2Proof/Certificates/Slice0/Obligations.lean ====
section
/-! DEFINITION. The statements about the RSAPAD model, for the provers. `s.complete c` is the state in which a command
with outcome `c` leaves the block: CompletionWritesOutcome says every field of it. -/

open Sys2Proof Sys2Proof.Machine

/-! ## The command word -/

/-- Decoding the word of a command gives the command back, whatever its fields (30_encoding.md R70, R74, R75, R82). -/
def Obligations.DecodeOfEncode : Prop := ∀ i : Instr, decode (encode i) = .ok i

/-- A legal word is the word of the command it decodes to: no two words have one meaning, no bit is ignored
(30_encoding.md R75, R79). -/
def Obligations.EncodeOfDecode : Prop := ∀ (w : Word) (i : Instr), decode w = .ok i → encode i = w

/-- 30_encoding.md R75: decoding is the same as finding the unique row with `w AND mask = match`, and running it with the
word's ALG field and flags; if none, the word is illegal. -/
def Obligations.DecodeFindsTheUniqueRow : Prop :=
  (∀ (w : Word) (m : Mnemonic), w &&& m.mask = m.pattern ↔
    decode w = .ok (m.instr (w.extractLsb' 16 16) (w.getLsbD 8) (w.getLsbD 9))) ∧
  (∀ (w : Word) (m n : Mnemonic), w &&& m.mask = m.pattern → w &&& n.mask = n.pattern → m = n) ∧
  (∀ w : Word, (∃ e, decode w = .error e) ↔ ∀ m : Mnemonic, w &&& m.mask ≠ m.pattern)

/-- 30_encoding.md R79 (a) to (d): exactly these words are illegal. -/
def Obligations.IllegalWordsAreTheFourCases : Prop :=
  ∀ w : Word,
    (∃ e, decode w = .error e) ↔
      (∀ m : Mnemonic, m.opc ≠ opcField w) ∨
      w.extractLsb' 10 6 ≠ 0#6 ∨
      (∃ m : Mnemonic, m.opc = opcField w ∧
        ((w.getLsbD 8 = true ∧ m ≠ .ctxnew) ∨
         (w.getLsbD 9 = true ∧ m ≠ .ctxnew ∧ m ≠ .symenc ∧ m ≠ .symdec) ∨
         (m.format = .N ∧ algField w ≠ 0#16)))

/-- Every well-formed assembler command has a word `OPC | (RNDKEY << 8) | (IVSET << 9) | (ALG << 16)` that decodes to
its command (30_encoding.md R82). -/
def Obligations.AssemblerWordDecodes : Prop :=
  ∀ c : AsmCommand, c.wellFormed = true → ∃ i, c.instr? = some i ∧ decode (encodeAsm c) = .ok i ∧ i.asm = c

/-- The words the spec writes out (30_encoding.md R82; 95_test_vectors.md 2.10) mean what it says. -/
def Obligations.WrittenOutWordsDecode : Prop :=
  decode 0x00040010#32 = .ok (.mgf1 0x0004#16) ∧
  decode 0x000B0040#32 = .ok (.oaepenc 0x000B#16) ∧
  decode 0x00000370#32 = .ok (.ctxnew true true) ∧
  decode 0x00000273#32 = .ok (.symdec true) ∧
  decode 0x000B0074#32 = .ok (.deenv 0x000B#16) ∧
  decode 0x12340001#32 = .ok (.digsz 0x1234#16) ∧
  decode 0x000B0060#32 = .ok (.p15enc 0x000B#16) ∧
  decode 0x00000000#32 = .error .reservedOpcode ∧
  decode 0x00000470#32 = .error .reservedFlag ∧
  decode 0x00000172#32 = .error .flagNotAllowed ∧
  decode 0x00040021#32 = .error .algNotZero

/-! ## Sequencer, completion, reset -/

/-- A step takes the next event (00_scope.md R16, 10_state.md R33, R41, 20_memory.md R60). While SEQ = BUSY(w) and the
engine's step is next, it runs the command `w` decodes to, and nothing else is added (30_encoding.md R75); the engine's
step leaves an idle block as it is (70_reset_and_hazards.md R231); a host access has exactly the effect of R224's access
function, and its answer is recorded. The agenda, the rule that an empty one lets the engine step, and the record of the
answer are the model's choices (log entries 4 and 5). -/
def Obligations.StepRunsTheLatchedCommand : Prop :=
  ∀ (s : State) (rest : List Event),
    (∀ (w : Word) (i : Instr), s.seq = .busy w → decode w = .ok i →
      (s.agenda = [] → step s = exec i s) ∧
      (s.agenda = .engine :: rest → step s = exec i { s with agenda := rest })) ∧
    (s.seq = .idle →
      (s.agenda = [] → step s = .next s) ∧
      (s.agenda = .engine :: rest → step s = .next { s with agenda := rest })) ∧
    (∀ (a : Access) (t : State) (r : BusAnswer), s.agenda = .access a :: rest →
      State.hostAccess { s with agenda := rest } a = (t, r) → step s = .next { t with busAnswer := some r })

/-- 30_encoding.md R79: an illegal word is accepted and completes, at the engine's step, as an error completion with
ERRCODE 0x0B: outputs empty, RES 0, no input, no context and no parameter register changed. The two agendas on which the
engine's step is next, and the count of draws, are the model's (log entries 3 and 4). -/
def Obligations.IllegalWordCompletesAsIllegalCommand : Prop :=
  ∀ (s : State) (w : Word) (e : Illegal) (rest : List Event), s.seq = .busy w → decode w = .error e →
    (s.agenda = [] ∧ rest = []) ∨ s.agenda = .engine :: rest →
    ∃ t, step s = .next t ∧
      t.status = { done := true, err := true, ok := false, errcode := 0x0B#8, opc := s.status.opc } ∧
      t.seq = .idle ∧ t.ob0 = Buffer.empty ∧ t.ob1 = Buffer.empty ∧ t.res = 0 ∧
      (∀ k, t.ib k = s.ib k) ∧ t.ctx = s.ctx ∧ t.p0 = s.p0 ∧ t.p1 = s.p1 ∧ t.cmd = s.cmd ∧ t.inten = s.inten ∧
      t.drawCount = s.drawCount ∧ t.agenda = rest

/-- 10_state.md R40: an accepted write of `w` to CMD does exactly this and is answered OKAY, whatever `w` is. -/
def Obligations.CmdWriteStarts : Prop :=
  ∀ (s : State) (w : Word), s.seq = .idle →
    s.hostAccess (wr .cmd w) =
      ({ s with
          cmd := w
          status := { done := false, err := false, ok := false, errcode := 0, opc := w.extractLsb' 0 8 }
          seq := .busy w }, .okay)

/-- 10_state.md R41: what the engine step writes for each of the three outcomes, and the ERRCODE of every class
(60_exceptions.md R200, R206). -/
def Obligations.CompletionWritesOutcome : Prop :=
  ([ErrorClass.unsupportedAlgorithm, .lengthMismatch, .unsupportedOperation, .messageTooLong, .encodingError,
    .encodedMessageTooShort, .integrityCheckFailed, .malformedInput, .capacity, .noContext, .illegalCommand].map
      ErrorClass.code =
    [0x01#8, 0x02#8, 0x03#8, 0x04#8, 0x05#8, 0x06#8, 0x07#8, 0x08#8, 0x09#8, 0x0A#8, 0x0B#8]) ∧
  ∀ (s : State) (x y : Bytes) (r : Word) (c : CipherCtx) (e : ErrorClass),
    s.complete (.success x y r c) =
      { s with
        ob0 := Buffer.ofBytes x, ob1 := Buffer.ofBytes y, res := r, ctx := c
        status := { done := true, err := false, ok := true, errcode := 0, opc := s.status.opc }
        seq := .idle, loop := LoopEngine.cleared, transient := CipherCtx.released } ∧
    s.complete (.boolFalse c) =
      { s with
        ob0 := Buffer.empty, ob1 := Buffer.empty, res := 0, ctx := c
        status := { done := true, err := false, ok := false, errcode := 0, opc := s.status.opc }
        seq := .idle, loop := LoopEngine.cleared, transient := CipherCtx.released } ∧
    s.complete (.error e c) =
      { s with
        ob0 := Buffer.empty, ob1 := Buffer.empty, res := 0, ctx := c
        status := { done := true, err := true, ok := false, errcode := e.code, opc := s.status.opc }
        seq := .idle, loop := LoopEngine.cleared, transient := CipherCtx.released }

/-- An output buffer set to X holds exactly X: its value is X, its length len(X), and every byte at or beyond len is 0
(00_scope.md R11, 10_state.md R25). -/
def Obligations.OutputBufferHoldsExactlyTheResult : Prop :=
  ∀ x : Bytes, (Buffer.ofBytes x).value = x ∧ (Buffer.ofBytes x).len = x.length ∧ (Buffer.ofBytes x).mem.WF ∧
    ∀ o, (Buffer.ofBytes x).mem.read o = x.getD o 0#8

/-- Asserting reset in any state, also while a command runs, puts every element of the block at its reset value
(10_state.md R43; 70_reset_and_hazards.md R231, R232). That a reset falls between steps is the model's (log entry 16). -/
def Obligations.ResetClearsEverything : Prop :=
  ∀ (s : State) (rest : List Event), s.agenda = .reset :: rest →
    ∃ t, step s = .next t ∧
      t.p0 = 0 ∧ t.p1 = 0 ∧ (∀ k, t.ib k = Buffer.empty) ∧ (∀ k, t.ob k = Buffer.empty) ∧ t.cmd = 0 ∧
      t.statusReg = 0 ∧ t.inten = 0 ∧ t.res = 0 ∧ t.ctx.defn = 0 ∧ t.ctx.keyBits = 0 ∧ t.ctx.statWord = 0 ∧
      (∀ o, t.ctx.key.read o = 0) ∧ (∀ o, t.ctx.iv.read o = 0) ∧ t.seq = .idle ∧
      t.loop.ctr = 0 ∧ t.loop.acc = [] ∧ t.transient = CipherCtx.released ∧ t.irq = false ∧
      (∀ w o, t.windowByte w o = 0)

/-- In every state the step answers a next state: no command word, operand or access faults or is refused (48_laws.md
R225, 60_exceptions.md R206). That a running command always completes rests on the model's premise that the provider
answers every request (log entry 12, PRESUMED; else R240's BUSY for ever), and that there is a step on an empty agenda on
its agenda (log entry 4). -/
def Obligations.StepAlwaysAnswersNext : Prop := ∀ s : State, ∃ t, step s = .next t

/-- The invariant holds after reset. -/
def Obligations.ResetMeetsTheInvariant : Prop := State.reset.Inv

/-- Every step keeps the invariant: canonical storages inside BUFCAP, output buffers zero beyond len, STATUS and SEQ
consistent, INTEN's reserved bits zero, the slot released or live, loop engine and transient context cleared. -/
def Obligations.EveryStepKeepsTheInvariant : Prop := ∀ s t : State, s.Inv → step s = .next t → t.Inv

/-- 60_exceptions.md R211: irq is DONE AND DONE_IE; it is 0 after START, acknowledge and reset, and after a completion
it is the enable bit. -/
def Obligations.InterruptFollowsDone : Prop :=
  ∀ s : State,
    (s.irq = true ↔ s.status.done = true ∧ s.inten.getLsbD 0 = true) ∧
    (∀ w, (s.start w).irq = false) ∧ s.acknowledge.irq = false ∧ s.assertReset.irq = false ∧
    (∀ c, (s.complete c).irq = s.inten.getLsbD 0)

/-! ## Host accesses -/

/-- 20_memory.md R57: while BUSY a register read is served, and every write to sub-window 0 and every access to a
buffer sub-window is a bus error. -/
def Obligations.BusyRefusesAllButRegisterReads : Prop :=
  ∀ (s : State) (a : Access), s.busy = true →
    (∀ r : Reg, s.hostAccess (rd r) = (s, .okayData (s.readReg r))) ∧
    (a.kind = .write ∨ a.window ≠ 0 → s.hostAccess a = (s, .error))

/-- 20_memory.md R56: a bus error has no effect on any state. -/
def Obligations.BusErrorChangesNothing : Prop :=
  ∀ (s : State) (a : Access), (s.hostAccess a).2 = .error → (s.hostAccess a).1 = s

/-- 20_memory.md R58: no read has a side effect. -/
def Obligations.ReadsHaveNoSideEffect : Prop :=
  ∀ (s : State) (a : Access), a.kind = .read → (s.hostAccess a).1 = s

/-- Every register reads at its offset, STATUS and CTX_STAT as the sums the spec writes; every other offset, every other
size, the whole of sub-window 7, and every write to a read-only register or an output buffer is answered ERROR
(10_state.md R27, R30, R32; 20_memory.md R50, R51, R55, R56 (3)). -/
def Obligations.RegisterMapIsR32 : Prop :=
  (∀ (s : State) (p : Nat × Word),
    p ∈ [(0x000, 0x52504144#32), (0x004, 0x00010000#32), (0x008, BitVec.ofNat 32 (s.cfg.bufcap % 2 ^ 20 + 0x02400000)),
         (0x00C, s.cmd), (0x010, s.statusReg), (0x014, s.inten), (0x018, s.res), (0x020, s.p0), (0x024, s.p1)] ++
        [(0x040, BitVec.ofNat 32 s.ib0.len), (0x044, BitVec.ofNat 32 s.ib1.len), (0x048, BitVec.ofNat 32 s.ib2.len),
         (0x04C, BitVec.ofNat 32 s.ib3.len), (0x050, BitVec.ofNat 32 s.ob0.len), (0x054, BitVec.ofNat 32 s.ob1.len),
         (0x060, s.ctx.defn), (0x064, s.ctx.keyBits), (0x068, s.ctx.statWord)] →
    s.hostAccess ⟨.read, BitVec.ofNat 19 p.1, 4, 0⟩ = (s, .okayData p.2)) ∧
  (∀ (s : State) (a : Access), a.window = 0 →
    a.size ≠ 4 ∨ a.inner ∉ [0x000, 0x004, 0x008, 0x00C, 0x010, 0x014, 0x018, 0x020, 0x024, 0x040, 0x044, 0x048, 0x04C,
      0x050, 0x054, 0x060, 0x064, 0x068] → s.hostAccess a = (s, .error)) ∧
  (∀ (s : State) (a : Access), a.window = 7 → s.hostAccess a = (s, .error)) ∧
  (∀ (s : State) (a : Access), a.kind = .write →
    a.window = 5 ∨ a.window = 6 ∨
      (a.window = 0 ∧ a.inner ∈ [0x000, 0x004, 0x008, 0x018, 0x050, 0x054, 0x060, 0x064, 0x068]) →
    s.hostAccess a = (s, .error)) ∧
  (∀ s : State,
    s.statusReg.toNat = s.busy.toNat + 2 * s.status.done.toNat + 4 * s.status.err.toNat + 8 * s.status.ok.toNat +
      256 * s.status.errcode.toNat + 65536 * s.status.opc.toNat ∧
    s.ctx.statWord.toNat = s.ctx.valid.toNat + 256 * s.ctx.blk.toNat)

/-- What a register write leaves, while idle (10_state.md R24, R27, R28; 60_exceptions.md R209; 48_laws.md R224): P0, P1
take the data, INTEN its bit 0, IBk_LEN a length up to BUFCAP and nothing else, STATUS only clears DONE on bit 1. -/
def Obligations.RegisterWritesStore : Prop :=
  ∀ (s : State) (v : Word) (k : Fin 4), s.seq = .idle →
    s.hostAccess (wr .p0 v) = ({ s with p0 := v }, .okay) ∧
    s.hostAccess (wr .p1 v) = ({ s with p1 := v }, .okay) ∧
    s.hostAccess (wr .inten v) = ({ s with inten := v &&& 1#32 }, .okay) ∧
    (v.toNat ≤ s.cfg.bufcap →
      s.hostAccess (wr (.ibLen k) v) = (s.setIb k { mem := (s.ib k).mem, len := v.toNat }, .okay)) ∧
    (s.cfg.bufcap < v.toNat → s.hostAccess (wr (.ibLen k) v) = (s, .error)) ∧
    (v.getLsbD 1 = true →
      s.hostAccess (wr .status v) = ({ s with status := { s.status with done := false } }, .okay)) ∧
    (v.getLsbD 1 = false → s.hostAccess (wr .status v) = (s, .okay))

/-- A write to an input buffer's window (20_memory.md R52, R54; 10_state.md R24; 48_laws.md R224): admitted exactly when
idle, of size 1, 2 or 4, aligned and inside BUFCAP; byte i of the data lands at offset o + i, every other byte of every
sub-window, and every length and register, stays. -/
def Obligations.BufferWriteStoresItsBytes : Prop :=
  ∀ (s : State) (a : Access) (k : Fin 4), s.Inv → a.kind = .write → a.window = k.val + 1 →
    ((s.seq = .idle ∧ (a.size = 1 ∨ a.size = 2 ∨ a.size = 4) ∧ a.inner % a.size = 0 ∧
        a.inner + a.size ≤ s.cfg.bufcap) →
      ∃ t, s.hostAccess a = (t, .okay) ∧
        t = s.setIb k { mem := (t.ib k).mem, len := (s.ib k).len } ∧ (t.ib k).mem.WF ∧
        ∀ w o, t.windowByte w o =
          if w = k.val + 1 ∧ a.inner ≤ o ∧ o < a.inner + a.size then
            BitVec.ofNat 8 (a.data.toNat / 256 ^ (o - a.inner))
          else s.windowByte w o) ∧
    (¬ (s.seq = .idle ∧ (a.size = 1 ∨ a.size = 2 ∨ a.size = 4) ∧ a.inner % a.size = 0 ∧
        a.inner + a.size ≤ s.cfg.bufcap) → s.hostAccess a = (s, .error))

/-- A read of a buffer's window (20_memory.md R52, R54, R55, R56, R57, R66; 48_laws.md R224): while idle, of size 1, 2 or
4, aligned and inside BUFCAP, it gives the stored bytes in little-endian lanes, also beyond `len`; every other read is
answered ERROR; neither changes anything. -/
def Obligations.BufferReadGivesStoredBytes : Prop :=
  ∀ (s : State) (a : Access), a.kind = .read → 1 ≤ a.window → a.window ≤ 6 →
    (s.seq = .idle → a.inner % a.size = 0 → a.inner + a.size ≤ s.cfg.bufcap →
      (a.size = 1 → s.hostAccess a = (s, .okayData (0#24 ++ s.windowByte a.window a.inner))) ∧
      (a.size = 2 → s.hostAccess a =
        (s, .okayData (0#16 ++ s.windowByte a.window (a.inner + 1) ++ s.windowByte a.window a.inner))) ∧
      (a.size = 4 → s.hostAccess a =
        (s, .okayData (s.windowByte a.window (a.inner + 3) ++ s.windowByte a.window (a.inner + 2) ++
          s.windowByte a.window (a.inner + 1) ++ s.windowByte a.window a.inner)))) ∧
    (¬ (s.seq = .idle ∧ (a.size = 1 ∨ a.size = 2 ∨ a.size = 4) ∧ a.inner % a.size = 0 ∧
        a.inner + a.size ≤ s.cfg.bufcap) → s.hostAccess a = (s, .error))

/-- 60_exceptions.md R214, 10_state.md R30, R34, R35: no host access tells apart two states that differ only in the KEY
and IV stores, the loop engine and the transient context. -/
def Obligations.HiddenStoresAreNotReadable : Prop :=
  ∀ (s t : State) (a : Access), s.SameVisible t →
    (s.hostAccess a).2 = (t.hostAccess a).2 ∧ (s.hostAccess a).1.SameVisible (t.hostAccess a).1

/-! ## Catalog -/

/-- 40_catalog.md R92: DIGSZ answers the digest size in RES, 0 for NONE, and raises UnsupportedAlgorithm for every
identifier outside the closed set. -/
def Obligations.DigszAnswersDigestSize : Prop :=
  ∀ s : State,
    (∀ p ∈ [(0x0004#16, 20#32), (0x000B#16, 32#32), (0x000C#16, 48#32), (0x000D#16, 64#32), (0x0012#16, 32#32),
        (0x0010#16, 0#32)],
      exec (.digsz p.1) s = .next (s.complete (.success [] [] p.2 s.ctx))) ∧
    (∀ alg ∉ [0x0004#16, 0x000B#16, 0x000C#16, 0x000D#16, 0x0012#16, 0x0010#16],
      exec (.digsz alg) s = .next (s.complete (.error .unsupportedAlgorithm s.ctx)))

/-- 40_catalog.md R93: BLKSZ answers the block size in RES, 0 for NONE, and raises UnsupportedAlgorithm for every
identifier outside the closed set. -/
def Obligations.BlkszAnswersBlockSize : Prop :=
  ∀ s : State,
    (∀ p ∈ [(0x0004#16, 64#32), (0x000B#16, 64#32), (0x000C#16, 128#32), (0x000D#16, 128#32), (0x0012#16, 64#32),
        (0x0010#16, 0#32)],
      exec (.blksz p.1) s = .next (s.complete (.success [] [] p.2 s.ctx))) ∧
    (∀ alg ∉ [0x0004#16, 0x000B#16, 0x000C#16, 0x000D#16, 0x0012#16, 0x0010#16],
      exec (.blksz alg) s = .next (s.complete (.error .unsupportedAlgorithm s.ctx)))

/-- 40_catalog.md R95: ISHASH is total: RES 1 for the five real hashes, 0 for NONE and every other identifier, never an
error. -/
def Obligations.IshashIsTotal : Prop :=
  ∀ (s : State) (alg : Half),
    exec (.ishash alg) s = .next (s.complete (.success [] []
      (if alg ∈ [0x0004#16, 0x000B#16, 0x000C#16, 0x000D#16, 0x0012#16] then 1#32 else 0#32) s.ctx))

/-! ## MGF1 -/

/-- 41_mgf1.md R102 with R100: UnsupportedAlgorithm unless ALG is a real hash; then Capacity when the mask does not fit;
else OB0 is the first P0 bytes of the digests of seed ‖ BE32(j), j = 0, 1, …. -/
def Obligations.Mgf1GivesTheMask : Prop :=
  ∀ (s : State) (alg : Half),
    (alg ∉ hashTable.map Prod.fst → exec (.mgf1 alg) s = .next s.unsupported) ∧
    (∀ h, (alg, h) ∈ hashTable →
      (s.p0.toNat ≤ s.cfg.bufcap →
        exec (.mgf1 alg) s = .next (s.complete (.success
          (((List.range (ceilDiv s.p0.toNat (digestSize h))).flatMap fun j =>
              providerHash s.cfg h (s.ib0.value ++ be32 j)).take s.p0.toNat) [] 0 s.ctx))) ∧
      (s.cfg.bufcap < s.p0.toNat → exec (.mgf1 alg) s = .next (s.complete (.error .capacity s.ctx))))

/-- The controller of 41_mgf1.md R101 ends with CTR = ceil(L / hLen) (R222), and ACC is the concatenation of the first CTR
digests of seed ‖ BE32(j), so that len(ACC) = CTR * hLen, for every length a buffer can hold. -/
def Obligations.Mgf1ControllerCounts : Prop :=
  ∀ (cfg : Config) (h : RealHash) (seed : Bytes) (len : Nat), len ≤ 65536 →
    (mgf1Controller cfg h seed len).ctr.toNat = ceilDiv len (digestSize h) ∧
    (mgf1Controller cfg h seed len).acc =
      ((List.range (ceilDiv len (digestSize h))).flatMap fun j => providerHash cfg h (seed ++ be32 j)) ∧
    (mgf1Controller cfg h seed len).acc.length = ceilDiv len (digestSize h) * digestSize h ∧
    ceilDiv len (digestSize h) ≤ 3277

/-- 41_mgf1.md R103 (a), (c): the mask has the length asked for, and a shorter mask is a prefix of a longer one. -/
def Obligations.Mgf1PrefixProperty : Prop :=
  ∀ (cfg : Config) (h : RealHash) (seed : Bytes) (l1 l2 : Nat), l1 ≤ l2 →
    (mgf1 cfg h seed l2).length = l2 ∧ mgf1 cfg h seed l1 = (mgf1 cfg h seed l2).take l1

/-! ## KDFa and Split -/

/-- 42_kdfa.md R114 with R110: UnsupportedAlgorithm, then Capacity, else the counter starts at 1 and comes first, one 00
follows the label, the bit count comes last; the stream is shifted right by the excess bits and delivered in
ceil(P0/8) bytes. -/
def Obligations.KdfaGivesTheShiftedStream : Prop :=
  ∀ (s : State) (alg : Half),
    (alg ∉ hashTable.map Prod.fst → exec (.kdfa alg) s = .next s.unsupported) ∧
    (∀ (h : RealHash) (numLoops m : Nat), (alg, h) ∈ hashTable →
      numLoops = ceilDiv s.p0.toNat (digestSize h * 8) → m = ceilDiv s.p0.toNat 8 →
      (m ≤ s.cfg.bufcap →
        exec (.kdfa alg) s = .next (s.complete (.success
          (bytesN m (intOf ((List.range numLoops).flatMap fun j =>
              providerHmac s.cfg h s.ib0.value
                (be32 (j + 1) ++ s.ib1.value ++ [0x00#8] ++ s.ib2.value ++ s.ib3.value ++ be32 s.p0.toNat)) >>>
            (numLoops * digestSize h * 8 - s.p0.toNat))) [] 0 s.ctx))) ∧
      (s.cfg.bufcap < m → exec (.kdfa alg) s = .next (s.complete (.error .capacity s.ctx))))

/-- 42_kdfa.md R117 (a), R112: the result has ceil(n/8) bytes and is below 2^n; for n a multiple of 8 it is the first
n/8 bytes of the stream. -/
def Obligations.KdfaLengthInBits : Prop :=
  ∀ (cfg : Config) (h : RealHash) (key label u v : Bytes) (n : Nat),
    (kdfa cfg h key label u v n).length = ceilDiv n 8 ∧ intOf (kdfa cfg h key label u v n) < 2 ^ n ∧
    (n % 8 = 0 → kdfa cfg h key label u v n = (kdfaController cfg h key label u v n).acc.take (n / 8))

/-- 42_kdfa.md R116 with R115: OB0 is the first P0/8 bytes of IB0 and OB1 the next P1/8; UnsupportedOperation first,
then MalformedInput when the pieces do not fit. -/
def Obligations.SplitCutsTheBuffer : Prop :=
  ∀ s : State,
    (s.p0.toNat % 8 = 0 → s.p1.toNat % 8 = 0 → s.p0.toNat / 8 + s.p1.toNat / 8 ≤ s.ib0.len →
      exec .split s = .next (s.complete (.success (s.ib0.value.take (s.p0.toNat / 8))
        ((s.ib0.value.drop (s.p0.toNat / 8)).take (s.p1.toNat / 8)) 0 s.ctx))) ∧
    (s.p0.toNat % 8 ≠ 0 ∨ s.p1.toNat % 8 ≠ 0 →
      exec .split s = .next (s.complete (.error .unsupportedOperation s.ctx))) ∧
    (s.p0.toNat % 8 = 0 → s.p1.toNat % 8 = 0 → s.ib0.len < s.p0.toNat / 8 + s.p1.toNat / 8 →
      exec .split s = .next (s.complete (.error .malformedInput s.ctx)))

/-! ## XOR engine -/

/-- 43_xor.md R128 with R125: equal lengths give r[i] = a[i] xor b[i] in OB0, unequal lengths LengthMismatch. -/
def Obligations.XorIsBytewise : Prop :=
  ∀ s : State,
    (s.ib0.len = s.ib1.len → ∃ r : Bytes,
      exec .xor s = .next (s.complete (.success r [] 0 s.ctx)) ∧ r.length = s.ib0.len ∧
      ∀ i < s.ib0.len, r.getD i 0 = s.ib0.mem.read i ^^^ s.ib1.mem.read i) ∧
    (s.ib0.len ≠ s.ib1.len → exec .xor s = .next (s.complete (.error .lengthMismatch s.ctx)))

/-- 43_xor.md R129 with R126: the first min(len(a), len(b)) bytes of each operand, and no error. -/
def Obligations.XorpTruncates : Prop :=
  ∀ s : State, ∃ r : Bytes,
    exec .xorp s = .next (s.complete (.success r [] 0 s.ctx)) ∧ r.length = min s.ib0.len s.ib1.len ∧
    ∀ i < min s.ib0.len s.ib1.len, r.getD i 0 = s.ib0.mem.read i ^^^ s.ib1.mem.read i

/-- 43_xor.md R130 with R127: UnsupportedAlgorithm unless ALG is a real hash, also for empty data; then it cannot fail:
the data masked with KDFa under the label 58 4f 52, keyed by IB0, over 8 * len bits, all of it. -/
def Obligations.KdfxorMasksTheData : Prop :=
  ∀ (s : State) (alg : Half),
    (alg ∉ hashTable.map Prod.fst → exec (.kdfxor alg) s = .next s.unsupported) ∧
    (∀ (h : RealHash) (mask : Bytes), (alg, h) ∈ hashTable →
      mask = kdfa s.cfg h s.ib0.value [0x58#8, 0x4f#8, 0x52#8] s.ib2.value s.ib3.value (8 * s.ib1.len) →
      mask.length = s.ib1.len ∧
      exec (.kdfxor alg) s = .next (s.complete (.success (xorBytes s.ib1.value mask) [] 0 s.ctx)))

/-- 43_xor.md R131 (b): KDFXOR applied again, to its own result in IB1, gives the data back in OB0. -/
def Obligations.KdfxorIsItsOwnInverse : Prop :=
  ∀ (s t u : State) (alg : Half), alg ∈ hashTable.map Prod.fst →
    exec (.kdfxor alg) s = .next t → exec (.kdfxor alg) { t with ib1 := t.ob0 } = .next u → u.ob0.value = s.ib1.value

/-! ## OAEP -/

/-- 44_oaep.md R137 with R136: the checks in order over the integers, then one draw of hLen bytes and OB0 =
maskedSeed ‖ maskedDB; an error makes no draw. The draw is a free value; its name and its count are the model's choice (log
entry 3). -/
def Obligations.OaepencEncodes : Prop :=
  ∀ (s : State) (alg : Half),
    (alg ∉ hashTable.map Prod.fst → exec (.oaepenc alg) s = .next s.unsupported) ∧
    (∀ (h : RealHash) (psLen : Nat) (db seed maskedDb : Bytes), (alg, h) ∈ hashTable →
      ((s.ib0.len : Int) ≤ (s.p0.toNat : Int) - 1 - 2 * digestSize h - 1 → s.p0.toNat - 1 ≤ s.cfg.bufcap →
        psLen + s.ib0.len + 2 * digestSize h + 2 = s.p0.toNat →
        db = providerHash s.cfg h s.ib1.value ++ zeros psLen ++ [0x01#8] ++ s.ib0.value →
        seed = s.drawn (digestSize h) →
        maskedDb = xorBytes db (mgf1 s.cfg h seed (s.p0.toNat - 1 - digestSize h)) →
        exec (.oaepenc alg) s = .next ({ s with drawCount := s.drawCount + 1 }.complete (.success
          (xorBytes seed (mgf1 s.cfg h maskedDb (digestSize h)) ++ maskedDb) [] 0 s.ctx))) ∧
      ((s.p0.toNat : Int) - 1 - 2 * digestSize h - 1 < (s.ib0.len : Int) →
        exec (.oaepenc alg) s = .next (s.complete (.error .messageTooLong s.ctx))) ∧
      ((s.ib0.len : Int) ≤ (s.p0.toNat : Int) - 1 - 2 * digestSize h - 1 → s.cfg.bufcap < s.p0.toNat - 1 →
        exec (.oaepenc alg) s = .next (s.complete (.error .capacity s.ctx))))

/-- 44_oaep.md R141: UnsupportedAlgorithm unless ALG is a real hash; then never an error: the message when the decode
succeeds, BoolFalse when it fails. What the decode is, OaepDecodeAcceptsExactly says (R139). -/
def Obligations.OaepdecDecodes : Prop :=
  ∀ (s : State) (alg : Half),
    (alg ∉ hashTable.map Prod.fst → exec (.oaepdec alg) s = .next s.unsupported) ∧
    (∀ h, (alg, h) ∈ hashTable →
      (∀ m, oaepDecode s.cfg h s.ib0.value s.ib1.value = some m →
        exec (.oaepdec alg) s = .next (s.complete (.success m [] 0 s.ctx))) ∧
      (oaepDecode s.cfg h s.ib0.value s.ib1.value = none →
        exec (.oaepdec alg) s = .next (s.complete (.boolFalse s.ctx))))

/-- What the OAEP decoder accepts (44_oaep.md R139, R142): exactly an input of at least 2*hLen + 1 bytes that unmasks, the
seed first and from maskedDB, to pHash ‖ zeros ‖ 01 ‖ message, with any run of zeros and the separator anywhere after
pHash, the last byte included. -/
def Obligations.OaepDecodeAcceptsExactly : Prop :=
  ∀ (cfg : Config) (h : RealHash) (em params m seed db : Bytes),
    seed = xorBytes (em.take (digestSize h)) (mgf1 cfg h (em.drop (digestSize h)) (digestSize h)) →
    db = xorBytes (em.drop (digestSize h)) (mgf1 cfg h seed (em.length - digestSize h)) →
    (oaepDecode cfg h em params = some m ↔
      2 * digestSize h + 1 ≤ em.length ∧ ∃ n, db = providerHash cfg h params ++ zeros n ++ [0x01#8] ++ m)

/-- 44_oaep.md R143 (a): the round trip, for every hash, seed, parameters and message within the bound. -/
def Obligations.OaepRoundTrip : Prop :=
  ∀ (cfg : Config) (h : RealHash) (message params seed : Bytes) (modulusBytes : Nat),
    seed.length = digestSize h → message.length + 2 * digestSize h + 2 ≤ modulusBytes →
    (oaepEncode cfg h message params modulusBytes seed).length = modulusBytes - 1 ∧
    oaepDecode cfg h (oaepEncode cfg h message params modulusBytes seed) params = some message

/-- 44_oaep.md R140: whatever makes the decode fail, what the host can see afterwards is the same. -/
def Obligations.OaepdecFailuresLookAlike : Prop :=
  ∀ (s t : State) (alg : Half) (h : RealHash), (alg, h) ∈ hashTable →
    t = { s with ib0 := t.ib0, ib1 := t.ib1 } →
    oaepDecode s.cfg h s.ib0.value s.ib1.value = none → oaepDecode t.cfg h t.ib0.value t.ib1.value = none →
    ∃ s' t', exec (.oaepdec alg) s = .next s' ∧ exec (.oaepdec alg) t = .next t' ∧
      { s' with ib0 := t'.ib0, ib1 := t'.ib1 } = t' ∧
      s'.status = { done := true, err := false, ok := false, errcode := 0, opc := s.status.opc } ∧
      s'.ob0 = Buffer.empty ∧ s'.res = 0

/-! ## PSS -/

/-- 45_pss.md R151 with R150: the checks in order, then one draw of saltLen bytes and OB0 = maskedDB ‖ h ‖ bc with the
top 8*emLen - emBits bits cleared; an error makes no draw. The draw is a free value; its name and its count are the
model's choice (log entry 3). -/
def Obligations.PssencEncodes : Prop :=
  ∀ (s : State) (alg : Half),
    (alg ∉ hashTable.map Prod.fst → exec (.pssenc alg) s = .next s.unsupported) ∧
    (∀ (h : RealHash) (emLen z : Nat) (salt hh : Bytes), (alg, h) ∈ hashTable → emLen = ceilDiv s.p1.toNat 8 →
      (emLen ≤ s.cfg.bufcap → z + s.p0.toNat + digestSize h + 2 = emLen → salt = s.drawn s.p0.toNat →
        hh = providerHash s.cfg h (zeros 8 ++ providerHash s.cfg h s.ib0.value ++ salt) →
        exec (.pssenc alg) s = .next ({ s with drawCount := s.drawCount + 1 }.complete (.success
          (andFirst (0xFF#8 >>> (8 * emLen - s.p1.toNat))
              (xorBytes (zeros z ++ [0x01#8] ++ salt) (mgf1 s.cfg h hh (emLen - digestSize h - 1))) ++ hh ++ [0xbc#8])
          [] 0 s.ctx))) ∧
      (emLen < digestSize h + s.p0.toNat + 2 →
        exec (.pssenc alg) s = .next (s.complete (.error .encodingError s.ctx))) ∧
      (digestSize h + s.p0.toNat + 2 ≤ emLen → s.cfg.bufcap < emLen →
        exec (.pssenc alg) s = .next (s.complete (.error .capacity s.ctx))))

/-- 45_pss.md R154, R155: UnsupportedAlgorithm unless ALG is a real hash; then PSSVFY never ends in an error: OK is the
verification result, and nothing else distinguishes the failing checks. -/
def Obligations.PssvfyNeverErrs : Prop :=
  ∀ (s : State) (alg : Half),
    (alg ∉ hashTable.map Prod.fst → exec (.pssvfy alg) s = .next s.unsupported) ∧
    (∀ h, (alg, h) ∈ hashTable →
      (pssVerify s.cfg h s.ib0.value s.ib1.value s.p0.toNat s.p1.toNat = true →
        exec (.pssvfy alg) s = .next (s.complete (.success [] [] 0 s.ctx))) ∧
      (pssVerify s.cfg h s.ib0.value s.ib1.value s.p0.toNat s.p1.toNat = false →
        exec (.pssvfy alg) s = .next (s.complete (.boolFalse s.ctx))))

/-- What PSSVFY accepts (45_pss.md R153): exactly an encoded message of emLen bytes, emLen within the bound, that is
maskedDB ‖ h ‖ bc with the top t bits of maskedDB clear, where maskedDB unmasks (its first byte again cut to its low bits)
to zeros ‖ 01 ‖ salt with a salt of saltLen bytes whose hash is h. -/
def Obligations.PssVerifyAcceptsExactly : Prop :=
  ∀ (cfg : Config) (h : RealHash) (message em : Bytes) (saltLen emBits emLen : Nat) (lowBits : Byte),
    emLen = ceilDiv emBits 8 → lowBits = 0xFF#8 >>> (8 * emLen - emBits) →
    (pssVerify cfg h message em saltLen emBits = true ↔
      digestSize h + saltLen + 2 ≤ emLen ∧
      ∃ maskedDb hh salt : Bytes, em = maskedDb ++ hh ++ [0xbc#8] ∧ maskedDb.length = emLen - digestSize h - 1 ∧
        hh.length = digestSize h ∧ salt.length = saltLen ∧
        (∀ b ∈ maskedDb.head?, b &&& ~~~lowBits = 0#8) ∧
        andFirst lowBits (xorBytes maskedDb (mgf1 cfg h hh (emLen - digestSize h - 1))) =
          zeros (emLen - digestSize h - saltLen - 2) ++ [0x01#8] ++ salt ∧
        hh = providerHash cfg h (zeros 8 ++ providerHash cfg h message ++ salt))

/-- 45_pss.md R156 (a): the round trip, for every hash, message, salt and emBits within the bound. -/
def Obligations.PssRoundTrip : Prop :=
  ∀ (cfg : Config) (h : RealHash) (message salt : Bytes) (emBits : Nat),
    digestSize h + salt.length + 2 ≤ ceilDiv emBits 8 →
    (pssEncode cfg h message emBits salt).length = ceilDiv emBits 8 ∧
    pssVerify cfg h message (pssEncode cfg h message emBits salt) salt.length emBits = true

/-! ## PKCS#1 v1.5 -/

/-- 46_pkcs15.md R167 with R165, R166: UnsupportedAlgorithm for all but four identifiers, SM3-256 included; then
EncodedMessageTooShort, Capacity, or 00 ‖ 01 ‖ ff … ff ‖ 00 ‖ DigestInfo ‖ digest, P0 bytes in all, with at least 8 bytes
of ff. -/
def Obligations.P15encEncodes : Prop :=
  ∀ (s : State) (alg : Half),
    (alg ∉ [0x0004#16, 0x000B#16, 0x000C#16, 0x000D#16] → exec (.p15enc alg) s = .next s.unsupported) ∧
    (∀ (h : RealHash) (header : Bytes),
      (alg, h, header) ∈
        [(0x0004#16, RealHash.sha1, [0x30#8, 0x21#8, 0x30#8, 0x09#8, 0x06#8, 0x05#8, 0x2b#8, 0x0e#8, 0x03#8, 0x02#8,
            0x1a#8, 0x05#8, 0x00#8, 0x04#8, 0x14#8]),
         (0x000B#16, .sha256, [0x30#8, 0x31#8, 0x30#8, 0x0d#8, 0x06#8, 0x09#8, 0x60#8, 0x86#8, 0x48#8, 0x01#8, 0x65#8,
            0x03#8, 0x04#8, 0x02#8, 0x01#8, 0x05#8, 0x00#8, 0x04#8, 0x20#8]),
         (0x000C#16, .sha384, [0x30#8, 0x41#8, 0x30#8, 0x0d#8, 0x06#8, 0x09#8, 0x60#8, 0x86#8, 0x48#8, 0x01#8, 0x65#8,
            0x03#8, 0x04#8, 0x02#8, 0x02#8, 0x05#8, 0x00#8, 0x04#8, 0x30#8]),
         (0x000D#16, .sha512, [0x30#8, 0x51#8, 0x30#8, 0x0d#8, 0x06#8, 0x09#8, 0x60#8, 0x86#8, 0x48#8, 0x01#8, 0x65#8,
            0x03#8, 0x04#8, 0x02#8, 0x03#8, 0x05#8, 0x00#8, 0x04#8, 0x40#8])] →
      (∀ ps : Nat, 8 ≤ ps → ps + header.length + digestSize h + 3 = s.p0.toNat → s.p0.toNat ≤ s.cfg.bufcap →
        exec (.p15enc alg) s = .next (s.complete (.success
          ([0x00#8, 0x01#8] ++ rep 0xff#8 ps ++ [0x00#8] ++ header ++ providerHash s.cfg h s.ib0.value) [] 0 s.ctx))) ∧
      (s.p0.toNat < header.length + digestSize h + 11 →
        exec (.p15enc alg) s = .next (s.complete (.error .encodedMessageTooShort s.ctx))) ∧
      (header.length + digestSize h + 11 ≤ s.p0.toNat → s.cfg.bufcap < s.p0.toNat →
        exec (.p15enc alg) s = .next (s.complete (.error .capacity s.ctx))))

/-! ## Cipher context and envelope -/

/-- The default parameters (00_scope.md R7; 47_symenv.md R176, R185): BUFCAP 4096, the IV unchanged by a transform, and
the 15 triples of the table, AES with three key sizes in five modes, each with block size 16; a symDef word carries the
cipher in bits 15:0 and the mode in bits 31:16 (30_encoding.md R78). -/
def Obligations.DefaultCatalogIsTheTable : Prop :=
  Config.default.bufcap = 4096 ∧ Config.default.ivPolicy = .unchanged ∧ Config.default.WF ∧
  ∀ (symDef : Word) (keyBits : Nat),
    symBlock Config.default symDef keyBits =
      if symDef.extractLsb' 0 16 = 0x0006#16 ∧
          symDef.extractLsb' 16 16 ∈ [0x0040#16, 0x0041#16, 0x0042#16, 0x0043#16, 0x0044#16] ∧
          keyBits ∈ [128, 192, 256] then some 16
      else none

/-- 47_symenv.md R177: CTXNEW's checks in order; success writes the slot, with the key from IB0 or one draw of P1/8
bytes and the IV from IB1 or zeros; every error leaves the slot released (R178). The name of the drawn key and the count of
draws are the model's choice (log entry 3). -/
def Obligations.CtxnewMakesOrReleases : Prop :=
  ∀ (s : State) (rndkey ivset : Bool),
    (symBlock s.cfg s.p0 s.p1.toNat = none →
      exec (.ctxnew rndkey ivset) s = .next (s.complete (.error .unsupportedAlgorithm CipherCtx.released))) ∧
    (∀ bs, symBlock s.cfg s.p0 s.p1.toNat = some bs →
      (rndkey = false ∧ 8 * s.ib0.len ≠ s.p1.toNat ∨ ivset = true ∧ s.ib1.len ≠ bs →
        exec (.ctxnew rndkey ivset) s = .next (s.complete (.error .malformedInput CipherCtx.released))) ∧
      ((rndkey = false → 8 * s.ib0.len = s.p1.toNat) → (ivset = true → s.ib1.len = bs) →
        exec (.ctxnew rndkey ivset) s =
          .next ({ s with drawCount := s.drawCount + rndkey.toNat }.complete (.success [] [] 0
            { defn := s.p0
              keyBits := s.p1
              valid := true
              blk := BitVec.ofNat 8 bs
              key := Memory.ofBytes (if rndkey then s.drawn (s.p1.toNat / 8) else s.ib0.value)
              iv := Memory.ofBytes (if ivset then s.ib1.value else zeros bs) }))))

/-- 47_symenv.md R180: CTXREL always succeeds and leaves every element of the slot zero. -/
def Obligations.CtxrelReleases : Prop :=
  ∀ s : State, exec .ctxrel s = .next (s.complete (.success [] [] 0
    { defn := 0, keyBits := 0, valid := false, blk := 0, key := [], iv := [] }))

/-- 47_symenv.md R182, R183 with R181, R184: NoContext, then MalformedInput, both with the slot unchanged; empty data
makes no provider call and gives an empty result; other data is padded with zeros to a multiple of the block size, handed
to the provider once, and the result cut back to the data's length. The slot's IV becomes what IvUpdate gives, nothing
else of it changes, and with the default IvUpdate it becomes the IV that was used. -/
def Obligations.SymencSymdecTransform : Prop :=
  ∀ (s : State) (ivset : Bool) (dir : Dir) (i : Instr) (iv0 : Bytes),
    (dir, i) ∈ [(Dir.enc, Instr.symenc ivset), (.dec, .symdec ivset)] →
    iv0 = (if ivset then s.ib1.value else s.ctx.iv.bytes s.ctx.blk.toNat) →
    (s.ctx.valid = false → exec i s = .next (s.complete (.error .noContext s.ctx))) ∧
    (s.ctx.valid = true → ivset = true → s.ib1.len ≠ s.ctx.blk.toNat →
      exec i s = .next (s.complete (.error .malformedInput s.ctx))) ∧
    (s.ctx.valid = true → (ivset = true → s.ib1.len = s.ctx.blk.toNat) →
      (s.ib0.len = 0 →
        exec i s = .next (s.complete (.success [] [] 0
          { s.ctx with iv := Memory.ofBytes (ivUpdate s.cfg dir s.ctx iv0 [] []) }))) ∧
      (∀ (pad : Nat) (x y : Bytes), s.ib0.len ≠ 0 → pad < s.ctx.blk.toNat →
        (s.ib0.len + pad) % s.ctx.blk.toNat = 0 → x = s.ib0.value ++ zeros pad →
        y = providerCipher s.cfg dir (s.ctx.defn.extractLsb' 0 16) (s.ctx.defn.extractLsb' 16 16)
          (s.ctx.key.bytes (s.ctx.keyBits.toNat / 8)) iv0 x →
        exec i s = .next (s.complete (.success (y.take s.ib0.len) [] 0
          { s.ctx with iv := Memory.ofBytes (ivUpdate s.cfg dir s.ctx iv0 x y) })))) ∧
    (s.cfg.ivPolicy = .unchanged → ∀ x y, ivUpdate s.cfg dir s.ctx iv0 x y = iv0)

/-- 47_symenv.md R198, the first half: when the decrypted blob is the tag BE16(hLen) ‖ H(payload ‖ name) followed by the
payload BE16(Ls) ‖ sensitive bytes (R188), DEENV delivers exactly the sensitive bytes. -/
def Obligations.DeenvRecoversTheSecret : Prop :=
  ∀ (s : State) (alg : Half) (h : RealHash) (bs : Nat) (secret payload : Bytes), (alg, h) ∈ hashTable →
    symBlock s.cfg s.p0 s.p1.toNat = some bs → 8 * s.ib1.len = s.p1.toNat → secret.length < 65536 →
    payload = be16 secret.length ++ secret →
    (symTransform s.cfg .dec (CipherCtx.make s.p0 s.p1 bs s.ib1.value (zeros bs)) s.ib0.value (zeros bs)).1 =
      be16 (digestSize h) ++ providerHash s.cfg h (payload ++ s.ib2.value) ++ payload →
    exec (.deenv alg) s = .next (s.complete (.success secret [] 0 s.ctx))

/-- 47_symenv.md R191 with R190, R192, R195: the blob decrypted under the transient context (key IB1, IV zero); the errors
in the order they are tested: hash, cipher triple, key length, inner object too short, any difference in the whole tag,
the payload's prefix; else the payload without its prefix. The slot is untouched, and an error delivers no byte. -/
def Obligations.DeenvFollowsItsSteps : Prop :=
  ∀ (s : State) (alg : Half),
    (alg ∉ hashTable.map Prod.fst → exec (.deenv alg) s = .next s.unsupported) ∧
    (∀ h, (alg, h) ∈ hashTable →
      (symBlock s.cfg s.p0 s.p1.toNat = none → exec (.deenv alg) s = .next s.unsupported) ∧
      (∀ bs, symBlock s.cfg s.p0 s.p1.toNat = some bs →
        (8 * s.ib1.len ≠ s.p1.toNat → exec (.deenv alg) s = .next (s.complete (.error .malformedInput s.ctx))) ∧
        (8 * s.ib1.len = s.p1.toNat → ∀ inner payload tag : Bytes,
          inner = (symTransform s.cfg .dec (CipherCtx.make s.p0 s.p1 bs s.ib1.value (zeros bs)) s.ib0.value
            (zeros bs)).1 →
          payload = inner.drop (digestSize h + 2) →
          tag = be16 (digestSize h) ++ providerHash s.cfg h (payload ++ s.ib2.value) →
          (inner.length < digestSize h + 2 →
            exec (.deenv alg) s = .next (s.complete (.error .malformedInput s.ctx))) ∧
          (digestSize h + 2 ≤ inner.length → inner.take (digestSize h + 2) ≠ tag →
            exec (.deenv alg) s = .next (s.complete (.error .integrityCheckFailed s.ctx))) ∧
          (digestSize h + 2 ≤ inner.length → inner.take (digestSize h + 2) = tag →
            payload.length < 2 ∨ intOf (payload.take 2) ≠ payload.length - 2 →
            exec (.deenv alg) s = .next (s.complete (.error .malformedInput s.ctx))) ∧
          (digestSize h + 2 ≤ inner.length → inner.take (digestSize h + 2) = tag →
            2 ≤ payload.length → intOf (payload.take 2) = payload.length - 2 →
            exec (.deenv alg) s = .next (s.complete (.success (payload.drop 2) [] 0 s.ctx))))))

/-- 47_symenv.md R197: CLRBUF zeroises all six buffers and succeeds; P0, P1, INTEN and the slot stay. So do the model's own
fields: the parameters, the count of draws, the agenda (log entries 1, 3 and 4). -/
def Obligations.ClrbufZeroisesBuffers : Prop :=
  ∀ s : State, ∃ t, exec .clrbuf s = .next t ∧
    (∀ k, t.ib k = { mem := [], len := 0 }) ∧ (∀ k, t.ob k = { mem := [], len := 0 }) ∧
    (∀ w o, t.windowByte w o = 0) ∧ t.res = 0 ∧
    t.status = { done := true, err := false, ok := true, errcode := 0, opc := s.status.opc } ∧
    t.p0 = s.p0 ∧ t.p1 = s.p1 ∧ t.inten = s.inten ∧ t.ctx = s.ctx ∧ t.cmd = s.cmd ∧ t.seq = .idle ∧
    t.drawCount = s.drawCount ∧ t.cfg = s.cfg ∧ t.agenda = s.agenda

/-! ## Frames and whole-machine rules -/

/-- 10_state.md R41, R21: no command changes P0, P1, CMD, INTEN or STATUS.OPC, and every command leaves the sequencer
idle, DONE set, the loop engine and the transient context cleared. The parameters, the agenda and the last bus answer,
which stay too, are the model's own fields (log entries 1, 4 and 5). -/
def Obligations.CommandsLeaveTheRegisters : Prop :=
  ∀ (i : Instr) (s t : State), exec i s = .next t →
    t.p0 = s.p0 ∧ t.p1 = s.p1 ∧ t.cmd = s.cmd ∧ t.inten = s.inten ∧ t.status.opc = s.status.opc ∧
    t.cfg = s.cfg ∧ t.agenda = s.agenda ∧ t.busAnswer = s.busAnswer ∧
    t.seq = .idle ∧ t.status.done = true ∧ t.loop = LoopEngine.cleared ∧ t.transient = CipherCtx.released

/-- 10_state.md R23, R41; 60_exceptions.md R208: every command but CLRBUF leaves the input buffers, every byte and
every length, as they were; a command stores only to the output buffers. -/
def Obligations.CommandsLeaveTheInputs : Prop :=
  ∀ (i : Instr) (s t : State), i ≠ .clrbuf → exec i s = .next t →
    (∀ k, t.ib k = s.ib k) ∧ ∀ w o, w ≠ 5 → w ≠ 6 → t.windowByte w o = s.windowByte w o

/-- 10_state.md R41; 47_symenv.md R179, R184: only CTXNEW, CTXREL, SYMENC and SYMDEC change the slot, and SYMENC and
SYMDEC change nothing of it but the IV. -/
def Obligations.ContextChangesOnlyByItsCommands : Prop :=
  ∀ (i : Instr) (s t : State), exec i s = .next t →
    ((∀ r v, i ≠ .ctxnew r v) → i ≠ .ctxrel → (∀ v, i ≠ .symenc v) → (∀ v, i ≠ .symdec v) → t.ctx = s.ctx) ∧
    (∀ v, i = .symenc v ∨ i = .symdec v → { t.ctx with iv := s.ctx.iv } = s.ctx)

/-- 60_exceptions.md R208; 70_reset_and_hazards.md R237: a draw is made only by OAEPENC, PSSENC and CTXNEW with RNDKEY,
at most one, and never by a command that ends in an error. Draws are counted by the model's own field (log entry 3). -/
def Obligations.DrawsOnlyOnSuccess : Prop :=
  ∀ (i : Instr) (s t : State), exec i s = .next t →
    t.drawCount = s.drawCount ∨
    (t.drawCount = s.drawCount + 1 ∧ t.status.err = false ∧ t.status.ok = true ∧
      ((∃ a, i = .oaepenc a) ∨ (∃ a, i = .pssenc a) ∨ ∃ v, i = .ctxnew true v))

/-- 60_exceptions.md R201: the complete set of outcomes of each command: which ERRCODE it can end with, and that only
OAEPDEC and PSSVFY can end with OK = 0 and ERR = 0. -/
def Obligations.OutcomesAreTheTableOfR201 : Prop :=
  ∀ (i : Instr) (s t : State), exec i s = .next t →
    (t.status.err = false ∧ t.status.ok = true ∧ t.status.errcode = 0) ∨
    (t.status.err = false ∧ t.status.ok = false ∧ t.status.errcode = 0 ∧
      ((∃ a, i = .oaepdec a) ∨ ∃ a, i = .pssvfy a)) ∨
    (t.status.err = true ∧ t.status.ok = false ∧
      ∃ codes : List Byte, t.status.errcode ∈ codes ∧
        (i.asm.mnemonic, codes) ∈
          [(Mnemonic.digsz, [0x01#8]), (.blksz, [0x01#8]), (.mgf1, [0x01#8, 0x09#8]), (.kdfa, [0x01#8, 0x09#8]),
           (.split, [0x03#8, 0x08#8]), (.xor, [0x02#8]), (.kdfxor, [0x01#8]), (.oaepenc, [0x01#8, 0x04#8, 0x09#8]),
           (.oaepdec, [0x01#8]), (.pssenc, [0x01#8, 0x05#8, 0x09#8]), (.pssvfy, [0x01#8]),
           (.p15enc, [0x01#8, 0x06#8, 0x09#8]), (.ctxnew, [0x01#8, 0x08#8]), (.symenc, [0x0A#8, 0x08#8]),
           (.symdec, [0x0A#8, 0x08#8]), (.deenv, [0x01#8, 0x08#8, 0x07#8])])

/-- 10_state.md R22, R23, R38; 48_laws.md R225: what a command leaves depends on the operands R22 lists for it and on
nothing else: not on another operand, not on bytes beyond a buffer's length, not on a flag or a result of an earlier
command. A draw (70_reset_and_hazards.md R237) is the model's counted draw, so the two states agree on the count of draws
(log entry 3, the model's choice). -/
def Obligations.CommandsDependOnlyOnTheirOperands : Prop :=
  ∀ (i : Instr) (s t s' t' : State) (p0 p1 b0 b1 b2 b3 slot : Bool),
    (i.asm.mnemonic, p0, p1, b0, b1, b2, b3, slot) ∈
      [(Mnemonic.digsz, false, false, false, false, false, false, false),
       (.blksz, false, false, false, false, false, false, false),
       (.ishash, false, false, false, false, false, false, false),
       (.mgf1, true, false, true, false, false, false, false),
       (.kdfa, true, false, true, true, true, true, false),
       (.split, true, true, true, false, false, false, false),
       (.xor, false, false, true, true, false, false, false),
       (.xorp, false, false, true, true, false, false, false),
       (.kdfxor, false, false, true, true, true, true, false),
       (.oaepenc, true, false, true, true, false, false, false)] ++
      [(.oaepdec, false, false, true, true, false, false, false),
       (.pssenc, true, true, true, false, false, false, false),
       (.pssvfy, true, true, true, true, false, false, false),
       (.p15enc, true, false, true, false, false, false, false),
       (.ctxnew, true, true, !i.asm.rnd, i.asm.iv, false, false, false),
       (.ctxrel, false, false, false, false, false, false, false),
       (.symenc, false, false, true, i.asm.iv, false, false, true),
       (.symdec, false, false, true, i.asm.iv, false, false, true),
       (.deenv, true, true, true, true, true, false, false),
       (.clrbuf, false, false, false, false, false, false, false)] →
    s.cfg = t.cfg → s.drawCount = t.drawCount →
    (p0 = true → s.p0 = t.p0) → (p1 = true → s.p1 = t.p1) → (b0 = true → s.ib0.value = t.ib0.value) →
    (b1 = true → s.ib1.value = t.ib1.value) → (b2 = true → s.ib2.value = t.ib2.value) →
    (b3 = true → s.ib3.value = t.ib3.value) → (slot = true → s.ctx = t.ctx) →
    exec i s = .next s' → exec i t = .next t' →
    s'.ob0 = t'.ob0 ∧ s'.ob1 = t'.ob1 ∧ s'.res = t'.res ∧ s'.status.err = t'.status.err ∧
      s'.status.ok = t'.status.ok ∧ s'.status.errcode = t'.status.errcode ∧ s'.drawCount = t'.drawCount ∧
      (s.ctx = t.ctx ∨ i.asm.mnemonic ∈ [.ctxnew, .ctxrel, .symenc, .symdec] → s'.ctx = t'.ctx)
end

