-- ==== Sys2Proof/Laws/Bytes.lean ====
section
/-! SUPPORT. Byte strings (00_scope.md R10): lengths, the exclusive-or, big-endian numbers, slices. -/

namespace Sys2Proof.Machine

@[simp] theorem rep_length (v : Byte) (n : Nat) : (rep v n).length = n := by simp [rep]

@[simp] theorem zeros_length (n : Nat) : (zeros n).length = n := by simp [zeros]

@[simp] theorem zeros_zero : zeros 0 = [] := rfl

theorem getElem_zeros {n i : Nat} (h : i < (zeros n).length) : (zeros n)[i] = 0#8 := by simp [zeros, rep]

@[simp] theorem slice_length (x : Bytes) (a b : Nat) : (slice x a b).length = min (b - a) (x.length - a) := by
  simp [slice]

theorem slice_zero (x : Bytes) (n : Nat) : slice x 0 n = x.take n := by simp [slice]

theorem slice_to_end (x : Bytes) (a : Nat) : slice x a x.length = x.drop a := by
  rw [slice, List.take_of_length_le]; simp

@[simp] theorem bytesN_length (n v : Nat) : (bytesN n v).length = n := by
  induction n generalizing v with
  | zero => rfl
  | succ n ih => simp [bytesN, ih]

@[simp] theorem be32_length (v : Nat) : (be32 v).length = 4 := bytesN_length 4 v

@[simp] theorem be16_length (v : Nat) : (be16 v).length = 2 := bytesN_length 2 v

@[simp] theorem lengthPrefixed_length (x : Bytes) : (lengthPrefixed x).length = x.length + 2 := by
  simp [lengthPrefixed]; omega

@[simp] theorem xorBytes_length (a b : Bytes) : (xorBytes a b).length = min a.length b.length := by
  simp [xorBytes]

theorem getElem_xorBytes {a b : Bytes} {i : Nat} (h : i < (xorBytes a b).length) :
    (xorBytes a b)[i] = a[i]'(by simp at h; omega) ^^^ b[i]'(by simp at h; omega) := by
  simp [xorBytes]

/-- The exclusive-or is undone by the same mask, when the mask reaches as far (43_xor.md R131 (a)). -/
theorem xorBytes_cancel {a b : Bytes} (h : a.length ≤ b.length) : xorBytes (xorBytes a b) b = a := by
  apply List.ext_getElem
  · simp; omega
  · intro i h1 h2
    simp [getElem_xorBytes]

theorem xorBytes_take (a b : Bytes) (n : Nat) : (xorBytes a b).take n = xorBytes (a.take n) (b.take n) := by
  simp [xorBytes, List.take_zipWith]

/-! ## Big-endian numbers -/

theorem intOf_append_byte (x : Bytes) (b : Byte) : intOf (x ++ [b]) = intOf x * 256 + b.toNat := by
  simp [intOf, List.foldl_append]

theorem intOf_lt (x : Bytes) : intOf x < 256 ^ x.length := by
  induction x using List.reverseRecOn with
  | nil => simp [intOf]
  | append_singleton x b ih =>
    rw [intOf_append_byte]
    have hb := b.isLt
    simp only [List.length_append, List.length_singleton, pow_succ]
    omega

/-- Reading `n` big-endian bytes back gives the number modulo 256^n. -/
theorem intOf_bytesN (n v : Nat) : intOf (bytesN n v) = v % 256 ^ n := by
  induction n generalizing v with
  | zero => simp [bytesN, intOf, Nat.mod_one]
  | succ n ih =>
    rw [bytesN, intOf_append_byte, ih, pow_succ', Nat.mod_mul]
    simp; omega

theorem intOf_bytesN_of_lt {n v : Nat} (h : v < 256 ^ n) : intOf (bytesN n v) = v := by
  rw [intOf_bytesN, Nat.mod_eq_of_lt h]

theorem intOf_append (x y : Bytes) : intOf (x ++ y) = intOf x * 256 ^ y.length + intOf y := by
  induction y using List.reverseRecOn with
  | nil => simp [intOf]
  | append_singleton y b ih =>
    rw [← List.append_assoc, intOf_append_byte, ih, intOf_append_byte]
    simp [pow_succ]; ring

theorem bytesN_intOf (x : Bytes) : bytesN x.length (intOf x) = x := by
  induction x using List.reverseRecOn with
  | nil => rfl
  | append_singleton x b ih =>
    have hb := b.isLt
    rw [intOf_append_byte, List.length_append, List.length_singleton, bytesN]
    have h1 : (intOf x * 256 + b.toNat) / 256 = intOf x := by omega
    rw [h1, ih]
    congr 2
    apply BitVec.eq_of_toNat_eq
    simp; omega

/-- Dropping whole low bytes is a shift: the first `m` bytes of a string are its number shifted right by the
bits behind them (42_kdfa.md R112). -/
theorem bytesN_shift_whole {x : Bytes} {m : Nat} (h : m ≤ x.length) :
    bytesN m (intOf x >>> (8 * (x.length - m))) = x.take m := by
  have hx : x.take m ++ x.drop m = x := List.take_append_drop m x
  have hlen : (x.take m).length = m := by simp [h]
  have hd : (x.drop m).length = x.length - m := by simp
  have key : intOf x >>> (8 * (x.length - m)) = intOf (x.take m) := by
    conv_lhs => rw [← hx]
    rw [intOf_append, Nat.shiftRight_eq_div_pow, hx, hd, pow_mul]
    have := intOf_lt (x.drop m)
    rw [hd] at this
    have hp : (0 : Nat) < 256 ^ (x.length - m) := by positivity
    show (intOf (x.take m) * 256 ^ (x.length - m) + intOf (x.drop m)) / 256 ^ (x.length - m) = _
    rw [Nat.add_comm, Nat.add_mul_div_right _ _ hp, Nat.div_eq_of_lt this, Nat.zero_add]
  rw [key]
  have := bytesN_intOf (x.take m)
  rwa [hlen] at this

theorem ceilDiv_eq_zero {a b : Nat} (hb : 0 < b) : ceilDiv a b = 0 ↔ a = 0 := by
  unfold ceilDiv
  rw [Nat.div_eq_zero_iff]
  omega

theorem le_ceilDiv_mul (a : Nat) {b : Nat} (hb : 0 < b) : a ≤ ceilDiv a b * b := by
  unfold ceilDiv
  have := Nat.div_add_mod (a + (b - 1)) b
  have hm := Nat.mod_lt (a + (b - 1)) hb
  rw [Nat.mul_comm] at this
  omega

theorem ceilDiv_mul_lt (a : Nat) {b : Nat} (hb : 0 < b) : ceilDiv a b * b < a + b := by
  unfold ceilDiv
  have := Nat.div_mul_le_self (a + (b - 1)) b
  omega

end Sys2Proof.Machine
end

