-- ==== Sys2Proof/Laws/Encoding.lean ====
section
/-! SUPPORT. The fields of an encoded word, and the rows of the opcode map (30_encoding.md R70, R74, R82). -/

namespace Sys2Proof

theorem mnemonicOf_opc (m : Mnemonic) : mnemonicOf m.opc = some m := by cases m <;> decide

theorem opc_of_mnemonicOf {b : Byte} {m : Mnemonic} (h : mnemonicOf b = some m) : m.opc = b := by
  have := List.find?_some h
  simpa using this

theorem mem_mnemonic_all (m : Mnemonic) : m ∈ Mnemonic.all := by cases m <;> decide

theorem mnemonicOf_none_iff {b : Byte} : mnemonicOf b = none ↔ ∀ m : Mnemonic, m.opc ≠ b := by
  simp [mnemonicOf, List.find?_eq_none, mem_mnemonic_all]

/-- The word `OPC | (RNDKEY << 8) | (IVSET << 9) | (ALG << 16)` has the fields it was made of. -/
theorem word_fields (o : Byte) (r v : Bool) (x : Half) (w : Word)
    (hw : w = o.setWidth 32 ||| ((if r then 1#32 else 0#32) <<< 8) ||| ((if v then 1#32 else 0#32) <<< 9) |||
      (x.setWidth 32 <<< 16)) :
    opcField w = o ∧ flgField w = BitVec.ofNat 8 (r.toNat + 2 * v.toNat) ∧ algField w = x := by
  subst hw
  have h8 : ∀ i, i < 8 → i = 0 ∨ i = 1 ∨ i = 2 ∨ i = 3 ∨ i = 4 ∨ i = 5 ∨ i = 6 ∨ i = 7 := by omega
  refine ⟨?_, ?_, ?_⟩ <;> ext i hi
  · rcases h8 i hi with h | h | h | h | h | h | h | h <;> subst h <;> cases r <;> cases v <;> simp [opcField]
  · rcases h8 i hi with h | h | h | h | h | h | h | h <;> subst h <;> cases r <;> cases v <;>
      simp [flgField]
  · have h1 : 16 + i < 32 := by omega
    have h2 : i < 32 := by omega
    have h3 : o.getLsbD (16 + i) = false := BitVec.getLsbD_of_ge _ _ (by omega)
    have h4 : (256#32).getLsbD (16 + i) = false := by
      rw [BitVec.getLsbD, BitVec.toNat_ofNat]; exact Nat.testBit_lt_two_pow (Nat.lt_of_lt_of_le (by decide : 256 % 2 ^ 32 < 2 ^ 16) (Nat.pow_le_pow_right (by decide) (by omega)))
    have h5 : (512#32).getLsbD (16 + i) = false := by
      rw [BitVec.getLsbD, BitVec.toNat_ofNat]; exact Nat.testBit_lt_two_pow (Nat.lt_of_lt_of_le (by decide : 512 % 2 ^ 32 < 2 ^ 16) (Nat.pow_le_pow_right (by decide) (by omega)))
    rw [BitVec.getLsbD_eq_getElem h1] at h4 h5
    cases r <;> cases v <;> simp [algField, h1, h3, h4, h5, BitVec.getLsbD_eq_getElem hi]

theorem encodeAsm_fields (c : AsmCommand) :
    opcField (encodeAsm c) = c.mnemonic.opc ∧
      flgField (encodeAsm c) = BitVec.ofNat 8 (c.rnd.toNat + 2 * c.iv.toNat) ∧
      algField (encodeAsm c) = c.alg.getD 0#16 :=
  word_fields _ _ _ _ _ rfl

/-- Two words with the same three fields are the same word (R70: the fields are the whole word). -/
theorem word_ext {x y : Word} (h0 : opcField x = opcField y) (h1 : flgField x = flgField y)
    (h2 : algField x = algField y) : x = y := by
  ext i hi
  have e0 := fun j => congrArg (fun v => BitVec.getLsbD v j) h0
  have e1 := fun j => congrArg (fun v => BitVec.getLsbD v j) h1
  have e2 := fun j => congrArg (fun v => BitVec.getLsbD v j) h2
  simp only [opcField, flgField, algField, BitVec.getLsbD_extractLsb'] at e0 e1 e2
  by_cases a : i < 8
  · simpa [a, BitVec.getLsbD_eq_getElem hi] using e0 i
  · by_cases b : i < 16
    · have := e1 (i - 8)
      simpa [show i - 8 < 8 by omega, show 8 + (i - 8) = i by omega, BitVec.getLsbD_eq_getElem hi] using this
    · have := e2 (i - 16)
      simpa [show i - 16 < 16 by omega, show 16 + (i - 16) = i by omega, BitVec.getLsbD_eq_getElem hi] using this

/-- Everything the decoder can accept (R75): a row, no flag the row does not allow, no ALG under format N. -/
theorem decode_ok {w : Word} {i : Instr} (h : decode w = .ok i) :
    ∃ m, mnemonicOf (opcField w) = some m ∧ flgField w &&& ~~~m.allowedFlags = 0#8 ∧
      (m.format = .N → algField w = 0#16) ∧
      i = m.instr (algField w) ((flgField w).getLsbD 0) ((flgField w).getLsbD 1) := by
  unfold decode at h
  split at h
  · simp at h
  · rename_i m hm
    by_cases hf : flgField w &&& ~~~m.allowedFlags = 0#8
    · by_cases hn : m.format = .N ∧ algField w ≠ 0#16
      · simp [hf, hn] at h
      · rw [if_neg (by simpa using hf), if_neg hn] at h
        simp only [Except.ok.injEq] at h
        exact ⟨m, hm, hf, fun e => by by_contra c; exact hn ⟨e, c⟩, h.symm⟩
    · rw [if_pos hf] at h
      split at h <;> simp at h

/-- A word the decoder must accept. -/
theorem decode_of_row {w : Word} {m : Mnemonic} (hm : mnemonicOf (opcField w) = some m)
    (hf : flgField w &&& ~~~m.allowedFlags = 0#8) (hn : m.format = .N → algField w = 0#16) :
    decode w = .ok (m.instr (algField w) ((flgField w).getLsbD 0) ((flgField w).getLsbD 1)) := by
  unfold decode
  rw [hm]
  have : ¬ (m.format = .N ∧ algField w ≠ 0#16) := fun ⟨a, b⟩ => b (hn a)
  simp only [hf, ne_eq, not_true_eq_false, if_false, this]

@[simp] theorem asm_mnemonic_instr (m : Mnemonic) (a : Half) (r v : Bool) : (m.instr a r v).asm.mnemonic = m := by
  cases m <;> rfl

end Sys2Proof
end

