-- ==== Sys2Proof/Laws/Memory.lean ====
section
/-! SUPPORT. Byte storages: every operation keeps the canonical form; read after write; what a buffer holds. -/

namespace Sys2Proof.Machine

@[simp] theorem Memory.read_nil (a : Nat) : Memory.read [] a = 0#8 := rfl

theorem Memory.wf_iff (m : Memory) : m.wf = true ↔ m.WF := by simp [Memory.wf]

theorem Memory.wf_nil : Memory.WF [] := by simp [Memory.WF]

theorem Memory.below_nil (n : Nat) : Memory.Below [] n := by simp [Memory.Below]

theorem Memory.below_mono {m : Memory} {n k : Nat} (h : m.Below n) (hk : n ≤ k) : m.Below k :=
  fun c hc => Nat.lt_of_lt_of_le (h c hc) hk

theorem Memory.wf_tail {c : Host.Cell} {m : Memory} (h : Memory.WF (c :: m)) : Memory.WF m :=
  ⟨(List.pairwise_cons.mp h.1).2, fun d hd => h.2 d (List.mem_cons_of_mem _ hd)⟩

/-- An offset at which no cell is listed reads 0. -/
theorem Memory.read_eq_zero {m : Memory} {a : Nat} (h : ∀ c ∈ m, c.1 ≠ a) : m.read a = 0#8 := by
  induction m with
  | nil => rfl
  | cons c m ih =>
    obtain ⟨k, b⟩ := c
    have hk : k ≠ a := h (k, b) (by simp)
    simp only [Memory.read, hk, if_false]
    exact ih fun d hd => h d (List.mem_cons_of_mem _ hd)

theorem Memory.read_of_below {m : Memory} {n a : Nat} (h : m.Below n) (ha : n ≤ a) : m.read a = 0#8 :=
  Memory.read_eq_zero fun c hc => by have := h c hc; omega

theorem Memory.read_cons_lt {k a : Nat} {b : Byte} {m : Memory} (h : Memory.WF ((k, b) :: m)) (ha : a < k) :
    Memory.read ((k, b) :: m) a = 0#8 :=
  Memory.read_eq_zero fun c hc => by
    rcases List.mem_cons.mp hc with rfl | hc
    · simp; omega
    · have := (List.pairwise_cons.mp h.1).1 c hc
      simp at this; omega

/-- The cells a write leaves are the old ones and the new one. -/
theorem Memory.mem_write {m : Memory} {a : Nat} {b : Byte} {c : Host.Cell} (h : c ∈ m.write a b) :
    c ∈ m ∨ (c = (a, b) ∧ b ≠ 0#8) := by
  induction m with
  | nil => by_cases hb : b = 0#8 <;> simp_all [Memory.write]
  | cons d m ih =>
    obtain ⟨k, e⟩ := d
    by_cases h1 : a < k
    · by_cases hb : b = 0#8 <;> simp_all [Memory.write]; tauto
    · by_cases h2 : a = k
      · by_cases hb : b = 0#8 <;> simp_all [Memory.write]; tauto
      · simp only [Memory.write, h1, h2, if_false, List.mem_cons] at h
        rcases h with h | h
        · simp [h]
        · rcases ih h with h | h <;> simp [h]

/-- A write keeps the canonical form. -/
theorem Memory.write_wf {m : Memory} (h : m.WF) (a : Nat) (b : Byte) : (m.write a b).WF := by
  induction m with
  | nil => by_cases hb : b = 0#8 <;> simp [Memory.write, hb, Memory.WF]
  | cons d m ih =>
    obtain ⟨k, e⟩ := d
    have ht := Memory.wf_tail h
    have hp := List.pairwise_cons.mp h.1
    by_cases h1 : a < k
    · by_cases hb : b = 0#8
      · simpa [Memory.write, h1, hb] using h
      · refine ⟨?_, ?_⟩
        · simp only [Memory.write, h1, hb, if_true, if_false, List.pairwise_cons]
          refine ⟨fun c hc => ?_, hp⟩
          rcases List.mem_cons.mp hc with rfl | hc
          · exact h1
          · have := hp.1 c hc; simp at this; omega
        · intro c hc
          simp only [Memory.write, h1, hb, if_true, if_false, List.mem_cons] at hc
          rcases hc with rfl | rfl | hc
          · exact hb
          · exact h.2 _ (by simp)
          · exact ht.2 c hc
    · by_cases h2 : a = k
      · subst h2
        by_cases hb : b = 0#8
        · simpa [Memory.write, hb] using ht
        · refine ⟨?_, ?_⟩
          · simp only [Memory.write, hb, lt_irrefl, if_true, if_false, List.pairwise_cons]
            exact hp
          · intro c hc
            simp only [Memory.write, hb, lt_irrefl, if_true, if_false, List.mem_cons] at hc
            rcases hc with rfl | hc
            · exact hb
            · exact ht.2 c hc
      · have hw := ih ht
        refine ⟨?_, ?_⟩
        · simp only [Memory.write, h1, h2, if_false, List.pairwise_cons]
          refine ⟨fun c hc => ?_, hw.1⟩
          rcases Memory.mem_write hc with hc | ⟨rfl, _⟩
          · exact hp.1 c hc
          · simp; omega
        · intro c hc
          simp only [Memory.write, h1, h2, if_false, List.mem_cons] at hc
          rcases hc with rfl | hc
          · exact h.2 _ (by simp)
          · exact hw.2 c hc

theorem Memory.write_below {m : Memory} {n a : Nat} (h : m.Below n) (ha : a < n) (b : Byte) :
    (m.write a b).Below n := fun c hc => by
  rcases Memory.mem_write hc with hc | ⟨rfl, _⟩
  · exact h c hc
  · exact ha

/-- Read after write: the byte written, and every other byte as before. -/
theorem Memory.read_write {m : Memory} (h : m.WF) (a : Nat) (b : Byte) (j : Nat) :
    (m.write a b).read j = if j = a then b else m.read j := by
  induction m with
  | nil =>
    by_cases hb : b = 0#8
    · simp [Memory.write, hb]
    · by_cases hj : a = j <;> simp [Memory.write, hb, Memory.read, hj, eq_comm]
  | cons d m ih =>
    obtain ⟨k, e⟩ := d
    have ht := Memory.wf_tail h
    by_cases h1 : a < k
    · by_cases hb : b = 0#8
      · by_cases hj : j = a
        · subst hj
          simp [Memory.write, h1, hb, Memory.read_cons_lt h h1]
        · simp [Memory.write, h1, hb, hj]
      · by_cases hj : a = j
        · subst hj
          simp [Memory.write, h1, hb, Memory.read]
        · have hj' : ¬ j = a := fun e => hj e.symm
          simp [Memory.write, h1, hb, Memory.read, hj, hj']
    · by_cases h2 : a = k
      · subst h2
        by_cases hb : b = 0#8
        · by_cases hj : j = a
          · subst hj
            have : Memory.read m j = 0#8 := Memory.read_eq_zero fun c hc => by
              have := (List.pairwise_cons.mp h.1).1 c hc
              simp at this; omega
            simp [Memory.write, hb, this]
          · have hj' : ¬ a = j := fun e => hj e.symm
            simp [Memory.write, hb, hj, Memory.read, hj']
        · by_cases hj : a = j
          · simp [Memory.write, hb, Memory.read, hj]
          · have hj' : ¬ j = a := fun e => hj e.symm
            simp [Memory.write, hb, Memory.read, hj, hj']
      · simp only [Memory.write, h1, h2, if_false, Memory.read]
        by_cases hk : k = j
        · have : ¬ j = a := by omega
          simp [hk, this]
        · simp [hk, ih ht]

/-! ## A storage filled with a string -/

theorem Memory.mem_ofBytesFrom {x : Bytes} {a : Nat} {c : Host.Cell} (h : c ∈ Memory.ofBytesFrom a x) :
    a ≤ c.1 ∧ c.1 < a + x.length ∧ c.2 ≠ 0#8 := by
  induction x generalizing a with
  | nil => simp [Memory.ofBytesFrom] at h
  | cons b x ih =>
    by_cases hb : b = 0#8
    · simp only [Memory.ofBytesFrom, hb, if_true] at h
      have := ih h
      simp only [List.length_cons]
      exact ⟨by omega, by omega, this.2.2⟩
    · simp only [Memory.ofBytesFrom, hb, if_false, List.mem_cons] at h
      rcases h with rfl | h
      · simp [hb]
      · have := ih h
        simp only [List.length_cons]
        exact ⟨by omega, by omega, this.2.2⟩

theorem Memory.ofBytesFrom_wf (a : Nat) (x : Bytes) : (Memory.ofBytesFrom a x).WF := by
  refine ⟨?_, fun c hc => (Memory.mem_ofBytesFrom hc).2.2⟩
  induction x generalizing a with
  | nil => simp [Memory.ofBytesFrom]
  | cons b x ih =>
    by_cases hb : b = 0#8
    · simpa [Memory.ofBytesFrom, hb] using ih (a + 1)
    · simp only [Memory.ofBytesFrom, hb, if_false, List.pairwise_cons]
      exact ⟨fun c hc => by have := Memory.mem_ofBytesFrom hc; simp; omega, ih (a + 1)⟩

theorem Memory.ofBytes_wf (x : Bytes) : (Memory.ofBytes x).WF := Memory.ofBytesFrom_wf 0 x

theorem Memory.ofBytes_below (x : Bytes) : (Memory.ofBytes x).Below x.length := fun c hc => by
  have := Memory.mem_ofBytesFrom hc
  omega

theorem Memory.read_ofBytesFrom (x : Bytes) (a j : Nat) :
    (Memory.ofBytesFrom a x).read j = if a ≤ j then x.getD (j - a) 0#8 else 0#8 := by
  induction x generalizing a with
  | nil => simp [Memory.ofBytesFrom]
  | cons b x ih =>
    by_cases hb : b = 0#8
    · simp only [Memory.ofBytesFrom, hb, if_true, ih]
      by_cases h1 : a + 1 ≤ j
      · have h2 : a ≤ j := by omega
        have h3 : j - a = (j - (a + 1)) + 1 := by omega
        simp [h1, h2, h3]
      · by_cases h2 : a ≤ j
        · have h3 : j - a = 0 := by omega
          simp [h1, h2, h3]
        · simp [h1, h2]
    · simp only [Memory.ofBytesFrom, hb, if_false, Memory.read, ih]
      by_cases h0 : a = j
      · simp [h0]
      · by_cases h1 : a + 1 ≤ j
        · have h2 : a ≤ j := by omega
          have h3 : j - a = (j - (a + 1)) + 1 := by omega
          simp [h0, h1, h2, h3]
        · have h2 : ¬ a ≤ j := by omega
          simp [h0, h1, h2]

/-- A storage filled with X holds X's bytes and zero beyond them (00_scope.md R11). -/
theorem Memory.read_ofBytes (x : Bytes) (j : Nat) : (Memory.ofBytes x).read j = x.getD j 0#8 := by
  simp [Memory.ofBytes, Memory.read_ofBytesFrom]

@[simp] theorem Memory.bytes_length (m : Memory) (n : Nat) : (m.bytes n).length = n := by simp [Memory.bytes]

theorem Memory.getElem_bytes {m : Memory} {n i : Nat} (h : i < (m.bytes n).length) : (m.bytes n)[i] = m.read i := by
  simp [Memory.bytes]

/-- Reading back what a storage was filled with. -/
@[simp] theorem Memory.bytes_ofBytes (x : Bytes) : (Memory.ofBytes x).bytes x.length = x := by
  apply List.ext_getElem
  · simp
  · intro i h1 h2
    simp [Memory.getElem_bytes, Memory.read_ofBytes, h2]

@[simp] theorem value_length (b : Buffer) : b.value.length = b.len := by simp [Buffer.value]

@[simp] theorem value_ofBytes (x : Bytes) : (Buffer.ofBytes x).value = x := by
  simp [Buffer.value, Buffer.ofBytes]

@[simp] theorem ofBytes_nil : Buffer.ofBytes [] = Buffer.empty := rfl

@[simp] theorem keyBytes_length (c : CipherCtx) : c.keyBytes.length = c.keyBits.toNat / 8 := by
  simp [CipherCtx.keyBytes]

@[simp] theorem ivBytes_length (c : CipherCtx) : c.ivBytes.length = c.blk.toNat := by
  simp [CipherCtx.ivBytes]

/-! ## Lanes -/

theorem Memory.writeLanes_wf {m : Memory} (h : m.WF) (o d n : Nat) : (m.writeLanes o d n).WF := by
  induction n generalizing m o d with
  | zero => exact h
  | succ n ih => exact ih (Memory.write_wf h _ _) _ _

theorem Memory.writeLanes_below {m : Memory} {k : Nat} (h : m.Below k) {o n : Nat} (hn : o + n ≤ k) (d : Nat) :
    (m.writeLanes o d n).Below k := by
  induction n generalizing m o d with
  | zero => exact h
  | succ n ih => exact ih (Memory.write_below h (by omega) _) (by omega) _

/-- What a lane write leaves: byte `i` of the data at offset `o + i`, every other byte as before (R54, R224). -/
theorem Memory.read_writeLanes {m : Memory} (h : m.WF) (o d n j : Nat) :
    (m.writeLanes o d n).read j =
      if o ≤ j ∧ j < o + n then BitVec.ofNat 8 (d / 256 ^ (j - o)) else m.read j := by
  induction n generalizing m o d with
  | zero =>
    simp [Memory.writeLanes]
  | succ n ih =>
    rw [Memory.writeLanes, ih (Memory.write_wf h _ _), Memory.read_write h]
    by_cases h1 : o + 1 ≤ j ∧ j < o + 1 + n
    · have h2 : o ≤ j ∧ j < o + (n + 1) := by omega
      have h3 : j - o = (j - (o + 1)) + 1 := by omega
      rw [if_pos h1, if_pos h2, h3, pow_succ', Nat.div_div_eq_div_mul]
    · rw [if_neg h1]
      by_cases h2 : j = o
      · have h3 : o ≤ j ∧ j < o + (n + 1) := by omega
        rw [if_pos h2, if_pos h3]; simp [h2]
      · have h3 : ¬ (o ≤ j ∧ j < o + (n + 1)) := by omega
        rw [if_neg h2, if_neg h3]

end Sys2Proof.Machine
end

