-- ==== Sys2Proof/Laws/Functions.lean ====
section
/-! SUPPORT. The functions the commands compute: the lengths of their results, and what the catalog gives. -/

namespace Sys2Proof.Machine

/-! ## Provider and catalog -/

@[simp] theorem providerAnswer_length (cfg : Config) (r : Request) (n : Nat) :
    (providerAnswer cfg r n).length = n := by simp [providerAnswer]

@[simp] theorem providerHash_length (cfg : Config) (h : RealHash) (m : Bytes) :
    (providerHash cfg h m).length = digestSize h := by simp [providerHash]

@[simp] theorem providerHmac_length (cfg : Config) (h : RealHash) (k m : Bytes) :
    (providerHmac cfg h k m).length = digestSize h := by simp [providerHmac]

@[simp] theorem providerCipher_length (cfg : Config) (d : Dir) (c m : Half) (k iv x : Bytes) :
    (providerCipher cfg d c m k iv x).length = x.length := by simp [providerCipher]

@[simp] theorem drawn_length (s : State) (n : Nat) : (s.drawn n).length = n := by simp [State.drawn]

theorem digestSize_bounds (h : RealHash) : 20 ≤ digestSize h ∧ digestSize h ≤ 64 := by cases h <;> decide

theorem digestSize_pos (h : RealHash) : 0 < digestSize h := by have := digestSize_bounds h; omega

theorem realHash?_eq_some {alg : Half} {h : RealHash} : realHash? alg = some h ↔ algClass alg = .real h := by
  unfold realHash?; cases algClass alg <;> simp

/-- What the catalog answers is a row of the table. -/
theorem cipherCatalog_row {cfg : Config} {c m : Half} {kb bs : Nat} (h : cipherCatalog cfg c m kb = some bs) :
    ∃ r ∈ cfg.ciphers, r.cipher = c ∧ r.mode = m ∧ r.keyBits = kb ∧ r.blockSize = bs := by
  obtain ⟨r, hf, rfl⟩ := Option.map_eq_some_iff.mp h
  refine ⟨r, List.mem_of_find?_eq_some hf, ?_⟩
  have := List.find?_some hf
  simp only [Bool.and_eq_true, beq_iff_eq] at this
  exact ⟨this.1.1, this.1.2, this.2, rfl⟩

theorem symBlock_bounds {cfg : Config} (hw : cfg.WF) {d : Word} {kb bs : Nat} (h : symBlock cfg d kb = some bs) :
    1 ≤ bs ∧ bs ≤ 32 ∧ 8 ≤ kb ∧ kb ≤ 512 ∧ kb % 8 = 0 := by
  obtain ⟨r, hr, _, _, rfl, rfl⟩ := cipherCatalog_row h
  exact hw.2.1 r hr

/-! ## MGF1 -/

/-- The loop invariant of 41_mgf1.md R101: ACC holds whole digests, CTR of them. -/
theorem mgf1Turn_acc_length (cfg : Config) (h : RealHash) (seed : Bytes) (e : LoopEngine) :
    (mgf1Turn cfg h seed e).acc.length = e.acc.length + digestSize h := by simp [mgf1Turn]

theorem mgf1Loop_long_enough (cfg : Config) (h : RealHash) (seed : Bytes) (len n : Nat) (e : LoopEngine)
    (hn : len ≤ e.acc.length + n) : len ≤ (mgf1Loop cfg h seed len n e).acc.length := by
  induction n generalizing e with
  | zero => simpa [mgf1Loop] using hn
  | succ n ih =>
    unfold mgf1Loop
    split
    · apply ih
      have := digestSize_pos h
      rw [mgf1Turn_acc_length]; omega
    · omega

@[simp] theorem mgf1_length (cfg : Config) (h : RealHash) (seed : Bytes) (len : Nat) :
    (mgf1 cfg h seed len).length = len := by
  have := mgf1Loop_long_enough cfg h seed len len LoopEngine.cleared (by simp)
  simp [mgf1, mgf1Controller, this]

/-! ## KDFa -/

theorem kdfaLoop_acc_length (cfg : Config) (h : RealHash) (key label u v : Bytes) (n k : Nat) (e : LoopEngine) :
    (kdfaLoop cfg h key label u v n k e).acc.length = e.acc.length + k * digestSize h := by
  induction k generalizing e with
  | zero => simp [kdfaLoop]
  | succ k ih => rw [kdfaLoop, ih]; simp; ring

@[simp] theorem kdfaController_acc_length (cfg : Config) (h : RealHash) (key label u v : Bytes) (n : Nat) :
    (kdfaController cfg h key label u v n).acc.length = kdfaLoops h n * digestSize h := by
  simp [kdfaController, kdfaLoop_acc_length]

@[simp] theorem kdfa_length (cfg : Config) (h : RealHash) (key label u v : Bytes) (n : Nat) :
    (kdfa cfg h key label u v n).length = ceilDiv n 8 := by simp [kdfa, kdfaShift]

theorem ceilDiv_eight_mul (n : Nat) : ceilDiv (8 * n) 8 = n := by unfold ceilDiv; omega

theorem kdfThenXor_ok (cfg : Config) (h : RealHash) (key u v data : Bytes) :
    kdfThenXor cfg h key u v data = .ok (xorBytes data (kdfa cfg h key xorLabel u v (8 * data.length))) := by
  simp [kdfThenXor, xorChecked, ceilDiv_eight_mul]

/-! ## Split -/

/-- Everything `Splitf` can do (42_kdfa.md R115). -/
theorem splitBits_cases (b : Bytes) (n1 n2 : Nat) :
    ((n1 % 8 ≠ 0 ∨ n2 % 8 ≠ 0) ∧ splitBits b n1 n2 = .error .unsupportedOperation) ∨
    (n1 % 8 = 0 ∧ n2 % 8 = 0 ∧ b.length < n1 / 8 + n2 / 8 ∧ splitBits b n1 n2 = .error .malformedInput) ∨
    (n1 % 8 = 0 ∧ n2 % 8 = 0 ∧ n1 / 8 + n2 / 8 ≤ b.length ∧
      splitBits b n1 n2 = .ok (b.take (n1 / 8), (b.drop (n1 / 8)).take (n2 / 8))) := by
  by_cases h : n1 % 8 ≠ 0 ∨ n2 % 8 ≠ 0
  · exact .inl ⟨h, by simp only [splitBits, if_pos h]⟩
  · have hc : ceilDiv n1 8 = n1 / 8 := by unfold ceilDiv; omega
    push Not at h
    by_cases hl : b.length < n1 / 8 + n2 / 8
    · exact .inr (.inl ⟨h.1, h.2, hl, by simp [splitBits, h, hc, hl]⟩)
    · exact .inr (.inr ⟨h.1, h.2, by omega, by simp [splitBits, h, hc, hl, slice]⟩)

/-! ## OAEP, PSS, PKCS#1 v1.5 -/

@[simp] theorem oaepBlock_length (p : Bytes) (n : Nat) (m : Bytes) :
    (oaepBlock p n m).length = p.length + n + 1 + m.length := by simp [oaepBlock]; omega

@[simp] theorem oaepMask_length (cfg : Config) (h : RealHash) (db seed : Bytes) :
    (oaepMask cfg h db seed).length = min seed.length (digestSize h) + db.length := by simp [oaepMask]

theorem oaepUnmask_length (cfg : Config) (h : RealHash) (em : Bytes) :
    (oaepUnmask cfg h em).length = em.length - digestSize h := by simp [oaepUnmask]

theorem oaepScan_length {x m : Bytes} (h : oaepScan x = some m) : m.length < x.length := by
  unfold oaepScan at h
  have hd : (x.dropWhile (fun b => b == 0x00#8)).length ≤ x.length := List.IsSuffix.length_le (List.dropWhile_suffix _)
  split at h
  · simp at h
  · rename_i b msg heq
    rw [heq] at hd
    split at h
    · simp only [Option.some.injEq] at h; subst h; simp at hd; omega
    · simp at h

theorem oaepDecode_length {cfg : Config} {h : RealHash} {em p m : Bytes} (hd : oaepDecode cfg h em p = some m) :
    m.length < em.length := by
  unfold oaepDecode at hd
  split at hd
  · simp at hd
  · dsimp only at hd
    split at hd
    · have := oaepScan_length hd
      simp [oaepUnmask_length] at this
      omega
    · simp at hd

@[simp] theorem andFirst_length (m : Byte) (x : Bytes) : (andFirst m x).length = x.length := by
  cases x <;> rfl

@[simp] theorem pssHash_length (cfg : Config) (h : RealHash) (m salt : Bytes) :
    (pssHash cfg h m salt).length = digestSize h := by simp [pssHash]

@[simp] theorem pssBlock_length (h : RealHash) (emLen : Nat) (salt : Bytes) :
    (pssBlock h emLen salt).length = emLen - salt.length - digestSize h - 2 + 1 + salt.length := by
  simp [pssBlock]; omega

theorem pssEncode_length {cfg : Config} {h : RealHash} {m salt : Bytes} {emBits : Nat}
    (hl : digestSize h + salt.length + 2 ≤ ceilDiv emBits 8) :
    (pssEncode cfg h m emBits salt).length = ceilDiv emBits 8 := by
  simp [pssEncode]; omega

theorem p15Encode_length {cfg : Config} {h : RealHash} {header m : Bytes} {emLen : Nat}
    (hl : header.length + digestSize h + 3 ≤ emLen) : (p15Encode cfg h header m emLen).length = emLen := by
  simp [p15Encode]; omega

/-! ## The symmetric envelope -/

@[simp] theorem symTransform_length (cfg : Config) (d : Dir) (c : CipherCtx) (x iv : Bytes) :
    (symTransform cfg d c x iv).1.length = x.length := by
  unfold symTransform
  split
  · simp_all
  · simp [padToBlock]

theorem ivUpdate_length {cfg : Config} {d : Dir} {c : CipherCtx} {iv0 x y : Bytes}
    (h : iv0.length = c.blk.toNat) : (ivUpdate cfg d c iv0 x y).length = c.blk.toNat := by
  unfold ivUpdate
  cases cfg.ivPolicy <;> simp [h]

theorem providerAnswer_of_lookup {cfg : Config} {r : Request} {n : Nat} {v : Bytes}
    (hv : cfg.answers.lookup r = some v) (hn : v.length = n) : providerAnswer cfg r n = v := by
  subst hn
  apply List.ext_getElem <;> simp +contextual [providerAnswer, hv]

/-- Any value of the right length can be `IvUpdate`'s, for each direction, context, iv0, X and Y (47_symenv.md R185). -/
theorem ivUpdate_listed {cfg : Config} {d : Dir} {c : CipherCtx} {iv0 x y v : Bytes} (hp : cfg.ivPolicy = .answered)
    (hv : cfg.answers.lookup (.ivUpdate d c.value iv0 x y) = some v) (hn : v.length = c.blk.toNat) :
    ivUpdate cfg d c iv0 x y = v := by
  simp only [ivUpdate, hp]
  exact providerAnswer_of_lookup hv hn

theorem stripPayload_length {p x : Bytes} (h : stripPayload p = .ok x) : x.length + 2 ≤ p.length := by
  unfold stripPayload at h
  split at h
  · simp at h
  · split at h
    · simp at h
    · simp only [Except.ok.injEq] at h; subst h; simp; omega

theorem openInner_length {cfg : Config} {h : RealHash} {inner name x : Bytes}
    (hx : openInner cfg h inner name = .ok x) : x.length ≤ inner.length := by
  unfold openInner at hx
  split at hx
  · simp at hx
  · rcases splitBits_cases inner (16 + 8 * digestSize h) (8 * (inner.length - digestSize h - 2)) with
      ⟨_, e⟩ | ⟨_, _, _, e⟩ | ⟨_, _, _, e⟩
    · simp [e] at hx
    · simp [e] at hx
    · simp only [e] at hx
      split at hx
      · simp at hx
      · have := stripPayload_length hx
        simp at this; omega

theorem deenvelope_length {cfg : Config} {h : RealHash} {d kb : Word} {blob key name x : Bytes}
    (hx : deenvelope cfg h d kb blob key name = .ok x) : x.length ≤ blob.length := by
  unfold deenvelope at hx
  split at hx
  · simp at hx
  · split at hx
    · simp at hx
    · simpa using openInner_length hx

/-- What the scan of 44_oaep.md R139 accepts: zeros, one 01, the message. -/
theorem oaepScan_eq_some {r m : Bytes} : oaepScan r = some m ↔ ∃ n, r = zeros n ++ [0x01#8] ++ m := by
  induction r with
  | nil => simp [oaepScan]
  | cons b r ih =>
    by_cases hb : b = 0
    · subst hb
      have : oaepScan (0 :: r) = oaepScan r := by simp [oaepScan]
      rw [this, ih]
      constructor
      · rintro ⟨n, rfl⟩; exact ⟨n + 1, by simp [zeros, rep, List.replicate_succ]⟩
      · rintro ⟨n, hn⟩
        cases n with
        | zero => simp at hn
        | succ n => exact ⟨n, by simpa [zeros, rep, List.replicate_succ] using hn⟩
    · have hb' : (b == 0#8) = false := by simpa using hb
      have : oaepScan (b :: r) = if b = 1 then some r else none := by simp [oaepScan, hb']
      rw [this]
      constructor
      · split
        · rename_i h; subst h; rintro h; simp at h; subst h; exact ⟨0, by simp⟩
        · simp
      · rintro ⟨n, hn⟩
        cases n with
        | zero => simp at hn; simp [hn]
        | succ n => simp [zeros, rep, List.replicate_succ] at hn; exact absurd hn.1 hb

/-- The padding of 47_symenv.md R181 is the run of zeros, shorter than a block, that makes the length a multiple. -/
theorem padToBlock_eq {bs pad : Nat} {x : Bytes} (h : pad < bs) (hm : (x.length + pad) % bs = 0) :
    padToBlock bs x = x ++ zeros pad := by
  unfold padToBlock
  congr 2
  have : (-(x.length : Int)) % (bs : Int) = pad := by
    have : ((x.length + pad : Nat) : Int) % bs = 0 := by exact_mod_cast hm
    have h2 : (-(x.length : Int)) = (pad : Int) + bs * (-(((x.length + pad : Nat) : Int) / bs)) := by
      have := Int.mul_ediv_add_emod ((x.length + pad : Nat) : Int) bs
      push_cast at *
      rw [mul_neg]
      omega
    rw [h2, Int.add_mul_emod_self_left]
    exact Int.emod_eq_of_lt (by omega) (by omega)
  rw [this]; simp

/-- Steps 2 to 4 of the de-envelope (47_symenv.md R190) on an inner object that is long enough: the whole tag of
hLen + 2 bytes is compared, then the payload's prefix is stripped. -/
theorem openInner_of_long {cfg : Config} {h : RealHash} {inner name : Bytes} (hl : digestSize h + 2 ≤ inner.length) :
    openInner cfg h inner name =
      if be16 (digestSize h) ++ providerHash cfg h (inner.drop (digestSize h + 2) ++ name) ≠
          inner.take (digestSize h + 2) then .error .integrityCheckFailed
      else stripPayload (inner.drop (digestSize h + 2)) := by
  unfold openInner
  rw [if_neg (by omega)]
  have h1 : (16 + 8 * digestSize h) / 8 = digestSize h + 2 := by omega
  have h2 : 8 * (inner.length - digestSize h - 2) / 8 = inner.length - digestSize h - 2 := by omega
  rcases splitBits_cases inner (16 + 8 * digestSize h) (8 * (inner.length - digestSize h - 2)) with
    ⟨_, e⟩ | ⟨_, _, _, e⟩ | ⟨_, _, _, e⟩
  · omega
  · omega
  · rw [e]; dsimp only
    rw [h1, h2, List.take_of_length_le (l := inner.drop (digestSize h + 2)) (by simp; omega)]
    simp only [lengthPrefixed, providerHash_length]

end Sys2Proof.Machine
end

