-- ==== Sys2Proof/Laws/State.lean ====
section
/-! SUPPORT. One lemma per field per update of the state, true by rfl, so that no later proof unfolds a record update. -/

namespace Sys2Proof.Machine


/-! ## finish (10_state.md R41) -/

@[simp] theorem finish_p0 (s : State) (x y : Bytes) (r : Word) (c : CipherCtx) (e o : Bool) (k : Byte) : (s.finish x y r c e o k).p0 = s.p0 := rfl
@[simp] theorem finish_p1 (s : State) (x y : Bytes) (r : Word) (c : CipherCtx) (e o : Bool) (k : Byte) : (s.finish x y r c e o k).p1 = s.p1 := rfl
@[simp] theorem finish_ib0 (s : State) (x y : Bytes) (r : Word) (c : CipherCtx) (e o : Bool) (k : Byte) : (s.finish x y r c e o k).ib0 = s.ib0 := rfl
@[simp] theorem finish_ib1 (s : State) (x y : Bytes) (r : Word) (c : CipherCtx) (e o : Bool) (k : Byte) : (s.finish x y r c e o k).ib1 = s.ib1 := rfl
@[simp] theorem finish_ib2 (s : State) (x y : Bytes) (r : Word) (c : CipherCtx) (e o : Bool) (k : Byte) : (s.finish x y r c e o k).ib2 = s.ib2 := rfl
@[simp] theorem finish_ib3 (s : State) (x y : Bytes) (r : Word) (c : CipherCtx) (e o : Bool) (k : Byte) : (s.finish x y r c e o k).ib3 = s.ib3 := rfl
@[simp] theorem finish_ob0 (s : State) (x y : Bytes) (r : Word) (c : CipherCtx) (e o : Bool) (k : Byte) : (s.finish x y r c e o k).ob0 = Buffer.ofBytes x := rfl
@[simp] theorem finish_ob1 (s : State) (x y : Bytes) (r : Word) (c : CipherCtx) (e o : Bool) (k : Byte) : (s.finish x y r c e o k).ob1 = Buffer.ofBytes y := rfl
@[simp] theorem finish_cmd (s : State) (x y : Bytes) (r : Word) (c : CipherCtx) (e o : Bool) (k : Byte) : (s.finish x y r c e o k).cmd = s.cmd := rfl
@[simp] theorem finish_status (s : State) (x y : Bytes) (r : Word) (c : CipherCtx) (e o : Bool) (k : Byte) : (s.finish x y r c e o k).status = { done := true, err := e, ok := o, errcode := k, opc := s.status.opc } := rfl
@[simp] theorem finish_inten (s : State) (x y : Bytes) (r : Word) (c : CipherCtx) (e o : Bool) (k : Byte) : (s.finish x y r c e o k).inten = s.inten := rfl
@[simp] theorem finish_res (s : State) (x y : Bytes) (r : Word) (c : CipherCtx) (e o : Bool) (k : Byte) : (s.finish x y r c e o k).res = r := rfl
@[simp] theorem finish_ctx (s : State) (x y : Bytes) (r : Word) (c : CipherCtx) (e o : Bool) (k : Byte) : (s.finish x y r c e o k).ctx = c := rfl
@[simp] theorem finish_seq (s : State) (x y : Bytes) (r : Word) (c : CipherCtx) (e o : Bool) (k : Byte) : (s.finish x y r c e o k).seq = .idle := rfl
@[simp] theorem finish_loop (s : State) (x y : Bytes) (r : Word) (c : CipherCtx) (e o : Bool) (k : Byte) : (s.finish x y r c e o k).loop = LoopEngine.cleared := rfl
@[simp] theorem finish_transient (s : State) (x y : Bytes) (r : Word) (c : CipherCtx) (e o : Bool) (k : Byte) : (s.finish x y r c e o k).transient = CipherCtx.released := rfl
@[simp] theorem finish_cfg (s : State) (x y : Bytes) (r : Word) (c : CipherCtx) (e o : Bool) (k : Byte) : (s.finish x y r c e o k).cfg = s.cfg := rfl
@[simp] theorem finish_drawCount (s : State) (x y : Bytes) (r : Word) (c : CipherCtx) (e o : Bool) (k : Byte) : (s.finish x y r c e o k).drawCount = s.drawCount := rfl
@[simp] theorem finish_agenda (s : State) (x y : Bytes) (r : Word) (c : CipherCtx) (e o : Bool) (k : Byte) : (s.finish x y r c e o k).agenda = s.agenda := rfl
@[simp] theorem finish_busAnswer (s : State) (x y : Bytes) (r : Word) (c : CipherCtx) (e o : Bool) (k : Byte) : (s.finish x y r c e o k).busAnswer = s.busAnswer := rfl

/-! ## complete (10_state.md R41, 60_exceptions.md R206) -/

@[simp] theorem complete_success (s : State) (x y : Bytes) (r : Word) (c : CipherCtx) :
    s.complete (.success x y r c) = s.finish x y r c false true 0 := rfl
@[simp] theorem complete_boolFalse (s : State) (c : CipherCtx) :
    s.complete (.boolFalse c) = s.finish [] [] 0 c false false 0 := rfl
@[simp] theorem complete_error (s : State) (e : ErrorClass) (c : CipherCtx) :
    s.complete (.error e c) = s.finish [] [] 0 c true false e.code := rfl
@[simp] theorem completeError_eq (s : State) (e : ErrorClass) (c : CipherCtx) :
    s.completeError e c = s.finish [] [] 0 c true false e.code := rfl
@[simp] theorem complete_p0 (s : State) (c : Completion) : (s.complete c).p0 = s.p0 := by
  cases c <;> rfl
@[simp] theorem complete_p1 (s : State) (c : Completion) : (s.complete c).p1 = s.p1 := by
  cases c <;> rfl
@[simp] theorem complete_ib0 (s : State) (c : Completion) : (s.complete c).ib0 = s.ib0 := by
  cases c <;> rfl
@[simp] theorem complete_ib1 (s : State) (c : Completion) : (s.complete c).ib1 = s.ib1 := by
  cases c <;> rfl
@[simp] theorem complete_ib2 (s : State) (c : Completion) : (s.complete c).ib2 = s.ib2 := by
  cases c <;> rfl
@[simp] theorem complete_ib3 (s : State) (c : Completion) : (s.complete c).ib3 = s.ib3 := by
  cases c <;> rfl
@[simp] theorem complete_cmd (s : State) (c : Completion) : (s.complete c).cmd = s.cmd := by
  cases c <;> rfl
@[simp] theorem complete_inten (s : State) (c : Completion) : (s.complete c).inten = s.inten := by
  cases c <;> rfl
@[simp] theorem complete_seq (s : State) (c : Completion) : (s.complete c).seq = .idle := by
  cases c <;> rfl
@[simp] theorem complete_loop (s : State) (c : Completion) : (s.complete c).loop = LoopEngine.cleared := by
  cases c <;> rfl
@[simp] theorem complete_transient (s : State) (c : Completion) : (s.complete c).transient = CipherCtx.released := by
  cases c <;> rfl
@[simp] theorem complete_cfg (s : State) (c : Completion) : (s.complete c).cfg = s.cfg := by
  cases c <;> rfl
@[simp] theorem complete_drawCount (s : State) (c : Completion) : (s.complete c).drawCount = s.drawCount := by
  cases c <;> rfl
@[simp] theorem complete_agenda (s : State) (c : Completion) : (s.complete c).agenda = s.agenda := by
  cases c <;> rfl
@[simp] theorem complete_busAnswer (s : State) (c : Completion) : (s.complete c).busAnswer = s.busAnswer := by
  cases c <;> rfl
@[simp] theorem complete_done (s : State) (c : Completion) : (s.complete c).status.done = true := by
  cases c <;> rfl
@[simp] theorem complete_opc (s : State) (c : Completion) : (s.complete c).status.opc = s.status.opc := by
  cases c <;> rfl

/-! ## start (10_state.md R40) -/

@[simp] theorem start_p0 (s : State) (w : Word) : (s.start w).p0 = s.p0 := rfl
@[simp] theorem start_p1 (s : State) (w : Word) : (s.start w).p1 = s.p1 := rfl
@[simp] theorem start_ib0 (s : State) (w : Word) : (s.start w).ib0 = s.ib0 := rfl
@[simp] theorem start_ib1 (s : State) (w : Word) : (s.start w).ib1 = s.ib1 := rfl
@[simp] theorem start_ib2 (s : State) (w : Word) : (s.start w).ib2 = s.ib2 := rfl
@[simp] theorem start_ib3 (s : State) (w : Word) : (s.start w).ib3 = s.ib3 := rfl
@[simp] theorem start_ob0 (s : State) (w : Word) : (s.start w).ob0 = s.ob0 := rfl
@[simp] theorem start_ob1 (s : State) (w : Word) : (s.start w).ob1 = s.ob1 := rfl
@[simp] theorem start_cmd (s : State) (w : Word) : (s.start w).cmd = w := rfl
@[simp] theorem start_status (s : State) (w : Word) : (s.start w).status = { done := false, err := false, ok := false, errcode := 0, opc := opcField w } := rfl
@[simp] theorem start_inten (s : State) (w : Word) : (s.start w).inten = s.inten := rfl
@[simp] theorem start_res (s : State) (w : Word) : (s.start w).res = s.res := rfl
@[simp] theorem start_ctx (s : State) (w : Word) : (s.start w).ctx = s.ctx := rfl
@[simp] theorem start_seq (s : State) (w : Word) : (s.start w).seq = .busy w := rfl
@[simp] theorem start_loop (s : State) (w : Word) : (s.start w).loop = s.loop := rfl
@[simp] theorem start_transient (s : State) (w : Word) : (s.start w).transient = s.transient := rfl
@[simp] theorem start_cfg (s : State) (w : Word) : (s.start w).cfg = s.cfg := rfl
@[simp] theorem start_drawCount (s : State) (w : Word) : (s.start w).drawCount = s.drawCount := rfl
@[simp] theorem start_agenda (s : State) (w : Word) : (s.start w).agenda = s.agenda := rfl
@[simp] theorem start_busAnswer (s : State) (w : Word) : (s.start w).busAnswer = s.busAnswer := rfl

/-! ## acknowledge (60_exceptions.md R209) -/

@[simp] theorem acknowledge_p0 (s : State) : s.acknowledge.p0 = s.p0 := rfl
@[simp] theorem acknowledge_p1 (s : State) : s.acknowledge.p1 = s.p1 := rfl
@[simp] theorem acknowledge_ib0 (s : State) : s.acknowledge.ib0 = s.ib0 := rfl
@[simp] theorem acknowledge_ib1 (s : State) : s.acknowledge.ib1 = s.ib1 := rfl
@[simp] theorem acknowledge_ib2 (s : State) : s.acknowledge.ib2 = s.ib2 := rfl
@[simp] theorem acknowledge_ib3 (s : State) : s.acknowledge.ib3 = s.ib3 := rfl
@[simp] theorem acknowledge_ob0 (s : State) : s.acknowledge.ob0 = s.ob0 := rfl
@[simp] theorem acknowledge_ob1 (s : State) : s.acknowledge.ob1 = s.ob1 := rfl
@[simp] theorem acknowledge_cmd (s : State) : s.acknowledge.cmd = s.cmd := rfl
@[simp] theorem acknowledge_status (s : State) : s.acknowledge.status = { s.status with done := false } := rfl
@[simp] theorem acknowledge_inten (s : State) : s.acknowledge.inten = s.inten := rfl
@[simp] theorem acknowledge_res (s : State) : s.acknowledge.res = s.res := rfl
@[simp] theorem acknowledge_ctx (s : State) : s.acknowledge.ctx = s.ctx := rfl
@[simp] theorem acknowledge_seq (s : State) : s.acknowledge.seq = s.seq := rfl
@[simp] theorem acknowledge_loop (s : State) : s.acknowledge.loop = s.loop := rfl
@[simp] theorem acknowledge_transient (s : State) : s.acknowledge.transient = s.transient := rfl
@[simp] theorem acknowledge_cfg (s : State) : s.acknowledge.cfg = s.cfg := rfl
@[simp] theorem acknowledge_drawCount (s : State) : s.acknowledge.drawCount = s.drawCount := rfl
@[simp] theorem acknowledge_agenda (s : State) : s.acknowledge.agenda = s.agenda := rfl
@[simp] theorem acknowledge_busAnswer (s : State) : s.acknowledge.busAnswer = s.busAnswer := rfl

/-! ## countDraw -/

@[simp] theorem countDraw_p0 (s : State) : s.countDraw.p0 = s.p0 := rfl
@[simp] theorem countDraw_p1 (s : State) : s.countDraw.p1 = s.p1 := rfl
@[simp] theorem countDraw_ib0 (s : State) : s.countDraw.ib0 = s.ib0 := rfl
@[simp] theorem countDraw_ib1 (s : State) : s.countDraw.ib1 = s.ib1 := rfl
@[simp] theorem countDraw_ib2 (s : State) : s.countDraw.ib2 = s.ib2 := rfl
@[simp] theorem countDraw_ib3 (s : State) : s.countDraw.ib3 = s.ib3 := rfl
@[simp] theorem countDraw_ob0 (s : State) : s.countDraw.ob0 = s.ob0 := rfl
@[simp] theorem countDraw_ob1 (s : State) : s.countDraw.ob1 = s.ob1 := rfl
@[simp] theorem countDraw_cmd (s : State) : s.countDraw.cmd = s.cmd := rfl
@[simp] theorem countDraw_status (s : State) : s.countDraw.status = s.status := rfl
@[simp] theorem countDraw_inten (s : State) : s.countDraw.inten = s.inten := rfl
@[simp] theorem countDraw_res (s : State) : s.countDraw.res = s.res := rfl
@[simp] theorem countDraw_ctx (s : State) : s.countDraw.ctx = s.ctx := rfl
@[simp] theorem countDraw_seq (s : State) : s.countDraw.seq = s.seq := rfl
@[simp] theorem countDraw_loop (s : State) : s.countDraw.loop = s.loop := rfl
@[simp] theorem countDraw_transient (s : State) : s.countDraw.transient = s.transient := rfl
@[simp] theorem countDraw_cfg (s : State) : s.countDraw.cfg = s.cfg := rfl
@[simp] theorem countDraw_drawCount (s : State) : s.countDraw.drawCount = s.drawCount + 1 := rfl
@[simp] theorem countDraw_agenda (s : State) : s.countDraw.agenda = s.agenda := rfl
@[simp] theorem countDraw_busAnswer (s : State) : s.countDraw.busAnswer = s.busAnswer := rfl

/-! ## clearInputs (47_symenv.md R197) -/

@[simp] theorem clearInputs_p0 (s : State) : s.clearInputs.p0 = s.p0 := rfl
@[simp] theorem clearInputs_p1 (s : State) : s.clearInputs.p1 = s.p1 := rfl
@[simp] theorem clearInputs_ib0 (s : State) : s.clearInputs.ib0 = Buffer.empty := rfl
@[simp] theorem clearInputs_ib1 (s : State) : s.clearInputs.ib1 = Buffer.empty := rfl
@[simp] theorem clearInputs_ib2 (s : State) : s.clearInputs.ib2 = Buffer.empty := rfl
@[simp] theorem clearInputs_ib3 (s : State) : s.clearInputs.ib3 = Buffer.empty := rfl
@[simp] theorem clearInputs_ob0 (s : State) : s.clearInputs.ob0 = s.ob0 := rfl
@[simp] theorem clearInputs_ob1 (s : State) : s.clearInputs.ob1 = s.ob1 := rfl
@[simp] theorem clearInputs_cmd (s : State) : s.clearInputs.cmd = s.cmd := rfl
@[simp] theorem clearInputs_status (s : State) : s.clearInputs.status = s.status := rfl
@[simp] theorem clearInputs_inten (s : State) : s.clearInputs.inten = s.inten := rfl
@[simp] theorem clearInputs_res (s : State) : s.clearInputs.res = s.res := rfl
@[simp] theorem clearInputs_ctx (s : State) : s.clearInputs.ctx = s.ctx := rfl
@[simp] theorem clearInputs_seq (s : State) : s.clearInputs.seq = s.seq := rfl
@[simp] theorem clearInputs_loop (s : State) : s.clearInputs.loop = s.loop := rfl
@[simp] theorem clearInputs_transient (s : State) : s.clearInputs.transient = s.transient := rfl
@[simp] theorem clearInputs_cfg (s : State) : s.clearInputs.cfg = s.cfg := rfl
@[simp] theorem clearInputs_drawCount (s : State) : s.clearInputs.drawCount = s.drawCount := rfl
@[simp] theorem clearInputs_agenda (s : State) : s.clearInputs.agenda = s.agenda := rfl
@[simp] theorem clearInputs_busAnswer (s : State) : s.clearInputs.busAnswer = s.busAnswer := rfl

/-! ## assertReset (70_reset_and_hazards.md R231) -/

@[simp] theorem assertReset_p0 (s : State) : s.assertReset.p0 = State.reset.p0 := rfl
@[simp] theorem assertReset_p1 (s : State) : s.assertReset.p1 = State.reset.p1 := rfl
@[simp] theorem assertReset_ib0 (s : State) : s.assertReset.ib0 = State.reset.ib0 := rfl
@[simp] theorem assertReset_ib1 (s : State) : s.assertReset.ib1 = State.reset.ib1 := rfl
@[simp] theorem assertReset_ib2 (s : State) : s.assertReset.ib2 = State.reset.ib2 := rfl
@[simp] theorem assertReset_ib3 (s : State) : s.assertReset.ib3 = State.reset.ib3 := rfl
@[simp] theorem assertReset_ob0 (s : State) : s.assertReset.ob0 = State.reset.ob0 := rfl
@[simp] theorem assertReset_ob1 (s : State) : s.assertReset.ob1 = State.reset.ob1 := rfl
@[simp] theorem assertReset_cmd (s : State) : s.assertReset.cmd = State.reset.cmd := rfl
@[simp] theorem assertReset_status (s : State) : s.assertReset.status = State.reset.status := rfl
@[simp] theorem assertReset_inten (s : State) : s.assertReset.inten = State.reset.inten := rfl
@[simp] theorem assertReset_res (s : State) : s.assertReset.res = State.reset.res := rfl
@[simp] theorem assertReset_ctx (s : State) : s.assertReset.ctx = State.reset.ctx := rfl
@[simp] theorem assertReset_seq (s : State) : s.assertReset.seq = State.reset.seq := rfl
@[simp] theorem assertReset_loop (s : State) : s.assertReset.loop = State.reset.loop := rfl
@[simp] theorem assertReset_transient (s : State) : s.assertReset.transient = State.reset.transient := rfl
@[simp] theorem assertReset_cfg (s : State) : s.assertReset.cfg = s.cfg := rfl
@[simp] theorem assertReset_drawCount (s : State) : s.assertReset.drawCount = s.drawCount := rfl
@[simp] theorem assertReset_agenda (s : State) : s.assertReset.agenda = s.agenda := rfl
@[simp] theorem assertReset_busAnswer (s : State) : s.assertReset.busAnswer = State.reset.busAnswer := rfl

/-! ## setIb, the input and output buffers -/

@[simp] theorem setIb_p0 (s : State) (k : Fin 4) (b : Buffer) : (s.setIb k b).p0 = s.p0 := by
  fin_cases k <;> rfl
@[simp] theorem setIb_p1 (s : State) (k : Fin 4) (b : Buffer) : (s.setIb k b).p1 = s.p1 := by
  fin_cases k <;> rfl
@[simp] theorem setIb_ob0 (s : State) (k : Fin 4) (b : Buffer) : (s.setIb k b).ob0 = s.ob0 := by
  fin_cases k <;> rfl
@[simp] theorem setIb_ob1 (s : State) (k : Fin 4) (b : Buffer) : (s.setIb k b).ob1 = s.ob1 := by
  fin_cases k <;> rfl
@[simp] theorem setIb_cmd (s : State) (k : Fin 4) (b : Buffer) : (s.setIb k b).cmd = s.cmd := by
  fin_cases k <;> rfl
@[simp] theorem setIb_status (s : State) (k : Fin 4) (b : Buffer) : (s.setIb k b).status = s.status := by
  fin_cases k <;> rfl
@[simp] theorem setIb_inten (s : State) (k : Fin 4) (b : Buffer) : (s.setIb k b).inten = s.inten := by
  fin_cases k <;> rfl
@[simp] theorem setIb_res (s : State) (k : Fin 4) (b : Buffer) : (s.setIb k b).res = s.res := by
  fin_cases k <;> rfl
@[simp] theorem setIb_ctx (s : State) (k : Fin 4) (b : Buffer) : (s.setIb k b).ctx = s.ctx := by
  fin_cases k <;> rfl
@[simp] theorem setIb_seq (s : State) (k : Fin 4) (b : Buffer) : (s.setIb k b).seq = s.seq := by
  fin_cases k <;> rfl
@[simp] theorem setIb_loop (s : State) (k : Fin 4) (b : Buffer) : (s.setIb k b).loop = s.loop := by
  fin_cases k <;> rfl
@[simp] theorem setIb_transient (s : State) (k : Fin 4) (b : Buffer) : (s.setIb k b).transient = s.transient := by
  fin_cases k <;> rfl
@[simp] theorem setIb_cfg (s : State) (k : Fin 4) (b : Buffer) : (s.setIb k b).cfg = s.cfg := by
  fin_cases k <;> rfl
@[simp] theorem setIb_drawCount (s : State) (k : Fin 4) (b : Buffer) : (s.setIb k b).drawCount = s.drawCount := by
  fin_cases k <;> rfl
@[simp] theorem setIb_agenda (s : State) (k : Fin 4) (b : Buffer) : (s.setIb k b).agenda = s.agenda := by
  fin_cases k <;> rfl
@[simp] theorem setIb_busAnswer (s : State) (k : Fin 4) (b : Buffer) : (s.setIb k b).busAnswer = s.busAnswer := by
  fin_cases k <;> rfl
theorem setIb_ib (s : State) (k j : Fin 4) (b : Buffer) : (s.setIb k b).ib j = if j = k then b else s.ib j := by
  fin_cases k <;> fin_cases j <;> rfl
@[simp] theorem setIb_ib_same (s : State) (k : Fin 4) (b : Buffer) : (s.setIb k b).ib k = b := by
  simp [setIb_ib]
@[simp] theorem setIb_ob (s : State) (k : Fin 4) (j : Fin 2) (b : Buffer) : (s.setIb k b).ob j = s.ob j := by
  fin_cases k <;> fin_cases j <;> rfl
@[simp] theorem ib_zero (s : State) : s.ib 0 = s.ib0 := rfl
@[simp] theorem ib_one (s : State) : s.ib 1 = s.ib1 := rfl
@[simp] theorem ib_two (s : State) : s.ib 2 = s.ib2 := rfl
@[simp] theorem ib_three (s : State) : s.ib 3 = s.ib3 := rfl
@[simp] theorem ob_zero (s : State) : s.ob 0 = s.ob0 := rfl
@[simp] theorem ob_one (s : State) : s.ob 1 = s.ob1 := rfl
@[simp] theorem ofBytes_len (x : Bytes) : (Buffer.ofBytes x).len = x.length := rfl
@[simp] theorem ofBytes_mem (x : Bytes) : (Buffer.ofBytes x).mem = Memory.ofBytes x := rfl
@[simp] theorem successOb0_eq (s : State) (x : Bytes) : s.successOb0 x = .success x [] 0 s.ctx := rfl
@[simp] theorem raise_eq (s : State) (e : ErrorClass) : s.raise e = .error e s.ctx := rfl
@[simp] theorem ofExcept_ok (s : State) (x : Bytes) : s.ofExcept (.ok x) = .success x [] 0 s.ctx := rfl
@[simp] theorem ofExcept_error (s : State) (e : ErrorClass) : s.ofExcept (.error e) = .error e s.ctx := rfl

/-! ## The step -/

/-- An empty agenda leaves the step to the engine. -/
theorem step_nil {s : State} (h : s.agenda = []) : step s = s.engineStep := by
  simp [step, h]

/-- A listed event is taken off the agenda and run. -/
theorem step_cons {s : State} {e : Event} {rest : List Event} (h : s.agenda = e :: rest) :
    step s = State.runEvent { s with agenda := rest } e := by
  simp [step, h]

theorem engineStep_idle {s : State} (h : s.seq = .idle) : s.engineStep = .next s := by
  simp [State.engineStep, h]

theorem engineStep_legal {s : State} {w : Word} {i : Instr} (h : s.seq = .busy w) (hd : decode w = .ok i) :
    s.engineStep = exec i s := by
  simp [State.engineStep, h, hd]

theorem engineStep_illegal {s : State} {w : Word} {r : Illegal} (h : s.seq = .busy w) (hd : decode w = .error r) :
    s.engineStep = .next (s.completeError .illegalCommand s.ctx) := by
  simp [State.engineStep, h, hd]


end Sys2Proof.Machine
end

