-- ==== Sys2Proof/Laws/Exec.lean ====
section
/-! SUPPORT. Everything the execution of a command can do (10_state.md R41): it completes, with one outcome, from the
state it was given, or with one draw counted, or with the input buffers cleared. -/

namespace Sys2Proof

/-- A command that takes a draw, at most one (70_reset_and_hazards.md R237). -/
def Instr.Draws (i : Instr) : Prop := (∃ a, i = .oaepenc a) ∨ (∃ a, i = .pssenc a) ∨ ∃ v, i = .ctxnew true v

/-- A command that writes the context slot (47_symenv.md R179). -/
def Instr.Slots (i : Instr) : Prop :=
  (∃ r v, i = .ctxnew r v) ∨ i = .ctxrel ∨ (∃ v, i = .symenc v) ∨ ∃ v, i = .symdec v

end Sys2Proof

namespace Sys2Proof.Machine

/-- The context slot an outcome leaves. -/
def Completion.slot : Completion → CipherCtx
  | .success _ _ _ c => c
  | .boolFalse c => c
  | .error _ c => c

/-- The two output strings an outcome leaves. -/
def Completion.outs : Completion → Bytes × Bytes
  | .success x y _ _ => (x, y)
  | .boolFalse _ => ([], [])
  | .error _ _ => ([], [])

@[simp] theorem complete_ctx_slot (s : State) (c : Completion) : (s.complete c).ctx = c.slot := by cases c <;> rfl
@[simp] theorem complete_ob0_outs (s : State) (c : Completion) : (s.complete c).ob0 = Buffer.ofBytes c.outs.1 := by
  cases c <;> rfl
@[simp] theorem complete_ob1_outs (s : State) (c : Completion) : (s.complete c).ob1 = Buffer.ofBytes c.outs.2 := by
  cases c <;> rfl

theorem ofExcept_slot (s : State) (e : Except ErrorClass Bytes) : (s.ofExcept e).slot = s.ctx := by cases e <;> rfl

theorem sizeResult_slot (s : State) (n : Option Nat) : (s.sizeResult n).slot = s.ctx := by cases n <;> rfl

theorem mgf1Result_slot (s : State) (a : Half) : (s.mgf1Result a).slot = s.ctx := by
  unfold State.mgf1Result
  split
  · rfl
  · split <;> rfl

theorem kdfaResult_slot (s : State) (a : Half) : (s.kdfaResult a).slot = s.ctx := by
  unfold State.kdfaResult
  split
  · rfl
  · split <;> rfl

theorem splitResult_slot (s : State) : s.splitResult.slot = s.ctx := by
  unfold State.splitResult
  split <;> rfl

theorem kdfxorResult_slot (s : State) (a : Half) : (s.kdfxorResult a).slot = s.ctx := by
  unfold State.kdfxorResult
  split
  · rfl
  · exact ofExcept_slot _ _

theorem oaepdecResult_slot (s : State) (a : Half) : (s.oaepdecResult a).slot = s.ctx := by
  unfold State.oaepdecResult
  split
  · rfl
  · split <;> rfl

theorem pssvfyResult_slot (s : State) (a : Half) : (s.pssvfyResult a).slot = s.ctx := by
  unfold State.pssvfyResult
  split
  · rfl
  · split <;> rfl

theorem p15encResult_slot (s : State) (a : Half) : (s.p15encResult a).slot = s.ctx := by
  unfold State.p15encResult
  split
  · rfl
  · split
    · rfl
    · split <;> rfl

theorem deenvResult_slot (s : State) (a : Half) : (s.deenvResult a).slot = s.ctx := by
  unfold State.deenvResult
  split
  · rfl
  · exact ofExcept_slot _ _

/-- Everything a command can do to the state: it completes with an outcome `c`, from `s` itself, from `s` with one draw
counted (then `c` is a success), or, for CLRBUF, from `s` with the input buffers cleared. The slot is `s`'s, but for the
four commands that write it. -/
theorem exec_cases (i : Instr) (s : State) :
    ∃ s0 c, exec i s = .next (s0.complete c) ∧ (c.slot = s.ctx ∨ i.Slots) ∧
      (s0 = s ∨ (s0 = s.countDraw ∧ i.Draws ∧ ∃ x y r d, c = .success x y r d) ∨
        (s0 = s.clearInputs ∧ i = .clrbuf)) := by
  cases i with
  | digsz a => exact ⟨s, _, rfl, .inl (sizeResult_slot _ _), .inl rfl⟩
  | blksz a => exact ⟨s, _, rfl, .inl (sizeResult_slot _ _), .inl rfl⟩
  | ishash a => exact ⟨s, _, rfl, .inl rfl, .inl rfl⟩
  | mgf1 a => exact ⟨s, _, rfl, .inl (mgf1Result_slot _ _), .inl rfl⟩
  | kdfa a => exact ⟨s, _, rfl, .inl (kdfaResult_slot _ _), .inl rfl⟩
  | split => exact ⟨s, _, rfl, .inl (splitResult_slot _), .inl rfl⟩
  | xor => exact ⟨s, _, rfl, .inl (ofExcept_slot _ _), .inl rfl⟩
  | xorp => exact ⟨s, _, rfl, .inl rfl, .inl rfl⟩
  | kdfxor a => exact ⟨s, _, rfl, .inl (kdfxorResult_slot _ _), .inl rfl⟩
  | oaepenc a =>
    simp only [exec, execOaepenc]
    cases s.oaepencCheck a with
    | error e => exact ⟨s, _, rfl, .inl rfl, .inl rfl⟩
    | ok h => exact ⟨s.countDraw, _, rfl, .inl rfl, .inr (.inl ⟨rfl, .inl ⟨a, rfl⟩, _, _, _, _, rfl⟩)⟩
  | oaepdec a => exact ⟨s, _, rfl, .inl (oaepdecResult_slot _ _), .inl rfl⟩
  | pssenc a =>
    simp only [exec, execPssenc]
    cases s.pssencCheck a with
    | error e => exact ⟨s, _, rfl, .inl rfl, .inl rfl⟩
    | ok h => exact ⟨s.countDraw, _, rfl, .inl rfl, .inr (.inl ⟨rfl, .inr (.inl ⟨a, rfl⟩), _, _, _, _, rfl⟩)⟩
  | pssvfy a => exact ⟨s, _, rfl, .inl (pssvfyResult_slot _ _), .inl rfl⟩
  | p15enc a => exact ⟨s, _, rfl, .inl (p15encResult_slot _ _), .inl rfl⟩
  | ctxnew r v =>
    simp only [exec, execCtxnew]
    cases s.ctxnewCheck r v with
    | error e => exact ⟨s, _, rfl, .inr (.inl ⟨r, v, rfl⟩), .inl rfl⟩
    | ok bs =>
      cases r with
      | false => exact ⟨s, _, rfl, .inr (.inl ⟨false, v, rfl⟩), .inl rfl⟩
      | true =>
        exact ⟨s.countDraw, _, rfl, .inr (.inl ⟨true, v, rfl⟩),
          .inr (.inl ⟨rfl, .inr (.inr ⟨v, rfl⟩), _, _, _, _, rfl⟩)⟩
  | ctxrel => exact ⟨s, _, rfl, .inr (.inr (.inl rfl)), .inl rfl⟩
  | symenc v => exact ⟨s, _, rfl, .inr (.inr (.inr (.inl ⟨v, rfl⟩))), .inl rfl⟩
  | symdec v => exact ⟨s, _, rfl, .inr (.inr (.inr (.inr ⟨v, rfl⟩))), .inl rfl⟩
  | deenv a => exact ⟨s, _, rfl, .inl (deenvResult_slot _ _), .inl rfl⟩
  | clrbuf => exact ⟨s.clearInputs, _, rfl, .inl rfl, .inr (.inr ⟨rfl, rfl⟩)⟩

/-- Everything the checks of OAEPENC can answer (44_oaep.md R137). -/
theorem oaepencCheck_cases {s : State} {alg : Half} {h : RealHash} (ha : realHash? alg = some h) :
    (s.p0n < s.ib0.len + 2 * digestSize h + 2 ∧ s.oaepencCheck alg = .error .messageTooLong) ∨
    (s.ib0.len + 2 * digestSize h + 2 ≤ s.p0n ∧ s.cfg.bufcap < s.p0n - 1 ∧
      s.oaepencCheck alg = .error .capacity) ∨
    (s.ib0.len + 2 * digestSize h + 2 ≤ s.p0n ∧ s.p0n - 1 ≤ s.cfg.bufcap ∧ s.oaepencCheck alg = .ok h) := by
  simp only [State.oaepencCheck, ha]
  split
  · exact .inl ⟨by omega, rfl⟩
  · split
    · exact .inr (.inl ⟨by omega, by omega, rfl⟩)
    · exact .inr (.inr ⟨by omega, by omega, rfl⟩)

/-- Everything the checks of PSSENC can answer (45_pss.md R151). -/
theorem pssencCheck_cases {s : State} {alg : Half} {h : RealHash} (ha : realHash? alg = some h) :
    (ceilDiv s.p1n 8 < digestSize h + s.p0n + 2 ∧ s.pssencCheck alg = .error .encodingError) ∨
    (digestSize h + s.p0n + 2 ≤ ceilDiv s.p1n 8 ∧ s.cfg.bufcap < ceilDiv s.p1n 8 ∧
      s.pssencCheck alg = .error .capacity) ∨
    (digestSize h + s.p0n + 2 ≤ ceilDiv s.p1n 8 ∧ ceilDiv s.p1n 8 ≤ s.cfg.bufcap ∧ s.pssencCheck alg = .ok h) := by
  simp only [State.pssencCheck, ha]
  split
  · exact .inl ⟨by omega, rfl⟩
  · split
    · exact .inr (.inl ⟨by omega, by omega, rfl⟩)
    · exact .inr (.inr ⟨by omega, by omega, rfl⟩)

/-- Everything the checks of CTXNEW can answer (47_symenv.md R177). -/
theorem ctxnewCheck_cases (s : State) (rndkey ivset : Bool) :
    (symBlock s.cfg s.p0 s.p1n = none ∧ s.ctxnewCheck rndkey ivset = .error .unsupportedAlgorithm) ∨
    ∃ bs, symBlock s.cfg s.p0 s.p1n = some bs ∧
      (((rndkey = false ∧ 8 * s.ib0.len ≠ s.p1n ∨ ivset = true ∧ s.ib1.len ≠ bs) ∧
          s.ctxnewCheck rndkey ivset = .error .malformedInput) ∨
        ((rndkey = false → 8 * s.ib0.len = s.p1n) ∧ (ivset = true → s.ib1.len = bs) ∧
          s.ctxnewCheck rndkey ivset = .ok bs)) := by
  unfold State.ctxnewCheck
  cases hb : symBlock s.cfg s.p0 s.p1n with
  | none => exact .inl ⟨rfl, rfl⟩
  | some bs =>
    refine .inr ⟨bs, rfl, ?_⟩
    by_cases h1 : rndkey = false ∧ 8 * s.ib0.len ≠ s.p1n
    · exact .inl ⟨.inl h1, by simp only [if_pos h1]⟩
    · by_cases h2 : ivset = true ∧ s.ib1.len ≠ bs
      · exact .inl ⟨.inr h2, by simp only [if_neg h1, if_pos h2]⟩
      · refine .inr ⟨?_, ?_, by simp only [if_neg h1, if_neg h2]⟩
        · intro h; by_contra c; exact h1 ⟨h, c⟩
        · intro h; by_contra c; exact h2 ⟨h, c⟩

end Sys2Proof.Machine
end

