-- ==== Sys2Proof/Laws/Hashes.lean ====
section
/-! SUPPORT. The hash algorithm identifiers (40_catalog.md R90): the table the statements use and the decoder of the ALG
field agree. -/

namespace Sys2Proof.Machine

theorem mem_hashTable_iff {alg : Half} {h : RealHash} : (alg, h) ∈ hashTable ↔ realHash? alg = some h := by
  unfold realHash? algClass hashTable
  split_ifs <;> cases h <;> simp_all

theorem not_mem_hashTable_iff {alg : Half} : alg ∉ hashTable.map Prod.fst ↔ realHash? alg = none := by
  unfold realHash? algClass hashTable
  split_ifs <;> simp_all

theorem isHash_iff {alg : Half} : isHash alg = true ↔ alg ∈ hashTable.map Prod.fst := by
  rw [← not_iff_not, not_mem_hashTable_iff, isHash]; simp

end Sys2Proof.Machine
end

