-- ==== Sys2Proof/Laws/HostAccess.lean ====
section
/-! SUPPORT. Host accesses: everything an access can do, and where the registers stand (10_state.md R32; 48_laws.md
R224). -/

namespace Sys2Proof.Machine

/-! ## The register map -/

theorem regAt_offset (r : Reg) : r.offset % 4 = 0 ∧ Reg.at? r.offset = some r := by
  cases r <;> first | decide | (rename_i k; fin_cases k <;> decide)

theorem offset_of_regAt {o : Nat} {r : Reg} (h : Reg.at? o = some r) : r.offset = o := by
  have := List.find?_some h
  simpa using this

theorem rd_place (r : Reg) : (rd r).window = 0 ∧ (rd r).inner = r.offset := by
  cases r <;> first | decide | (rename_i k; fin_cases k <;> decide)

theorem wr_place (r : Reg) (v : Word) : (wr r v).window = 0 ∧ (wr r v).inner = r.offset := rd_place r

/-! ## Everything an access can do -/

theorem window_lt (a : Access) : a.window < 8 := by
  have := a.off.isLt
  unfold Access.window; omega

/-- An access goes to the registers, to one buffer, or nowhere (R224). -/
theorem hostAccess_cases (s : State) (a : Access) :
    (a.window = 0 ∧ s.hostAccess a = s.regAccess a a.inner) ∨
    (∃ k : Fin 4, a.window = k.val + 1 ∧ s.hostAccess a = s.ibAccess k a a.inner) ∨
    (∃ k : Fin 2, a.window = k.val + 5 ∧ s.hostAccess a = s.obAccess k a a.inner) ∨
    (a.window = 7 ∧ s.hostAccess a = (s, .error)) := by
  have hlt := window_lt a
  have : a.window = 0 ∨ a.window = 1 ∨ a.window = 2 ∨ a.window = 3 ∨ a.window = 4 ∨ a.window = 5 ∨ a.window = 6 ∨
      a.window = 7 := by omega
  rcases this with h | h | h | h | h | h | h | h
  · exact .inl ⟨h, by simp [State.hostAccess, h]⟩
  · exact .inr (.inl ⟨0, h, by simp [State.hostAccess, h]⟩)
  · exact .inr (.inl ⟨1, h, by simp [State.hostAccess, h]⟩)
  · exact .inr (.inl ⟨2, h, by simp [State.hostAccess, h]⟩)
  · exact .inr (.inl ⟨3, h, by simp [State.hostAccess, h]⟩)
  · exact .inr (.inr (.inl ⟨0, h, by simp [State.hostAccess, h]⟩))
  · exact .inr (.inr (.inl ⟨1, h, by simp [State.hostAccess, h]⟩))
  · exact .inr (.inr (.inr ⟨h, by simp [State.hostAccess, h]⟩))

/-- Everything an access to sub-window 0 can do: a bus error without effect, a register read, or a register write
while idle. -/
theorem regAccess_cases (s : State) (a : Access) (o : Nat) :
    s.regAccess a o = (s, .error) ∨
    (∃ r, Reg.at? o = some r ∧ a.kind = .read ∧ s.regAccess a o = (s, .okayData (s.readReg r))) ∨
    (∃ r t, Reg.at? o = some r ∧ a.kind = .write ∧ s.seq = .idle ∧ s.writeReg r a.data = some t ∧
      s.regAccess a o = (t, .okay)) := by
  unfold State.regAccess
  split
  · exact .inl rfl
  split
  · exact .inl rfl
  rename_i r hr
  split
  · rename_i hk; exact .inr (.inl ⟨r, hr, hk, rfl⟩)
  rename_i hk
  split
  · exact .inl rfl
  rename_i hb
  split
  · exact .inl rfl
  rename_i t ht
  refine .inr (.inr ⟨r, t, hr, hk, ?_, ht, rfl⟩)
  unfold State.busy at hb
  cases hs : s.seq with
  | idle => rfl
  | busy w => simp [hs] at hb

theorem bufferAdmits_iff (s : State) (a : Access) (o : Nat) :
    s.bufferAdmits a o = true ↔
      s.seq = .idle ∧ (a.size = 1 ∨ a.size = 2 ∨ a.size = 4) ∧ o % a.size = 0 ∧ o + a.size ≤ s.cfg.bufcap := by
  cases hs : s.seq <;> simp [State.bufferAdmits, State.busy, hs]; tauto

/-- Everything an access to an input buffer can do. -/
theorem ibAccess_cases (s : State) (k : Fin 4) (a : Access) (o : Nat) :
    (s.bufferAdmits a o = false ∧ s.ibAccess k a o = (s, .error)) ∨
    (s.bufferAdmits a o = true ∧ a.kind = .read ∧
      s.ibAccess k a o = (s, .okayData (bufferData (s.ib k) o a.size))) ∨
    (s.bufferAdmits a o = true ∧ a.kind = .write ∧
      s.ibAccess k a o =
        (s.setIb k { s.ib k with mem := (s.ib k).mem.writeLanes o a.data.toNat a.size }, .okay)) := by
  unfold State.ibAccess
  cases ha : s.bufferAdmits a o <;> cases hk : a.kind <;> simp

/-- Everything an access to an output buffer can do. -/
theorem obAccess_cases (s : State) (k : Fin 2) (a : Access) (o : Nat) :
    s.obAccess k a o = (s, .error) ∨
    (s.bufferAdmits a o = true ∧ a.kind = .read ∧
      s.obAccess k a o = (s, .okayData (bufferData (s.ob k) o a.size))) := by
  unfold State.obAccess
  cases ha : s.bufferAdmits a o <;> cases hk : a.kind <;> simp

/-- What a register write leaves (R224). -/
theorem writeReg_cases {s t : State} {r : Reg} {v : Word} (h : s.writeReg r v = some t) :
    t = s.start v ∨ t = s ∨ t = s.acknowledge ∨ t = { s with inten := intenWritten v } ∨ t = { s with p0 := v } ∨
      t = { s with p1 := v } ∨
      ∃ k, v.toNat ≤ s.cfg.bufcap ∧ t = s.setIb k { s.ib k with len := v.toNat } := by
  cases r with
  | cmd => exact .inl (Option.some.inj h).symm
  | status =>
    have := (Option.some.inj h).symm
    split at this
    · exact .inr (.inr (.inl this))
    · exact .inr (.inl this)
  | inten => exact .inr (.inr (.inr (.inl (Option.some.inj h).symm)))
  | p0 => exact .inr (.inr (.inr (.inr (.inl (Option.some.inj h).symm))))
  | p1 => exact .inr (.inr (.inr (.inr (.inr (.inl (Option.some.inj h).symm)))))
  | ibLen k =>
    simp only [State.writeReg] at h
    split at h
    · simp at h
    · exact .inr (.inr (.inr (.inr (.inr (.inr ⟨k, by omega, (Option.some.inj h).symm⟩)))))
  | id => simp [State.writeReg] at h
  | version => simp [State.writeReg] at h
  | cap => simp [State.writeReg] at h
  | res => simp [State.writeReg] at h
  | obLen k => simp [State.writeReg] at h
  | ctxDef => simp [State.writeReg] at h
  | ctxKeybits => simp [State.writeReg] at h
  | ctxStat => simp [State.writeReg] at h

/-! ## The bytes of a buffer sub-window -/

theorem setIb_windowByte (s : State) (k : Fin 4) (b : Buffer) (w o : Nat) :
    (s.setIb k b).windowByte w o = if w = k.val + 1 then b.mem.read o else s.windowByte w o := by
  by_cases h : w = k.val + 1
  · subst h; fin_cases k <;> rfl
  · rw [if_neg h]
    unfold State.windowByte
    fin_cases k <;> (split <;> first | rfl | (exfalso; apply h; rfl))

theorem windowByte_ib (s : State) (k : Fin 4) (o : Nat) : s.windowByte (k.val + 1) o = (s.ib k).mem.read o := by
  fin_cases k <;> rfl

theorem windowByte_ob (s : State) (k : Fin 2) (o : Nat) : s.windowByte (k.val + 5) o = (s.ob k).mem.read o := by
  fin_cases k <;> rfl

/-! ## Register words as numbers -/

theorem append_toNat {n m : Nat} (x : BitVec n) (y : BitVec m) : (x ++ y).toNat = x.toNat * 2 ^ m + y.toNat := by
  rw [BitVec.toNat_append, ← Nat.shiftLeft_add_eq_or_of_lt y.isLt, Nat.shiftLeft_eq]

end Sys2Proof.Machine
end

