-- ==== Sys2Proof/Laws/Loops.lean ====
section
/-! SUPPORT. What the two loop controllers hold when they end (41_mgf1.md R101; 42_kdfa.md R111). -/

namespace Sys2Proof.Machine

/-- `BE32` sees its number modulo 2^32, so a 32-bit counter that wraps is harmless (log entry 13). -/
theorem bytesN_mod (n v : Nat) : bytesN n (v % 256 ^ n) = bytesN n v := by
  induction n generalizing v with
  | zero => rfl
  | succ n ih =>
    rw [bytesN, bytesN, pow_succ', Nat.mod_mul_right_div_self, ih]
    congr 2
    apply BitVec.eq_of_toNat_eq
    simp [Nat.mod_mul]

theorem be32_ctr (j : Nat) : be32 (BitVec.ofNat 32 j).toNat = be32 j := by
  have := bytesN_mod 4 j
  simpa [be32] using this

theorem range_succ_flatMap {α : Type} (f : Nat → List α) (n : Nat) :
    (List.range (n + 1)).flatMap f = (List.range n).flatMap f ++ f n := by
  simp [List.range_succ, List.flatMap_append]

theorem flatMap_range_length {α : Type} (f : Nat → List α) (n k : Nat) (hf : ∀ j, (f j).length = k) :
    ((List.range n).flatMap f).length = n * k := by
  induction n with
  | zero => simp
  | succ n ih => rw [range_succ_flatMap, List.length_append, ih, hf]; ring

/-- The concatenation of the first `n` digests (R100). -/
def mgf1Digests (cfg : Config) (h : RealHash) (seed : Bytes) (n : Nat) : Bytes :=
  (List.range n).flatMap fun j => providerHash cfg h (seed ++ be32 j)

@[simp] theorem mgf1Digests_length (cfg : Config) (h : RealHash) (seed : Bytes) (n : Nat) :
    (mgf1Digests cfg h seed n).length = n * digestSize h :=
  flatMap_range_length _ _ _ fun _ => by simp

theorem mgf1Digests_mono {cfg : Config} {h : RealHash} {seed : Bytes} {n k : Nat} (hnk : n ≤ k) :
    mgf1Digests cfg h seed n <+: mgf1Digests cfg h seed k := by
  induction k with
  | zero => simp [Nat.le_zero.mp hnk]
  | succ k ih =>
    rcases Nat.lt_or_eq_of_le hnk with hlt | rfl
    · refine (ih (by omega)).trans ?_
      unfold mgf1Digests
      rw [range_succ_flatMap]
      exact List.prefix_append _ _
    · exact List.prefix_rfl

theorem mul_lt_iff_lt_ceilDiv (j len : Nat) {k : Nat} (hk : 0 < k) : j * k < len ↔ j < ceilDiv len k := by
  unfold ceilDiv
  rw [← Nat.add_one_le_iff (m := (len + (k - 1)) / k), Nat.le_div_iff_mul_le hk, Nat.add_mul, Nat.one_mul]
  omega

theorem mgf1Loop_eq (cfg : Config) (h : RealHash) (seed : Bytes) (len n j : Nat)
    (hj : j ≤ ceilDiv len (digestSize h)) (hn : ceilDiv len (digestSize h) ≤ j + n) :
    mgf1Loop cfg h seed len n ⟨BitVec.ofNat 32 j, mgf1Digests cfg h seed j⟩ =
      ⟨BitVec.ofNat 32 (ceilDiv len (digestSize h)), mgf1Digests cfg h seed (ceilDiv len (digestSize h))⟩ := by
  induction n generalizing j with
  | zero =>
    have : j = ceilDiv len (digestSize h) := by omega
    simp [mgf1Loop, this]
  | succ n ih =>
    unfold mgf1Loop
    rw [mgf1Digests_length]
    by_cases hlt : j * digestSize h < len
    · rw [if_pos hlt]
      have hj' := (mul_lt_iff_lt_ceilDiv j len (digestSize_pos h)).mp hlt
      have := ih (j + 1) (by omega) (by omega)
      rw [← this]
      congr 1
      simp only [mgf1Turn, be32_ctr, LoopEngine.mk.injEq]
      refine ⟨by simp [BitVec.ofNat_add], ?_⟩
      unfold mgf1Digests
      rw [range_succ_flatMap]
    · rw [if_neg hlt]
      have : ¬ j < ceilDiv len (digestSize h) := fun c => hlt ((mul_lt_iff_lt_ceilDiv j len (digestSize_pos h)).mpr c)
      have : j = ceilDiv len (digestSize h) := by omega
      rw [this]

theorem ceilDiv_le (len : Nat) {k : Nat} (hk : 0 < k) : ceilDiv len k ≤ len := by
  by_contra hc
  have := (mul_lt_iff_lt_ceilDiv len len hk).mpr (by omega)
  have : len * 1 ≤ len * k := Nat.mul_le_mul_left _ hk
  omega

/-- The engine of R101 at the end of its loop. -/
theorem mgf1Controller_eq (cfg : Config) (h : RealHash) (seed : Bytes) (len : Nat) :
    mgf1Controller cfg h seed len =
      ⟨BitVec.ofNat 32 (ceilDiv len (digestSize h)), mgf1Digests cfg h seed (ceilDiv len (digestSize h))⟩ :=
  mgf1Loop_eq cfg h seed len len 0 (Nat.zero_le _) (by simpa using ceilDiv_le len (digestSize_pos h))

/-- The controller computes the mask R100 defines. -/
theorem mgf1_eq_defined (cfg : Config) (h : RealHash) (seed : Bytes) (len : Nat) :
    mgf1 cfg h seed len = mgf1Defined cfg h seed len := by
  rw [mgf1, mgf1Controller_eq]; rfl

/-! ## KDFa -/

/-- The concatenation of the first `k` HMAC answers (42_kdfa.md R110), X_1 first. -/
def kdfaStream (cfg : Config) (h : RealHash) (key label u v : Bytes) (n k : Nat) : Bytes :=
  (List.range k).flatMap fun j => providerHmac cfg h key (kdfaInput label u v n (j + 1))

theorem kdfaInput_ctr (label u v : Bytes) (n j : Nat) :
    kdfaInput label u v n (BitVec.ofNat 32 j).toNat = kdfaInput label u v n j := by
  simp only [kdfaInput, be32_ctr]

theorem kdfaLoop_eq (cfg : Config) (h : RealHash) (key label u v : Bytes) (n k j : Nat) :
    kdfaLoop cfg h key label u v n k ⟨BitVec.ofNat 32 (j + 1), kdfaStream cfg h key label u v n j⟩ =
      ⟨BitVec.ofNat 32 (j + k + 1), kdfaStream cfg h key label u v n (j + k)⟩ := by
  induction k generalizing j with
  | zero => rfl
  | succ k ih =>
    have := ih (j + 1)
    rw [show j + (k + 1) = j + 1 + k by omega, ← this, kdfaLoop]
    congr 1
    simp only [kdfaInput_ctr, LoopEngine.mk.injEq]
    refine ⟨by simp [BitVec.ofNat_add], ?_⟩
    unfold kdfaStream
    rw [range_succ_flatMap]

/-- The engine of R111 at the end of its loop: CTR one past the number of turns, ACC the whole stream. -/
theorem kdfaController_eq (cfg : Config) (h : RealHash) (key label u v : Bytes) (n : Nat) :
    kdfaController cfg h key label u v n =
      ⟨BitVec.ofNat 32 (kdfaLoops h n + 1), kdfaStream cfg h key label u v n (kdfaLoops h n)⟩ := by
  have := kdfaLoop_eq cfg h key label u v n (kdfaLoops h n) 0
  rw [Nat.zero_add (kdfaLoops h n)] at this
  exact this

end Sys2Proof.Machine
end

