-- ==== Sys2Proof/Laws/PerInstr.lean ====
section
/-! SUPPORT. Statements made for every command: its word has the OPC and the ALG field of its row, and the command is
well-formed (30_encoding.md R70, R74, R82). -/

namespace Sys2Proof.Laws.RowOfWord

open Sys2Proof

/-- The word of the command carries the OPC of its row of R74 and the command's ALG field, and the command has the
fields its row allows. -/
def Statement (i : Instr) : Prop :=
  opcField (encode i) = i.asm.mnemonic.opc ∧ algField (encode i) = i.asm.alg.getD 0#16 ∧ i.wellFormed = true

/-- The first two parts hold of every assembler command. -/
theorem of_wellFormed (i : Instr) (h : i.wellFormed = true) : Statement i :=
  ⟨(encodeAsm_fields i.asm).1, (encodeAsm_fields i.asm).2.2, h⟩

theorem digsz (alg : Half) : Statement (.digsz alg) := of_wellFormed _ rfl
theorem blksz (alg : Half) : Statement (.blksz alg) := of_wellFormed _ rfl
theorem ishash (alg : Half) : Statement (.ishash alg) := of_wellFormed _ rfl
theorem mgf1 (alg : Half) : Statement (.mgf1 alg) := of_wellFormed _ rfl
theorem kdfa (alg : Half) : Statement (.kdfa alg) := of_wellFormed _ rfl
theorem split : Statement .split := of_wellFormed _ rfl
theorem xor : Statement .xor := of_wellFormed _ rfl
theorem xorp : Statement .xorp := of_wellFormed _ rfl
theorem kdfxor (alg : Half) : Statement (.kdfxor alg) := of_wellFormed _ rfl
theorem oaepenc (alg : Half) : Statement (.oaepenc alg) := of_wellFormed _ rfl
theorem oaepdec (alg : Half) : Statement (.oaepdec alg) := of_wellFormed _ rfl
theorem pssenc (alg : Half) : Statement (.pssenc alg) := of_wellFormed _ rfl
theorem pssvfy (alg : Half) : Statement (.pssvfy alg) := of_wellFormed _ rfl
theorem p15enc (alg : Half) : Statement (.p15enc alg) := of_wellFormed _ rfl
theorem ctxnew (rndkey ivset : Bool) : Statement (.ctxnew rndkey ivset) :=
  of_wellFormed _ (by cases rndkey <;> cases ivset <;> rfl)
theorem ctxrel : Statement .ctxrel := of_wellFormed _ rfl
theorem symenc (ivset : Bool) : Statement (.symenc ivset) := of_wellFormed _ (by cases ivset <;> rfl)
theorem symdec (ivset : Bool) : Statement (.symdec ivset) := of_wellFormed _ (by cases ivset <;> rfl)
theorem deenv (alg : Half) : Statement (.deenv alg) := of_wellFormed _ rfl
theorem clrbuf : Statement .clrbuf := of_wellFormed _ rfl

end Sys2Proof.Laws.RowOfWord
end

