-- ==== Sys2Proof/Tests/Slice0.lean ====
section
/-! SUPPORT. Tests: the well-formedness checks, decoding of words written out from the spec, the spec's own vectors
(95_test_vectors.md), one step each, and a witness for the hypotheses of every obligation that has some. The answers
the provider is given here are those the spec's vectors rest on (93_implementation_defined.md G9). -/

namespace Sys2Proof.Tests

open Sys2Proof Sys2Proof.Machine

/-! ## Well-formedness (30_encoding.md R71, R72, R73, R82) -/

/-- `DIGSZ` without an algorithm. -/
theorem smoke_alg_missing : AsmCommand.wellFormed ⟨.digsz, false, false, none⟩ = false := by decide
/-- `SPLIT SHA1`: format N carries none. -/
theorem smoke_alg_forbidden : AsmCommand.wellFormed ⟨.split, false, false, some 0x0004#16⟩ = false := by decide
/-- `SYMENC.RND`. -/
theorem smoke_rnd : AsmCommand.wellFormed ⟨.symenc, true, false, none⟩ = false := by decide
/-- `MGF1.IV SHA1`. -/
theorem smoke_iv : AsmCommand.wellFormed ⟨.mgf1, false, true, some 0x0004#16⟩ = false := by decide
theorem smoke_accepted : AsmCommand.wellFormed ⟨.ctxnew, true, true, none⟩ = true := by decide

/-! ## Decoding: the words of 30_encoding.md R74, R82 and 95_test_vectors.md 2.10, bit for bit

ALG in bits 31:16, FLG in 15:8 (IVSET bit 9, RNDKEY bit 8), OPC in 7:0. -/

theorem test_decode_catalog :
    decode 0b00000000000001000000000000000001#32 = .ok (.digsz 0x0004#16) ∧
    decode 0b00000000000011000000000000000010#32 = .ok (.blksz 0x000C#16) ∧
    decode 0b00000000000100100000000000000011#32 = .ok (.ishash 0x0012#16) := by decide

theorem test_decode_mgf1 : decode 0b00000000000010110000000000010000#32 = .ok (.mgf1 0x000B#16) := by decide

theorem test_decode_kdfa_split :
    decode 0b10000000000000010000000000100000#32 = .ok (.kdfa 0x8001#16) ∧
    decode 0b00000000000000000000000000100001#32 = .ok .split := by decide

theorem test_decode_xor :
    decode 0b00000000000000000000000000110000#32 = .ok .xor ∧
    decode 0b00000000000000000000000000110001#32 = .ok .xorp ∧
    decode 0b00000000000010110000000000110010#32 = .ok (.kdfxor 0x000B#16) := by decide

theorem test_decode_oaep_pss_pkcs :
    decode 0b00000000000001000000000001000000#32 = .ok (.oaepenc 0x0004#16) ∧
    decode 0b00000000000001000000000001000001#32 = .ok (.oaepdec 0x0004#16) ∧
    decode 0b00000000000010110000000001010000#32 = .ok (.pssenc 0x000B#16) ∧
    decode 0b00000000000010110000000001010001#32 = .ok (.pssvfy 0x000B#16) ∧
    decode 0b00000000000010110000000001100000#32 = .ok (.p15enc 0x000B#16) := by decide

theorem test_decode_envelope :
    decode 0b00000000000000000000000101110000#32 = .ok (.ctxnew true false) ∧
    decode 0b00000000000000000000001001110000#32 = .ok (.ctxnew false true) ∧
    decode 0b00000000000000000000000001110001#32 = .ok .ctxrel ∧
    decode 0b00000000000000000000001001110010#32 = .ok (.symenc true) ∧
    decode 0b00000000000000000000000001110011#32 = .ok (.symdec false) ∧
    decode 0b00000000000010110000000001110100#32 = .ok (.deenv 0x000B#16) ∧
    decode 0b00000000000000000000000001111111#32 = .ok .clrbuf := by decide

/-- 95_test_vectors.md 2.10, the illegal words, each with the case of R79 it falls under. -/
theorem test_decode_illegal :
    decode 0x00000000#32 = .error .reservedOpcode ∧ decode 0x00000011#32 = .error .reservedOpcode ∧
    decode 0x00000130#32 = .error .flagNotAllowed ∧ decode 0x00000172#32 = .error .flagNotAllowed ∧
    decode 0x00000470#32 = .error .reservedFlag ∧ decode 0x00040021#32 = .error .algNotZero ∧
    decode 0x000B0110#32 = .error .flagNotAllowed := by decide

theorem test_table_word :
    decodeTableWord 32 0x00000370 = some (.ctxnew true true) ∧ decodeTableWord 32 0x00000470 = none := by decide

/-! ## The bench -/

/-- Bytes from numbers. -/
def bs (l : List Nat) : Bytes := l.map (BitVec.ofNat 8)

/-- After reset and a load of the operands: the command word has been written to CMD. -/
def bench (answers : List (Request × Bytes)) (p0 p1 : Word) (b0 b1 b2 b3 : Bytes) (w : Word) : State :=
  State.start
    { State.reset with
      p0 := p0, p1 := p1
      ib0 := Buffer.ofBytes b0, ib1 := Buffer.ofBytes b1, ib2 := Buffer.ofBytes b2, ib3 := Buffer.ofBytes b3
      cfg := { Config.default with answers := answers } } w

/-- The state one step later. -/
def after (s : State) : State :=
  match step s with
  | .next t => t
  | .fault _ => s
  | .refused _ => s

/-- The context of V-CTX-1: AES, CFB, 128 bits, key 00 .. 0f, IV zero. -/
def liveCtx : CipherCtx :=
  CipherCtx.make 0x00430006#32 128 16 (bs [0, 1, 2, 3, 4, 5, 6, 7, 8, 9, 10, 11, 12, 13, 14, 15]) (zeros 16)

/-! ## The spec's vectors -/

/-- The provider's answers behind V-MGF-3. -/
def tabMgf3 : List (Request × Bytes) :=
  [(.hash .sha1 (bs [0x62, 0x61, 0x72, 0x00, 0x00, 0x00, 0x00]),
    bs [0xbc, 0x0c, 0x65, 0x5e, 0x01, 0x6b, 0xc2, 0x93, 0x1d, 0x85, 0xa2, 0xe6, 0x75, 0x18, 0x1a, 0xdc, 0xef, 0x7f, 0x58, 0x1f])] ++
  [(.hash .sha1 (bs [0x62, 0x61, 0x72, 0x00, 0x00, 0x00, 0x01]),
    bs [0x76, 0xdf, 0x27, 0x39, 0xda, 0x74, 0xfa, 0xac, 0x41, 0x62, 0x7b, 0xe2, 0xf7, 0xf4, 0x15, 0xc8, 0x9e, 0x98, 0x3f, 0xd0])] ++
  [(.hash .sha1 (bs [0x62, 0x61, 0x72, 0x00, 0x00, 0x00, 0x02]),
    bs [0xce, 0x80, 0xce, 0xd9, 0x87, 0x86, 0x41, 0xcb, 0x48, 0x76, 0xf6, 0xd0, 0xb1, 0x68, 0x54, 0xde, 0xb6, 0x62, 0xf5, 0x66])]

/-- V-MGF-3: MGF1 SHA1, seed "bar", 50 bytes. -/
def benchMgf3 : State :=
  bench tabMgf3 50 0 (bs [0x62, 0x61, 0x72]) [] [] [] 0x00040010#32

/-- V-MGF-3: three digests, the last cut to 10 bytes. -/
theorem test_mgf1_vmgf3 : (after benchMgf3).ob0.value =
    (bs [0xbc, 0x0c, 0x65, 0x5e, 0x01, 0x6b, 0xc2, 0x93, 0x1d, 0x85, 0xa2, 0xe6, 0x75, 0x18, 0x1a, 0xdc, 0xef, 0x7f, 0x58, 0x1f] ++
      bs [0x76, 0xdf, 0x27, 0x39, 0xda, 0x74, 0xfa, 0xac, 0x41, 0x62, 0x7b, 0xe2, 0xf7, 0xf4, 0x15, 0xc8, 0x9e, 0x98, 0x3f, 0xd0] ++
      bs [0xce, 0x80, 0xce, 0xd9, 0x87, 0x86, 0x41, 0xcb, 0x48, 0x76]) ∧
    (after benchMgf3).statusReg = 0x0010000A#32 := by decide +kernel

/-- V-MGF-9: one byte more than BUFCAP. -/
def benchMgf9 : State :=
  bench [] 4097 0 [] [] [] [] 0x00040010#32

/-- V-MGF-9: Capacity. -/
theorem test_mgf1_vmgf9 : (after benchMgf9).statusReg = 0x00100906#32 ∧ (after benchMgf9).ob0.len = 0 := by decide +kernel

/-- The provider's answer behind V-KDF-3. -/
def tabKdf3 : List (Request × Bytes) :=
  [(.hmac .sha1 (bs [0x00, 0x01, 0x02, 0x03, 0x04, 0x05, 0x06, 0x07, 0x08, 0x09, 0x0a, 0x0b, 0x0c, 0x0d, 0x0e, 0x0f]) (bs [0x00, 0x00, 0x00, 0x01, 0x54, 0x45, 0x53, 0x54, 0x00, 0xaa, 0xbb, 0xcc, 0x00, 0x00, 0x00, 0x0d]),
    bs [0xb5, 0xbc, 0xc7, 0x08, 0x6b, 0x2d, 0xac, 0xbd, 0x0e, 0xd0, 0x32, 0x44, 0xd9, 0x0a, 0xbe, 0xd4, 0xf6, 0x52, 0x1c, 0x6c])]

/-- V-KDF-3: 13 bits, E = 147. -/
def benchKdf3 : State :=
  bench tabKdf3 13 0 (bs [0x00, 0x01, 0x02, 0x03, 0x04, 0x05, 0x06, 0x07, 0x08, 0x09, 0x0a, 0x0b, 0x0c, 0x0d, 0x0e, 0x0f]) (bs [0x54, 0x45, 0x53, 0x54]) (bs [0xaa, 0xbb]) (bs [0xcc]) 0x00040020#32

/-- V-KDF-3: the tag's top 13 bits, right-aligned in two bytes. -/
theorem test_kdfa_vkdf3 : (after benchKdf3).ob0.value = [0x16#8, 0xb7#8] ∧
    (after benchKdf3).statusReg = 0x0020000A#32 := by decide +kernel

/-- The provider's answers behind V-KDF-2. -/
def tabKdf2 : List (Request × Bytes) :=
  [(.hmac .sha256 (bs [0x00, 0x01, 0x02, 0x03, 0x04, 0x05, 0x06, 0x07, 0x08, 0x09, 0x0a, 0x0b, 0x0c, 0x0d, 0x0e, 0x0f]) (bs [0x00, 0x00, 0x00, 0x01, 0x53, 0x54, 0x4f, 0x52, 0x41, 0x47, 0x45, 0x00, 0x00, 0x00, 0x01, 0x08]),
    (bs [0x99, 0x9f, 0x08, 0x1b, 0xa2, 0x48, 0x3c, 0xcf, 0x4c, 0x10, 0x06, 0x4e, 0xbd, 0x7e, 0xef, 0x91, 0x31, 0x9d, 0x39, 0x7e] ++
      bs [0x40, 0xbf, 0xbd, 0x3d, 0xa6, 0x04, 0x1b, 0x57, 0x20, 0x98, 0xb5, 0x7f]))] ++
  [(.hmac .sha256 (bs [0x00, 0x01, 0x02, 0x03, 0x04, 0x05, 0x06, 0x07, 0x08, 0x09, 0x0a, 0x0b, 0x0c, 0x0d, 0x0e, 0x0f]) (bs [0x00, 0x00, 0x00, 0x02, 0x53, 0x54, 0x4f, 0x52, 0x41, 0x47, 0x45, 0x00, 0x00, 0x00, 0x01, 0x08]),
    (bs [0xbd, 0x71, 0xc7, 0xb4, 0x05, 0x66, 0xa5, 0x1d, 0x3b, 0x29, 0xc9, 0xd4, 0x3e, 0xdd, 0xea, 0x4c, 0xb6, 0x01, 0xdd, 0x64] ++
      bs [0x4c, 0xc3, 0x94, 0x07, 0x88, 0x4e, 0x4d, 0xfc, 0x8e, 0x87, 0x19, 0x86]))]

/-- V-KDF-2: 264 bits, two HMAC calls. -/
def benchKdf2 : State :=
  bench tabKdf2 264 0 (bs [0x00, 0x01, 0x02, 0x03, 0x04, 0x05, 0x06, 0x07, 0x08, 0x09, 0x0a, 0x0b, 0x0c, 0x0d, 0x0e, 0x0f]) (bs [0x53, 0x54, 0x4f, 0x52, 0x41, 0x47, 0x45]) [] [] 0x000b0020#32

/-- V-KDF-2: the first tag whole, then the first byte of the second. -/
theorem test_kdfa_vkdf2 : (after benchKdf2).ob0.value =
    (bs [0x99, 0x9f, 0x08, 0x1b, 0xa2, 0x48, 0x3c, 0xcf, 0x4c, 0x10, 0x06, 0x4e, 0xbd, 0x7e, 0xef, 0x91, 0x31, 0x9d, 0x39, 0x7e] ++
      bs [0x40, 0xbf, 0xbd, 0x3d, 0xa6, 0x04, 0x1b, 0x57, 0x20, 0x98, 0xb5, 0x7f, 0xbd]) := by decide +kernel

/-- V-SPL-1. -/
def benchSpl1 : State :=
  bench [] 16 24 (bs [0xa0, 0xa1, 0xa2, 0xa3, 0xa4, 0xa5]) [] [] [] 0x00000021#32

/-- V-SPL-1: the last byte is left over. -/
theorem test_split_vspl1 : (after benchSpl1).ob0.value = [0xa0#8, 0xa1#8] ∧
    (after benchSpl1).ob1.value = [0xa2#8, 0xa3#8, 0xa4#8] ∧ (after benchSpl1).statusReg = 0x0021000A#32 := by decide +kernel

/-- V-SPL-6. -/
def benchSpl6 : State :=
  bench [] 12 800 (bs [0xa0, 0xa1]) [] [] [] 0x00000021#32

/-- V-SPL-6: alignment is checked before length. -/
theorem test_split_vspl6 : (after benchSpl6).statusReg = 0x00210306#32 := by decide +kernel

/-- V-XOR-1. -/
def benchXor1 : State :=
  bench [] 0 0 (bs [0x0f, 0xf0, 0x55]) (bs [0xff, 0xff, 0x0f]) [] [] 0x00000030#32

/-- V-XOR-1. -/
theorem test_xor_vxor1 : (after benchXor1).ob0.value = [0xf0#8, 0x0f#8, 0x5a#8] ∧ (after benchXor1).statusReg = 0x0030000A#32 := by decide +kernel

/-- V-XOR-2. -/
def benchXor2 : State :=
  bench [] 0 0 (bs [0x0f, 0xf0, 0x55]) (bs [0xff, 0xff]) [] [] 0x00000030#32

/-- V-XOR-2: LengthMismatch. -/
theorem test_xor_vxor2 : (after benchXor2).statusReg = 0x00300206#32 ∧ (after benchXor2).ob0.len = 0 := by decide +kernel

/-- V-XOR-4. -/
def benchXor4 : State :=
  bench [] 0 0 (bs [0x0f, 0xf0, 0x55]) (bs [0xff, 0xff]) [] [] 0x00000031#32

/-- V-XOR-4: the shorter length. -/
theorem test_xorp_vxor4 : (after benchXor4).ob0.value = [0xf0#8, 0x0f#8] ∧ (after benchXor4).statusReg = 0x0031000A#32 := by decide +kernel

/-- The provider's answer behind V-KX-1. -/
def tabKx1 : List (Request × Bytes) :=
  [(.hmac .sha256 (bs [0x00, 0x01, 0x02, 0x03, 0x04, 0x05, 0x06, 0x07, 0x08, 0x09, 0x0a, 0x0b, 0x0c, 0x0d, 0x0e, 0x0f]) (bs [0x00, 0x00, 0x00, 0x01, 0x58, 0x4f, 0x52, 0x00, 0x01, 0x02, 0x03, 0x00, 0x00, 0x00, 0x28]),
    (bs [0xee, 0xd8, 0xe7, 0x37, 0x88, 0x65, 0xd5, 0xe6, 0xaf, 0x26, 0x82, 0xc8, 0x8e, 0xb2, 0xa4, 0x62, 0xfe, 0x43, 0xa0, 0xce] ++
      bs [0xd0, 0x52, 0x44, 0x64, 0x7e, 0x4a, 0xe3, 0x3c, 0xf9, 0x6d, 0xea, 0x82]))]

/-- V-KX-1. -/
def benchKx1 : State :=
  bench tabKx1 0 0 (bs [0x00, 0x01, 0x02, 0x03, 0x04, 0x05, 0x06, 0x07, 0x08, 0x09, 0x0a, 0x0b, 0x0c, 0x0d, 0x0e, 0x0f]) (bs [0x68, 0x65, 0x6c, 0x6c, 0x6f]) (bs [0x01, 0x02]) (bs [0x03]) 0x000b0032#32

/-- V-KX-1. -/
theorem test_kdfxor_vkx1 : (after benchKx1).ob0.value = [0x86#8, 0xbd#8, 0x8b#8, 0x5b#8, 0xe7#8] ∧
    (after benchKx1).statusReg = 0x0032000A#32 := by decide +kernel

/-- The provider's answers behind V-OAEP-1, and its draw. -/
def tabOaep1 : List (Request × Bytes) :=
  [(.hash .sha1 [],
    bs [0xda, 0x39, 0xa3, 0xee, 0x5e, 0x6b, 0x4b, 0x0d, 0x32, 0x55, 0xbf, 0xef, 0x95, 0x60, 0x18, 0x90, 0xaf, 0xd8, 0x07, 0x09])] ++
  [(.hash .sha1 (bs [0x00, 0x01, 0x02, 0x03, 0x04, 0x05, 0x06, 0x07, 0x08, 0x09, 0x0a, 0x0b, 0x0c, 0x0d, 0x0e, 0x0f, 0x10, 0x11, 0x12, 0x13] ++
      bs [0x00, 0x00, 0x00, 0x00]),
    bs [0x02, 0x85, 0x53, 0xd8, 0x21, 0xdb, 0x1e, 0x8d, 0x1b, 0xc6, 0x6b, 0xa5, 0x74, 0xc0, 0xe3, 0x10, 0x31, 0x05, 0x29, 0x31])] ++
  [(.hash .sha1 (bs [0x00, 0x01, 0x02, 0x03, 0x04, 0x05, 0x06, 0x07, 0x08, 0x09, 0x0a, 0x0b, 0x0c, 0x0d, 0x0e, 0x0f, 0x10, 0x11, 0x12, 0x13] ++
      bs [0x00, 0x00, 0x00, 0x01]),
    bs [0x99, 0xf3, 0x72, 0x63, 0xa5, 0x74, 0x17, 0x1d, 0x60, 0x78, 0x80, 0x91, 0x7a, 0xef, 0xcf, 0x64, 0x22, 0x94, 0xb0, 0x8b])] ++
  [(.hash .sha1 (bs [0x00, 0x01, 0x02, 0x03, 0x04, 0x05, 0x06, 0x07, 0x08, 0x09, 0x0a, 0x0b, 0x0c, 0x0d, 0x0e, 0x0f, 0x10, 0x11, 0x12, 0x13] ++
      bs [0x00, 0x00, 0x00, 0x02]),
    bs [0x98, 0x27, 0x11, 0xc0, 0xfa, 0x68, 0xf6, 0x48, 0x5f, 0x62, 0xc7, 0x30, 0x54, 0xab, 0x50, 0xa0, 0xc7, 0x56, 0x69, 0x5e])] ++
  [(.hash .sha1 (bs [0xd8, 0xbc, 0xf0, 0x36, 0x7f, 0xb0, 0x55, 0x80, 0x29, 0x93, 0xd4, 0x4a, 0xe1, 0xa0, 0xfb, 0x80, 0x9e, 0xdd, 0x2e, 0x38] ++
      bs [0x99, 0xf3, 0x72, 0x63, 0xa5, 0x74, 0x17, 0x1d, 0x60, 0x78, 0x80, 0x91, 0x7a, 0xef, 0xcf, 0x64, 0x22, 0x94, 0xb0, 0x8b] ++
      bs [0x99, 0x4f, 0x78, 0x00, 0x00, 0x00, 0x00]),
    bs [0xbc, 0x5e, 0x26, 0x66, 0x8d, 0xa0, 0xd8, 0x5f, 0xd0, 0xf8, 0x04, 0x2c, 0x8b, 0x4a, 0x05, 0x1b, 0x85, 0x47, 0x35, 0x22])] ++
  [(.random 0 20,
    bs [0x00, 0x01, 0x02, 0x03, 0x04, 0x05, 0x06, 0x07, 0x08, 0x09, 0x0a, 0x0b, 0x0c, 0x0d, 0x0e, 0x0f, 0x10, 0x11, 0x12, 0x13])]

/-- V-OAEP-1: OAEPENC SHA1, "hi", 64-byte modulus. -/
def benchOaep1 : State :=
  bench tabOaep1 64 0 (bs [0x68, 0x69]) [] [] [] 0x00040040#32

/-- V-OAEP-1. -/
theorem test_oaepenc_voaep1 : (after benchOaep1).ob0.value =
    (bs [0xbc, 0x5f, 0x24, 0x65, 0x89, 0xa5, 0xde, 0x58, 0xd8, 0xf1, 0x0e, 0x27, 0x87, 0x47, 0x0b, 0x14, 0x95, 0x56, 0x27, 0x31] ++
      bs [0xd8, 0xbc, 0xf0, 0x36, 0x7f, 0xb0, 0x55, 0x80, 0x29, 0x93, 0xd4, 0x4a, 0xe1, 0xa0, 0xfb, 0x80, 0x9e, 0xdd, 0x2e, 0x38] ++
      bs [0x99, 0xf3, 0x72, 0x63, 0xa5, 0x74, 0x17, 0x1d, 0x60, 0x78, 0x80, 0x91, 0x7a, 0xef, 0xcf, 0x64, 0x22, 0x94, 0xb0, 0x8b] ++
      bs [0x99, 0x4f, 0x78]) ∧
    (after benchOaep1).statusReg = 0x0040000A#32 ∧ (after benchOaep1).drawCount = 1 := by decide +kernel

/-- V-OAEP-3: bound -1. -/
def benchOaep3 : State :=
  bench [] 41 0 [] [] [] [] 0x00040040#32

/-- V-OAEP-3: MessageTooLong, no draw; the bound is negative and the message empty. -/
theorem test_oaepenc_voaep3 : (after benchOaep3).statusReg = 0x00400406#32 ∧ (after benchOaep3).drawCount = 0 := by decide +kernel

/-- The provider's answers behind V-OAEP-2. -/
def tabOaep2 : List (Request × Bytes) :=
  [(.hash .sha1 [],
    bs [0xda, 0x39, 0xa3, 0xee, 0x5e, 0x6b, 0x4b, 0x0d, 0x32, 0x55, 0xbf, 0xef, 0x95, 0x60, 0x18, 0x90, 0xaf, 0xd8, 0x07, 0x09])] ++
  [(.hash .sha1 (bs [0x00, 0x01, 0x02, 0x03, 0x04, 0x05, 0x06, 0x07, 0x08, 0x09, 0x0a, 0x0b, 0x0c, 0x0d, 0x0e, 0x0f, 0x10, 0x11, 0x12, 0x13] ++
      bs [0x00, 0x00, 0x00, 0x00]),
    bs [0x02, 0x85, 0x53, 0xd8, 0x21, 0xdb, 0x1e, 0x8d, 0x1b, 0xc6, 0x6b, 0xa5, 0x74, 0xc0, 0xe3, 0x10, 0x31, 0x05, 0x29, 0x31])] ++
  [(.hash .sha1 (bs [0x00, 0x01, 0x02, 0x03, 0x04, 0x05, 0x06, 0x07, 0x08, 0x09, 0x0a, 0x0b, 0x0c, 0x0d, 0x0e, 0x0f, 0x10, 0x11, 0x12, 0x13] ++
      bs [0x00, 0x00, 0x00, 0x01]),
    bs [0x99, 0xf3, 0x72, 0x63, 0xa5, 0x74, 0x17, 0x1d, 0x60, 0x78, 0x80, 0x91, 0x7a, 0xef, 0xcf, 0x64, 0x22, 0x94, 0xb0, 0x8b])] ++
  [(.hash .sha1 (bs [0xd8, 0xbc, 0xf0, 0x36, 0x7f, 0xb0, 0x55, 0x80, 0x29, 0x93, 0xd4, 0x4a, 0xe1, 0xa0, 0xfb, 0x80, 0x9e, 0xdd, 0x2e, 0x38] ++
      bs [0x98, 0x00, 0x00, 0x00, 0x00]),
    bs [0x55, 0xe4, 0xa0, 0xa7, 0xad, 0xfa, 0x20, 0xa6, 0x27, 0x8f, 0x19, 0x2f, 0x0f, 0x10, 0x06, 0xc8, 0x17, 0xac, 0xab, 0x37])]

/-- V-OAEP-2: OAEPDEC SHA1 of the 41 bytes whose separator is the last byte of DB. -/
def benchOaep2 : State :=
  bench tabOaep2 0 0 (bs [0x55, 0xe5, 0xa2, 0xa4, 0xa9, 0xff, 0x26, 0xa1, 0x2f, 0x86, 0x13, 0x24, 0x03, 0x1d, 0x08, 0xc7, 0x07, 0xbd, 0xb9, 0x24] ++
      bs [0xd8, 0xbc, 0xf0, 0x36, 0x7f, 0xb0, 0x55, 0x80, 0x29, 0x93, 0xd4, 0x4a, 0xe1, 0xa0, 0xfb, 0x80, 0x9e, 0xdd, 0x2e, 0x38] ++
      bs [0x98]) [] [] [] 0x00040041#32

/-- V-OAEP-2: true, and the message is empty. -/
theorem test_oaepdec_voaep2 : (after benchOaep2).statusReg = 0x0041000A#32 ∧ (after benchOaep2).ob0.len = 0 := by decide +kernel

/-- The provider's answers behind V-OAEP-6. -/
def tabOaep6 : List (Request × Bytes) :=
  [(.hash .sha1 [],
    bs [0xda, 0x39, 0xa3, 0xee, 0x5e, 0x6b, 0x4b, 0x0d, 0x32, 0x55, 0xbf, 0xef, 0x95, 0x60, 0x18, 0x90, 0xaf, 0xd8, 0x07, 0x09])] ++
  [(.hash .sha1 (bs [0x00, 0x01, 0x02, 0x03, 0x04, 0x05, 0x06, 0x07, 0x08, 0x09, 0x0a, 0x0b, 0x0c, 0x0d, 0x0e, 0x0f, 0x10, 0x11, 0x12, 0x13] ++
      bs [0x00, 0x00, 0x00, 0x00]),
    bs [0x02, 0x85, 0x53, 0xd8, 0x21, 0xdb, 0x1e, 0x8d, 0x1b, 0xc6, 0x6b, 0xa5, 0x74, 0xc0, 0xe3, 0x10, 0x31, 0x05, 0x29, 0x31])] ++
  [(.hash .sha1 (bs [0x00, 0x01, 0x02, 0x03, 0x04, 0x05, 0x06, 0x07, 0x08, 0x09, 0x0a, 0x0b, 0x0c, 0x0d, 0x0e, 0x0f, 0x10, 0x11, 0x12, 0x13] ++
      bs [0x00, 0x00, 0x00, 0x01]),
    bs [0x99, 0xf3, 0x72, 0x63, 0xa5, 0x74, 0x17, 0x1d, 0x60, 0x78, 0x80, 0x91, 0x7a, 0xef, 0xcf, 0x64, 0x22, 0x94, 0xb0, 0x8b])] ++
  [(.hash .sha1 (bs [0xd8, 0xbc, 0xf0, 0x36, 0x7f, 0xb0, 0x55, 0x80, 0x29, 0x93, 0xd4, 0x4a, 0xe1, 0xa0, 0xfb, 0x80, 0x9e, 0xdd, 0x2e, 0x38] ++
      bs [0x99, 0xf3, 0x72, 0x61, 0xcd, 0x1d, 0x00, 0x00, 0x00, 0x00]),
    bs [0xfb, 0x4b, 0xd3, 0x58, 0x69, 0xf8, 0xe1, 0x97, 0x9b, 0x38, 0xd6, 0x23, 0x08, 0x5f, 0x5f, 0x7c, 0x03, 0x68, 0xde, 0xf8])]

/-- V-OAEP-6: the first nonzero byte is 02. -/
def benchOaep6 : State :=
  bench tabOaep6 0 0 (bs [0xfb, 0x4a, 0xd1, 0x5b, 0x6d, 0xfd, 0xe7, 0x90, 0x93, 0x31, 0xdc, 0x28, 0x04, 0x52, 0x51, 0x73, 0x13, 0x79, 0xcc, 0xeb] ++
      bs [0xd8, 0xbc, 0xf0, 0x36, 0x7f, 0xb0, 0x55, 0x80, 0x29, 0x93, 0xd4, 0x4a, 0xe1, 0xa0, 0xfb, 0x80, 0x9e, 0xdd, 0x2e, 0x38] ++
      bs [0x99, 0xf3, 0x72, 0x61, 0xcd, 0x1d]) [] [] [] 0x00040041#32

/-- V-OAEP-6: BoolFalse. -/
theorem test_oaepdec_voaep6 : (after benchOaep6).statusReg = 0x00410002#32 ∧ (after benchOaep6).ob0.len = 0 := by decide +kernel

/-- The provider's answers behind V-PSS-4, and its draw. -/
def tabPss4 : List (Request × Bytes) :=
  [(.hash .sha1 [],
    bs [0xda, 0x39, 0xa3, 0xee, 0x5e, 0x6b, 0x4b, 0x0d, 0x32, 0x55, 0xbf, 0xef, 0x95, 0x60, 0x18, 0x90, 0xaf, 0xd8, 0x07, 0x09])] ++
  [(.hash .sha1 (bs [0x00, 0x00, 0x00, 0x00, 0x00, 0x00, 0x00, 0x00, 0xda, 0x39, 0xa3, 0xee, 0x5e, 0x6b, 0x4b, 0x0d, 0x32, 0x55, 0xbf, 0xef] ++
      bs [0x95, 0x60, 0x18, 0x90, 0xaf, 0xd8, 0x07, 0x09, 0xa0, 0xa1, 0xa2, 0xa3]),
    bs [0x00, 0x44, 0xa8, 0x68, 0x49, 0x33, 0x02, 0x36, 0x52, 0xa1, 0x1d, 0x0c, 0xf0, 0x4e, 0xc5, 0x52, 0x42, 0x71, 0x1d, 0x0c])] ++
  [(.hash .sha1 (bs [0x00, 0x44, 0xa8, 0x68, 0x49, 0x33, 0x02, 0x36, 0x52, 0xa1, 0x1d, 0x0c, 0xf0, 0x4e, 0xc5, 0x52, 0x42, 0x71, 0x1d, 0x0c] ++
      bs [0x00, 0x00, 0x00, 0x00]),
    bs [0x7a, 0x73, 0x07, 0xbe, 0x28, 0xf9, 0xde, 0x32, 0x46, 0x04, 0xaa, 0xcf, 0x10, 0x38, 0x95, 0x17, 0x4d, 0x1e, 0x8f, 0xb0])] ++
  [(.random 0 4,
    bs [0xa0, 0xa1, 0xa2, 0xa3])]

/-- V-PSS-4: PSSENC SHA1, 209 bits. -/
def benchPss4 : State :=
  bench tabPss4 4 209 [] [] [] [] 0x00040050#32

/-- V-PSS-4: seven bits cleared. -/
theorem test_pssenc_vpss4 : (after benchPss4).ob0.value =
    (bs [0x00, 0x72, 0xa7, 0x1f, 0x8a, 0x5a, 0x00, 0x44, 0xa8, 0x68, 0x49, 0x33, 0x02, 0x36, 0x52, 0xa1, 0x1d, 0x0c, 0xf0, 0x4e] ++
      bs [0xc5, 0x52, 0x42, 0x71, 0x1d, 0x0c, 0xbc]) ∧
    (after benchPss4).statusReg = 0x0050000A#32 := by decide +kernel

/-- V-PSS-3. -/
def benchPss3 : State :=
  bench [] 1 272 [] [] [] [] 0x000b0050#32

/-- V-PSS-3: EncodingError, no draw. -/
theorem test_pssenc_vpss3 : (after benchPss3).statusReg = 0x00500506#32 ∧ (after benchPss3).drawCount = 0 := by decide +kernel

/-- V-PSS-4: PSSVFY of its 27 bytes. -/
def benchPssv4 : State :=
  bench tabPss4 4 209 [] (bs [0x00, 0x72, 0xa7, 0x1f, 0x8a, 0x5a, 0x00, 0x44, 0xa8, 0x68, 0x49, 0x33, 0x02, 0x36, 0x52, 0xa1, 0x1d, 0x0c, 0xf0, 0x4e] ++
      bs [0xc5, 0x52, 0x42, 0x71, 0x1d, 0x0c, 0xbc]) [] [] 0x00040051#32

/-- V-PSS-4: verified. -/
theorem test_pssvfy_vpss4 : (after benchPssv4).statusReg = 0x0051000A#32 := by decide +kernel

/-- The same with the top bit of EM set. -/
def benchPssv4x : State :=
  bench tabPss4 4 209 [] (bs [0x80, 0x72, 0xa7, 0x1f, 0x8a, 0x5a, 0x00, 0x44, 0xa8, 0x68, 0x49, 0x33, 0x02, 0x36, 0x52, 0xa1, 0x1d, 0x0c, 0xf0, 0x4e] ++
      bs [0xc5, 0x52, 0x42, 0x71, 0x1d, 0x0c, 0xbc]) [] [] 0x00040051#32

/-- 45_pss.md R153 (d): a set top bit is false, not an error. -/
theorem test_pssvfy_top_bit : (after benchPssv4x).statusReg = 0x00510002#32 := by decide +kernel

/-- The provider's answer behind V-P15-2. -/
def tabP15 : List (Request × Bytes) :=
  [(.hash .sha1 [],
    bs [0xda, 0x39, 0xa3, 0xee, 0x5e, 0x6b, 0x4b, 0x0d, 0x32, 0x55, 0xbf, 0xef, 0x95, 0x60, 0x18, 0x90, 0xaf, 0xd8, 0x07, 0x09])]

/-- V-P15-2: P15ENC SHA1 of the empty message, 46 bytes. -/
def benchP15 : State :=
  bench tabP15 46 0 [] [] [] [] 0x00040060#32

/-- V-P15-2. -/
theorem test_p15enc_vp152 : (after benchP15).ob0.value =
    (bs [0x00, 0x01, 0xff, 0xff, 0xff, 0xff, 0xff, 0xff, 0xff, 0xff, 0x00, 0x30, 0x21, 0x30, 0x09, 0x06, 0x05, 0x2b, 0x0e, 0x03] ++
      bs [0x02, 0x1a, 0x05, 0x00, 0x04, 0x14, 0xda, 0x39, 0xa3, 0xee, 0x5e, 0x6b, 0x4b, 0x0d, 0x32, 0x55, 0xbf, 0xef, 0x95, 0x60] ++
      bs [0x18, 0x90, 0xaf, 0xd8, 0x07, 0x09]) ∧
    (after benchP15).statusReg = 0x0060000A#32 := by decide +kernel

/-- V-P15-1e: one byte less than the bound. -/
def benchP15e : State :=
  bench [] 61 0 (bs [0x61, 0x62, 0x63]) [] [] [] 0x000b0060#32

/-- V-P15-1e: EncodedMessageTooShort. -/
theorem test_p15enc_vp151e : (after benchP15e).statusReg = 0x00600606#32 := by decide +kernel

/-- V-CTX-1: AES, CFB, 128 bits. -/
def benchCtx1 : State :=
  bench [] 0x00430006 128 (bs [0x00, 0x01, 0x02, 0x03, 0x04, 0x05, 0x06, 0x07, 0x08, 0x09, 0x0a, 0x0b, 0x0c, 0x0d, 0x0e, 0x0f]) [] [] [] 0x00000070#32

/-- V-CTX-1. -/
theorem test_ctxnew_vctx1 : (after benchCtx1).statusReg = 0x0070000A#32 ∧ (after benchCtx1).ctx.defn = 0x00430006#32 ∧
    (after benchCtx1).ctx.keyBits = 128 ∧ (after benchCtx1).ctx.statWord = 0x00001001#32 ∧
    (after benchCtx1).ctx.keyBytes = bs [0x00, 0x01, 0x02, 0x03, 0x04, 0x05, 0x06, 0x07, 0x08, 0x09, 0x0a, 0x0b, 0x0c, 0x0d, 0x0e, 0x0f] ∧ (after benchCtx1).ctx.ivBytes = zeros 16 := by decide +kernel

/-- V-CTX-1 with `.IV` and an IV of 8 bytes, while a context is live. -/
def benchCtx2 : State :=
  { bench [] 0x00430006 128 (bs [0x00, 0x01, 0x02, 0x03, 0x04, 0x05, 0x06, 0x07, 0x08, 0x09, 0x0a, 0x0b, 0x0c, 0x0d, 0x0e, 0x0f]) (bs [1, 2, 3, 4, 5, 6, 7, 8]) [] [] 0x00000270#32 with ctx := liveCtx }

/-- V-CTX-1, errors: MalformedInput, and the slot is released. -/
theorem test_ctxnew_viv8 : (after benchCtx2).statusReg = 0x00700806#32 ∧ (after benchCtx2).ctx = CipherCtx.released := by decide +kernel

/-- CTXREL with a live context. -/
def benchRel : State := { bench [] 0 0 [] [] [] [] 0x00000071#32 with ctx := liveCtx }

/-- V-SYM-5: CTX_DEF, CTX_KEYBITS and CTX_STAT are 0 afterwards. -/
theorem test_ctxrel : (after benchRel).statusReg = 0x0071000A#32 ∧ (after benchRel).ctx.defn = 0 ∧
    (after benchRel).ctx.keyBits = 0 ∧ (after benchRel).ctx.statWord = 0 := by decide +kernel

/-- The provider's answers behind V-SYM-1. -/
def tabSym1 : List (Request × Bytes) :=
  [(.cipher .enc 0x0006#16 0x0043#16 (bs [0x00, 0x01, 0x02, 0x03, 0x04, 0x05, 0x06, 0x07, 0x08, 0x09, 0x0a, 0x0b, 0x0c, 0x0d, 0x0e, 0x0f]) (List.replicate 16 0x00#8) (bs [0x68, 0x65, 0x6c, 0x6c, 0x6f, 0x00, 0x00, 0x00, 0x00, 0x00, 0x00, 0x00, 0x00, 0x00, 0x00, 0x00]),
    bs [0xae, 0xc4, 0x57, 0x5b, 0xe8, 0x8f, 0x5b, 0x82, 0x6f, 0x4f, 0x81, 0x62, 0xa1, 0xc8, 0xd8, 0x79])] ++
  [(.cipher .dec 0x0006#16 0x0043#16 (bs [0x00, 0x01, 0x02, 0x03, 0x04, 0x05, 0x06, 0x07, 0x08, 0x09, 0x0a, 0x0b, 0x0c, 0x0d, 0x0e, 0x0f]) (List.replicate 16 0x00#8) (bs [0xae, 0xc4, 0x57, 0x5b, 0xe8, 0x00, 0x00, 0x00, 0x00, 0x00, 0x00, 0x00, 0x00, 0x00, 0x00, 0x00]),
    bs [0x68, 0x65, 0x6c, 0x6c, 0x6f, 0x8f, 0x5b, 0x82, 0x6f, 0x4f, 0x81, 0x62, 0xa1, 0xc8, 0xd8, 0x79])]

/-- V-SYM-1: SYMENC of "hello". -/
def benchSym1 : State := { bench tabSym1 0 0 (bs [0x68, 0x65, 0x6c, 0x6c, 0x6f]) [] [] [] 0x00000072#32 with ctx := liveCtx }

/-- V-SYM-1. -/
theorem test_symenc_vsym1 : (after benchSym1).ob0.value = [0xae#8, 0xc4#8, 0x57#8, 0x5b#8, 0xe8#8] ∧
    (after benchSym1).statusReg = 0x0072000A#32 ∧ (after benchSym1).ctx = liveCtx := by decide +kernel

/-- An `IvUpdate` that answers with the slot's old IV reversed, for a slot whose IV differs from the operand's. -/
def benchIv : State :=
  { bench [] 0 0 [] (zeros 16) [] [] 0x00000272#32 with
    ctx := CipherCtx.make 0x00430006#32 128 16 liveCtx.keyBytes (bs (List.range 16))
    cfg := { Config.default with
      ivPolicy := .answered
      answers := [(.ivUpdate .enc ⟨0x0006#16, 0x0043#16, 128, 16, liveCtx.keyBytes, bs (List.range 16)⟩ (zeros 16) [] [],
        (bs (List.range 16)).reverse)] } }

/-- R185, R175: the slot's IV before the transform is part of `c`, and with IVSET it is not iv0. -/
theorem test_symenc_ivupdate_sees_slot_iv :
    (after benchIv).ctx.ivBytes = (bs (List.range 16)).reverse ∧
    benchIv.transformIv true = zeros 16 := by decide +kernel

/-- V-SYM-5: SYMENC with no live context. -/
def benchSym5 : State :=
  bench [] 0 0 (bs [0x68, 0x65, 0x6c, 0x6c, 0x6f]) [] [] [] 0x00000072#32

/-- V-SYM-5: NoContext. -/
theorem test_symenc_vsym5 : (after benchSym5).statusReg = 0x00720A06#32 := by decide +kernel

/-- V-SYM-1: SYMDEC of its result. -/
def benchSym2 : State := { bench tabSym1 0 0 (bs [0xae, 0xc4, 0x57, 0x5b, 0xe8]) [] [] [] 0x00000073#32 with ctx := liveCtx }

/-- V-SYM-1: the five bytes back. -/
theorem test_symdec_vsym1 : (after benchSym2).ob0.value = [0x68#8, 0x65#8, 0x6c#8, 0x6c#8, 0x6f#8] ∧
    (after benchSym2).statusReg = 0x0073000A#32 := by decide +kernel

/-- The provider's answers behind V-DE-1. -/
def tabDe1 : List (Request × Bytes) :=
  [(.cipher .dec 0x0006#16 0x0043#16 (bs [0x00, 0x01, 0x02, 0x03, 0x04, 0x05, 0x06, 0x07, 0x08, 0x09, 0x0a, 0x0b, 0x0c, 0x0d, 0x0e, 0x0f]) (List.replicate 16 0x00#8) (bs [0xc6, 0x81, 0x98, 0x76, 0x24, 0xb9, 0xce, 0x04, 0x82, 0xa3, 0x27, 0x2f, 0x02, 0x7c, 0x9e, 0x07, 0xb6, 0xb8, 0x61, 0xc0] ++
      bs [0x39, 0x4d, 0x5b, 0x1d, 0xe3, 0xc1, 0x74, 0x16, 0xbc, 0x0a, 0x3f, 0x4a, 0x99, 0x1e, 0x05, 0xfa, 0x8c, 0xfc, 0x72, 0x20] ++
      bs [0x6a, 0x3a, 0x6f, 0x24, 0x00, 0x00, 0x00, 0x00]),
    (bs [0x00, 0x20, 0xa3, 0x41, 0xa3, 0x36, 0x95, 0x86, 0xed, 0xec, 0xa6, 0x4d, 0xa3, 0xb4, 0x46, 0x7e, 0x55, 0xfe, 0x82, 0x5d] ++
      bs [0x66, 0x10, 0x5d, 0xab, 0x4a, 0xc9, 0xf8, 0x3d, 0x43, 0x8c, 0x73, 0xb5, 0xdd, 0xb4, 0x00, 0x08, 0xde, 0xad, 0xbe, 0xef] ++
      bs [0x01, 0x02, 0x03, 0x04, 0xb2, 0x29, 0xc1, 0xee]))] ++
  [(.hash .sha256 (bs [0x00, 0x08, 0xde, 0xad, 0xbe, 0xef, 0x01, 0x02, 0x03, 0x04, 0x6e, 0x61, 0x6d, 0x65]),
    (bs [0xa3, 0x41, 0xa3, 0x36, 0x95, 0x86, 0xed, 0xec, 0xa6, 0x4d, 0xa3, 0xb4, 0x46, 0x7e, 0x55, 0xfe, 0x82, 0x5d, 0x66, 0x10] ++
      bs [0x5d, 0xab, 0x4a, 0xc9, 0xf8, 0x3d, 0x43, 0x8c, 0x73, 0xb5, 0xdd, 0xb4]))]

/-- V-DE-1: DEENV SHA256. -/
def benchDe1 : State :=
  bench tabDe1 0x00430006 128 (bs [0xc6, 0x81, 0x98, 0x76, 0x24, 0xb9, 0xce, 0x04, 0x82, 0xa3, 0x27, 0x2f, 0x02, 0x7c, 0x9e, 0x07, 0xb6, 0xb8, 0x61, 0xc0] ++
      bs [0x39, 0x4d, 0x5b, 0x1d, 0xe3, 0xc1, 0x74, 0x16, 0xbc, 0x0a, 0x3f, 0x4a, 0x99, 0x1e, 0x05, 0xfa, 0x8c, 0xfc, 0x72, 0x20] ++
      bs [0x6a, 0x3a, 0x6f, 0x24]) (bs [0x00, 0x01, 0x02, 0x03, 0x04, 0x05, 0x06, 0x07, 0x08, 0x09, 0x0a, 0x0b, 0x0c, 0x0d, 0x0e, 0x0f]) (bs [0x6e, 0x61, 0x6d, 0x65]) [] 0x000b0074#32

/-- V-DE-1. -/
theorem test_deenv_vde1 : (after benchDe1).ob0.value = bs [0xde, 0xad, 0xbe, 0xef, 0x01, 0x02, 0x03, 0x04] ∧
    (after benchDe1).statusReg = 0x0074000A#32 ∧ (after benchDe1).ctx = CipherCtx.released := by decide +kernel

/-- The provider's answers behind V-DE-3. -/
def tabDe3 : List (Request × Bytes) :=
  [(.cipher .dec 0x0006#16 0x0043#16 (bs [0x00, 0x01, 0x02, 0x03, 0x04, 0x05, 0x06, 0x07, 0x08, 0x09, 0x0a, 0x0b, 0x0c, 0x0d, 0x0e, 0x0f]) (List.replicate 16 0x00#8) (bs [0xc6, 0x80, 0x98, 0x76, 0x24, 0xb9, 0xce, 0x04, 0x82, 0xa3, 0x27, 0x2f, 0x02, 0x7c, 0x9e, 0x07, 0x6e, 0x66, 0x14, 0x9d] ++
      bs [0x93, 0x26, 0x0b, 0x4c, 0x5c, 0xd4, 0x53, 0xce, 0x2f, 0x67, 0xa7, 0xd4, 0x01, 0x5d, 0x42, 0x64, 0x0a, 0x16, 0xc8, 0xc6] ++
      bs [0xd4, 0xab, 0xb6, 0x55, 0x00, 0x00, 0x00, 0x00]),
    (bs [0x00, 0x21, 0xa3, 0x41, 0xa3, 0x36, 0x95, 0x86, 0xed, 0xec, 0xa6, 0x4d, 0xa3, 0xb4, 0x46, 0x7e, 0x55, 0xfe, 0x82, 0x5d] ++
      bs [0x66, 0x10, 0x5d, 0xab, 0x4a, 0xc9, 0xf8, 0x3d, 0x43, 0x8c, 0x73, 0xb5, 0xdd, 0xb4, 0x00, 0x08, 0xde, 0xad, 0xbe, 0xef] ++
      bs [0x01, 0x02, 0x03, 0x04, 0x92, 0x0a, 0xd5, 0xaa]))] ++
  [(.hash .sha256 (bs [0x00, 0x08, 0xde, 0xad, 0xbe, 0xef, 0x01, 0x02, 0x03, 0x04, 0x6e, 0x61, 0x6d, 0x65]),
    (bs [0xa3, 0x41, 0xa3, 0x36, 0x95, 0x86, 0xed, 0xec, 0xa6, 0x4d, 0xa3, 0xb4, 0x46, 0x7e, 0x55, 0xfe, 0x82, 0x5d, 0x66, 0x10] ++
      bs [0x5d, 0xab, 0x4a, 0xc9, 0xf8, 0x3d, 0x43, 0x8c, 0x73, 0xb5, 0xdd, 0xb4]))]

/-- V-DE-3: the tag's own length prefix says 0x21. -/
def benchDe3 : State :=
  bench tabDe3 0x00430006 128 (bs [0xc6, 0x80, 0x98, 0x76, 0x24, 0xb9, 0xce, 0x04, 0x82, 0xa3, 0x27, 0x2f, 0x02, 0x7c, 0x9e, 0x07, 0x6e, 0x66, 0x14, 0x9d] ++
      bs [0x93, 0x26, 0x0b, 0x4c, 0x5c, 0xd4, 0x53, 0xce, 0x2f, 0x67, 0xa7, 0xd4, 0x01, 0x5d, 0x42, 0x64, 0x0a, 0x16, 0xc8, 0xc6] ++
      bs [0xd4, 0xab, 0xb6, 0x55]) (bs [0x00, 0x01, 0x02, 0x03, 0x04, 0x05, 0x06, 0x07, 0x08, 0x09, 0x0a, 0x0b, 0x0c, 0x0d, 0x0e, 0x0f]) (bs [0x6e, 0x61, 0x6d, 0x65]) [] 0x000b0074#32

/-- V-DE-3: the prefix is part of the compared tag. -/
theorem test_deenv_vde3 : (after benchDe3).statusReg = 0x00740706#32 ∧ (after benchDe3).ob0.len = 0 := by decide +kernel

/-- The provider's answers behind V-DE-6. -/
def tabDe6 : List (Request × Bytes) :=
  [(.cipher .dec 0x0006#16 0x0043#16 (bs [0x00, 0x01, 0x02, 0x03, 0x04, 0x05, 0x06, 0x07, 0x08, 0x09, 0x0a, 0x0b, 0x0c, 0x0d, 0x0e, 0x0f]) (List.replicate 16 0x00#8) (bs [0xc6, 0x81, 0xf1, 0x85, 0x3f, 0xd4, 0x46, 0x2e, 0xf5, 0x2e, 0x7a, 0xa6, 0x0b, 0x67, 0xb8, 0x20, 0x93, 0xc9, 0x6b, 0x25] ++
      bs [0x07, 0x31, 0x77, 0x17, 0x7d, 0xa5, 0x49, 0xd1, 0x1f, 0x77, 0xcf, 0xd8, 0x61, 0x30, 0xdc, 0xd3, 0x2d, 0x76, 0xd7, 0x3c] ++
      bs [0xb2, 0xbf, 0x66, 0xbd, 0x00, 0x00, 0x00, 0x00]),
    (bs [0x00, 0x20, 0xca, 0xb2, 0xb8, 0x5b, 0x1d, 0xac, 0x9a, 0x61, 0xfb, 0xc4, 0xaa, 0xaf, 0x60, 0x59, 0x6e, 0x9d, 0xf5, 0x7a] ++
      bs [0x73, 0x05, 0xd3, 0x6b, 0x78, 0x05, 0x48, 0x98, 0x3a, 0x04, 0x4b, 0x3b, 0xb8, 0x04, 0x00, 0x09, 0xde, 0xad, 0xbe, 0xef] ++
      bs [0x01, 0x02, 0x03, 0x04, 0x05, 0x77, 0x41, 0x9d]))] ++
  [(.hash .sha256 (bs [0x00, 0x09, 0xde, 0xad, 0xbe, 0xef, 0x01, 0x02, 0x03, 0x04, 0x6e, 0x61, 0x6d, 0x65]),
    (bs [0xca, 0xb2, 0xb8, 0x5b, 0x1d, 0xac, 0x9a, 0x61, 0xfb, 0xc4, 0xaa, 0xaf, 0x60, 0x59, 0x6e, 0x9d, 0xf5, 0x7a, 0x73, 0x05] ++
      bs [0xd3, 0x6b, 0x78, 0x05, 0x48, 0x98, 0x3a, 0x04, 0x4b, 0x3b, 0xb8, 0x04]))]

/-- V-DE-6: the payload's prefix says 9, 8 are there; the tag matches. -/
def benchDe6 : State :=
  bench tabDe6 0x00430006 128 (bs [0xc6, 0x81, 0xf1, 0x85, 0x3f, 0xd4, 0x46, 0x2e, 0xf5, 0x2e, 0x7a, 0xa6, 0x0b, 0x67, 0xb8, 0x20, 0x93, 0xc9, 0x6b, 0x25] ++
      bs [0x07, 0x31, 0x77, 0x17, 0x7d, 0xa5, 0x49, 0xd1, 0x1f, 0x77, 0xcf, 0xd8, 0x61, 0x30, 0xdc, 0xd3, 0x2d, 0x76, 0xd7, 0x3c] ++
      bs [0xb2, 0xbf, 0x66, 0xbd]) (bs [0x00, 0x01, 0x02, 0x03, 0x04, 0x05, 0x06, 0x07, 0x08, 0x09, 0x0a, 0x0b, 0x0c, 0x0d, 0x0e, 0x0f]) (bs [0x6e, 0x61, 0x6d, 0x65]) [] 0x000b0074#32

/-- The provider's answers behind V-DE-8. -/
def tabDe8 : List (Request × Bytes) :=
  [(.cipher .dec 0x0006#16 0x0043#16 (bs [0x00, 0x01, 0x02, 0x03, 0x04, 0x05, 0x06, 0x07, 0x08, 0x09, 0x0a, 0x0b, 0x0c, 0x0d, 0x0e, 0x0f]) (List.replicate 16 0x00#8) (bs [0xc6, 0x81, 0xb9, 0x94, 0xd4, 0xf0, 0xab, 0x59, 0xa1, 0x31, 0x6d, 0x57, 0x77, 0x56, 0x04, 0x43, 0x02, 0x4f, 0x17, 0x34] ++
      bs [0xfa, 0xdb, 0x8a, 0x13, 0x55, 0x73, 0x11, 0x39, 0x7a, 0xce, 0xf0, 0xb3, 0x2a, 0x40, 0x00, 0x00, 0x00, 0x00, 0x00, 0x00] ++
      bs [0x00, 0x00, 0x00, 0x00, 0x00, 0x00, 0x00, 0x00]),
    (bs [0x00, 0x20, 0x82, 0xa3, 0x53, 0x7f, 0xf0, 0xdb, 0xce, 0x7e, 0xec, 0x35, 0xd6, 0x9e, 0xdc, 0x3a, 0x18, 0x9e, 0xe6, 0xf1] ++
      bs [0x7d, 0x82, 0xf3, 0x53, 0xa5, 0x53, 0xf9, 0xaa, 0x96, 0xcb, 0x0b, 0xe3, 0xce, 0x89, 0x28, 0xe0, 0x63, 0x7c, 0x19, 0x8f] ++
      bs [0xee, 0xd9, 0x40, 0x76, 0xac, 0x72, 0xf9, 0x40]))] ++
  [(.hash .sha256 (bs [0x6e, 0x61, 0x6d, 0x65]),
    (bs [0x82, 0xa3, 0x53, 0x7f, 0xf0, 0xdb, 0xce, 0x7e, 0xec, 0x35, 0xd6, 0x9e, 0xdc, 0x3a, 0x18, 0x9e, 0xe6, 0xf1, 0x7d, 0x82] ++
      bs [0xf3, 0x53, 0xa5, 0x53, 0xf9, 0xaa, 0x96, 0xcb, 0x0b, 0xe3, 0xce, 0x89]))]

/-- V-DE-8: an empty payload with a matching tag. -/
def benchDe8 : State :=
  bench tabDe8 0x00430006 128 (bs [0xc6, 0x81, 0xb9, 0x94, 0xd4, 0xf0, 0xab, 0x59, 0xa1, 0x31, 0x6d, 0x57, 0x77, 0x56, 0x04, 0x43, 0x02, 0x4f, 0x17, 0x34] ++
      bs [0xfa, 0xdb, 0x8a, 0x13, 0x55, 0x73, 0x11, 0x39, 0x7a, 0xce, 0xf0, 0xb3, 0x2a, 0x40]) (bs [0x00, 0x01, 0x02, 0x03, 0x04, 0x05, 0x06, 0x07, 0x08, 0x09, 0x0a, 0x0b, 0x0c, 0x0d, 0x0e, 0x0f]) (bs [0x6e, 0x61, 0x6d, 0x65]) [] 0x000b0074#32

/-- CLRBUF with full buffers and a live context. -/
def benchClr : State :=
  { bench [] 7 9 (bs [1, 2]) (bs [3]) (bs [4]) (bs [5]) 0x0000007F#32 with
    ob0 := Buffer.ofBytes (bs [6]), ob1 := Buffer.ofBytes (bs [7]), ctx := liveCtx }

/-- 47_symenv.md R197. -/
theorem test_clrbuf : (after benchClr).ib0 = ⟨[], 0⟩ ∧ (after benchClr).ib3 = ⟨[], 0⟩ ∧ (after benchClr).ob1 = ⟨[], 0⟩ ∧
    (after benchClr).statusReg = 0x007F000A#32 ∧ (after benchClr).p0 = 7 ∧ (after benchClr).ctx = liveCtx := by decide +kernel

/-- 95_test_vectors.md 2.1. -/
theorem test_digsz_sha384 :
    (after (bench [] 0 0 [] [] [] [] 0x000c0001#32)).res = 48 ∧
    (after (bench [] 0 0 [] [] [] [] 0x000c0001#32)).statusReg = 0x0001000a#32 := by decide +kernel

/-- 95_test_vectors.md 2.1: UnsupportedAlgorithm. -/
theorem test_digsz_outside :
    (after (bench [] 0 0 [] [] [] [] 0x00050001#32)).res = 0 ∧
    (after (bench [] 0 0 [] [] [] [] 0x00050001#32)).statusReg = 0x00010106#32 := by decide +kernel

/-- 95_test_vectors.md 2.1. -/
theorem test_blksz_sha384 :
    (after (bench [] 0 0 [] [] [] [] 0x000c0002#32)).res = 128 ∧
    (after (bench [] 0 0 [] [] [] [] 0x000c0002#32)).statusReg = 0x0002000a#32 := by decide +kernel

/-- 95_test_vectors.md 2.1: NONE is no error. -/
theorem test_blksz_none :
    (after (bench [] 0 0 [] [] [] [] 0x00100002#32)).res = 0 ∧
    (after (bench [] 0 0 [] [] [] [] 0x00100002#32)).statusReg = 0x0002000a#32 := by decide +kernel

/-- 95_test_vectors.md 2.1. -/
theorem test_ishash_sm3 :
    (after (bench [] 0 0 [] [] [] [] 0x00120003#32)).res = 1 ∧
    (after (bench [] 0 0 [] [] [] [] 0x00120003#32)).statusReg = 0x0003000a#32 := by decide +kernel

/-- 95_test_vectors.md 2.1. -/
theorem test_ishash_none :
    (after (bench [] 0 0 [] [] [] [] 0x00100003#32)).res = 0 ∧
    (after (bench [] 0 0 [] [] [] [] 0x00100003#32)).statusReg = 0x0003000a#32 := by decide +kernel

/-! ## Sequencer and host accesses -/

/-- 95_test_vectors.md 2.10: SPLIT with ALG 4 completes with IllegalCommand. -/
theorem test_illegal_word :
    (after (bench [] 1 2 (bs [9]) [] [] [] 0x00040021#32)).statusReg = 0x00210B06#32 ∧
    (after (bench [] 1 2 (bs [9]) [] [] [] 0x00040021#32)).ib0.value = [9#8] ∧
    (after (bench [] 1 2 (bs [9]) [] [] [] 0x00040021#32)).seq = .idle := by decide +kernel

/-- `withFetchWord` makes the next step run the word. -/
theorem test_fetch_word : (after (State.reset.withFetchWord 32 0x000C0001)).res = 48 := by decide +kernel

/-- 95_test_vectors.md 2.10, register accesses after reset. -/
theorem test_registers :
    State.reset.hostAccess ⟨.read, 0x00000, 4, 0⟩ = (State.reset, .okayData 0x52504144#32) ∧
    State.reset.hostAccess ⟨.read, 0x00008, 4, 0⟩ = (State.reset, .okayData 0x02401000#32) ∧
    State.reset.hostAccess ⟨.read, 0x00010, 2, 0⟩ = (State.reset, .error) ∧
    State.reset.hostAccess ⟨.read, 0x0001C, 4, 0⟩ = (State.reset, .error) ∧
    State.reset.hostAccess ⟨.write, 0x00000, 4, 5⟩ = (State.reset, .error) ∧
    (State.reset.hostAccess ⟨.write, 0x00040, 4, 4096⟩).1.ib0.len = 4096 ∧
    State.reset.hostAccess ⟨.write, 0x00040, 4, 4097⟩ = (State.reset, .error) := by decide +kernel

/-- 95_test_vectors.md 2.10, buffer accesses after reset. -/
theorem test_buffers :
    (State.reset.hostAccess ⟨.write, 0x10FFF, 1, 0x7e⟩).1.ib0.mem = [(4095, 0x7e#8)] ∧
    State.reset.hostAccess ⟨.write, 0x11000, 1, 0x7e⟩ = (State.reset, .error) ∧
    State.reset.hostAccess ⟨.write, 0x10001, 2, 0x7e⟩ = (State.reset, .error) ∧
    (State.reset.hostAccess ⟨.write, 0x20000, 4, 0x44332211⟩).1.ib1.mem.bytes 4 = bs [0x11, 0x22, 0x33, 0x44] ∧
    ((State.reset.hostAccess ⟨.write, 0x20000, 4, 0x44332211⟩).1.hostAccess ⟨.read, 0x20002, 2, 0⟩).2 =
      .okayData 0x4433#32 := by decide +kernel

/-- A reset while a command runs abandons it (70_reset_and_hazards.md R232). -/
theorem test_reset_while_busy :
    after { bench [] 1 2 (bs [9]) [] [] [] 0x30#32 with agenda := [.reset, .engine] } =
      { State.reset with agenda := [.engine] } := by decide +kernel

/-! ## Witnesses: for every obligation with hypotheses, states and operands that meet them, one for each clause, at the
boundary of its range -/

/-- A state in use: SPLIT latched, IB0 loaded, a live context, an access to come. -/
def inUse : State :=
  { bench [] 8 8 (bs [1, 2]) [] [] [] 0x00000021#32 with ctx := liveCtx, agenda := [.access (rd .status)] }

theorem witness_EncodeOfDecode : decode 0xFFFF0074#32 = .ok (.deenv 0xFFFF#16) ∧
    decode 0x00000370#32 = .ok (.ctxnew true true) := by decide

theorem witness_DecodeFindsTheUniqueRow : 0x00000270#32 &&& Mnemonic.ctxnew.mask = Mnemonic.ctxnew.pattern ∧
    0xFFFF0001#32 &&& Mnemonic.digsz.mask = Mnemonic.digsz.pattern := by decide

theorem witness_AssemblerWordDecodes : AsmCommand.wellFormed ⟨.ctxnew, true, true, none⟩ = true ∧
    AsmCommand.wellFormed ⟨.deenv, false, false, some 0xFFFF#16⟩ = true := by decide

theorem witness_StepRunsTheLatchedCommand :
    (bench [] 0 0 [] [] [] [] 0x0000007F#32).seq = .busy 0x0000007F#32 ∧ decode 0x0000007F#32 = .ok .clrbuf ∧
    (bench [] 0 0 [] [] [] [] 0x0000007F#32).agenda = [] ∧
    { bench [] 0 0 [] [] [] [] 0x0000007F#32 with agenda := [.engine, .reset] }.agenda = .engine :: [.reset] ∧
    State.reset.seq = .idle ∧ State.reset.agenda = [] ∧
    { State.reset with agenda := [.engine, .reset] }.agenda = .engine :: [.reset] ∧
    inUse.agenda = .access (rd .status) :: [] ∧
    State.hostAccess { inUse with agenda := [] } (rd .status) =
      ({ inUse with agenda := [] }, .okayData 0x00210001#32) := by
  decide +kernel

theorem witness_IllegalWordCompletesAsIllegalCommand :
    (bench [] 1 2 (bs [9]) [] [] [] 0x00040021#32).seq = .busy 0x00040021#32 ∧
    decode 0x00040021#32 = .error .algNotZero ∧ (bench [] 1 2 (bs [9]) [] [] [] 0x00040021#32).agenda = [] ∧
    { bench [] 1 2 (bs [9]) [] [] [] 0x00040021#32 with agenda := [.engine, .reset] }.agenda = .engine :: [.reset] := by
  decide +kernel

theorem witness_CmdWriteStarts : State.reset.seq = .idle := rfl

theorem witness_ResetClearsEverything : { benchClr with agenda := [.reset, .engine] }.agenda = .reset :: [.engine] := rfl

theorem witness_inv : inUse.Inv where
  cfg_wf := by decide +kernel
  ib_fits k := by fin_cases k <;> exact ⟨by decide, by decide, by decide⟩
  ob_fits k := by fin_cases k <;> exact ⟨by decide, by decide, by decide⟩
  ob_zero k := by fin_cases k <;> decide
  inten_bit := by decide
  opc_cmd := by decide
  busy_clear w h := by cases h; decide
  err_code := by decide
  ok_err := by decide
  ctx_legal := .inr ⟨rfl, by decide +kernel, by decide, by decide, by decide, by decide⟩
  loop_clear := rfl
  transient_clear := rfl

theorem witness_EveryStepKeepsTheInvariant : inUse.Inv ∧ ∃ t, step inUse = .next t ∧ t.busAnswer ≠ none :=
  ⟨witness_inv, _, rfl, by decide⟩

theorem witness_BusyRefusesAllButRegisterReads : inUse.busy = true ∧ (wr .p0 5).kind = .write ∧
    (rb (.ob 1) 0).window ≠ 0 := by decide

theorem witness_BusErrorChangesNothing : (inUse.hostAccess (wr .cmd 0x7F)).2 = .error ∧
    (State.reset.hostAccess (rb (.ib 0) 4096)).2 = .error := by decide +kernel

theorem witness_ReadsHaveNoSideEffect : (rd .status).kind = .read ∧ (rw32 (.ob 0) 8).kind = .read := by decide

theorem witness_RegisterMapIsR32 :
    (rd .ctxStat).window = 0 ∧ Access.size ⟨.read, 0x068, 2, 0⟩ ≠ 4 ∧
    (Access.window ⟨.read, 0x0FFFF, 4, 0⟩ = 0 ∧ Access.inner ⟨.read, 0x0FFFF, 4, 0⟩ = 0xFFFF) ∧
    Access.window ⟨.read, 0x0001C, 4, 0⟩ = 0 ∧ Access.inner ⟨.read, 0x0001C, 4, 0⟩ = 0x1C ∧
    Access.window ⟨.read, 0x70000, 4, 0⟩ = 7 ∧ Access.window ⟨.write, 0x7FFFF, 1, 0⟩ = 7 ∧
    Access.window ⟨.write, 0x50000, 1, 0⟩ = 5 ∧ Access.window ⟨.write, 0x6FFFF, 1, 0⟩ = 6 ∧
    (wr .ctxStat 0).window = 0 ∧ (wr .ctxStat 0).inner = 0x068 ∧ (wr .id 0).inner = 0x000 := by decide

theorem witness_RegisterWritesStore : State.reset.seq = .idle ∧ (4096#32).toNat ≤ State.reset.cfg.bufcap ∧
    State.reset.cfg.bufcap < (4097#32).toNat ∧ (2#32).getLsbD 1 = true ∧ (0xFFFFFFFD#32).getLsbD 1 = false := by decide

/-- A state in use, idle. -/
def inUseIdle : State := { inUse with seq := .idle }

theorem witness_inv_idle : inUseIdle.Inv where
  cfg_wf := witness_inv.cfg_wf
  ib_fits k := by fin_cases k <;> exact ⟨by decide, by decide, by decide⟩
  ob_fits k := by fin_cases k <;> exact ⟨by decide, by decide, by decide⟩
  ob_zero k := by fin_cases k <;> decide
  inten_bit := by decide
  opc_cmd := by decide
  busy_clear w h := by cases h
  err_code := by decide
  ok_err := by decide
  ctx_legal := witness_inv.ctx_legal
  loop_clear := rfl
  transient_clear := rfl

theorem witness_BufferWriteStoresItsBytes : inUseIdle.Inv ∧ inUseIdle.seq = .idle ∧
    (ww (.ib 3) 4092 0).kind = .write ∧ (ww (.ib 3) 4092 0).window = (3 : Fin 4).val + 1 ∧
    (ww (.ib 3) 4092 0).inner % 4 = 0 ∧ (ww (.ib 3) 4092 0).inner + 4 ≤ inUseIdle.cfg.bufcap ∧
    (wb (.ib 0) 4095 0).window = (0 : Fin 4).val + 1 ∧ (wb (.ib 0) 4095 0).inner + 1 ≤ inUseIdle.cfg.bufcap ∧
    (wb (.ib 0) 4096 0).window = (0 : Fin 4).val + 1 ∧ ¬ (wb (.ib 0) 4096 0).inner + 1 ≤ inUseIdle.cfg.bufcap :=
  ⟨witness_inv_idle, by decide +kernel⟩

theorem witness_BufferReadGivesStoredBytes : State.reset.seq = .idle ∧
    (rb (.ib 0) 4095).kind = .read ∧ (rb (.ib 0) 4095).window = 1 ∧ (rb (.ib 0) 4095).size = 1 ∧
    (rb (.ib 0) 4095).inner + 1 ≤ State.reset.cfg.bufcap ∧
    Access.window ⟨.read, 0x60FFE, 2, 0⟩ = 6 ∧ Access.inner ⟨.read, 0x60FFE, 2, 0⟩ % 2 = 0 ∧
    Access.inner ⟨.read, 0x60FFE, 2, 0⟩ + 2 ≤ State.reset.cfg.bufcap ∧
    (rw32 (.ob 1) 4092).window = 6 ∧ (rw32 (.ob 1) 4092).inner % 4 = 0 ∧ (rw32 (.ob 1) 4092).size = 4 ∧
    (rw32 (.ob 1) 4092).inner + 4 ≤ State.reset.cfg.bufcap ∧
    (rb (.ib 0) 4096).window = 1 ∧ ¬ (rb (.ib 0) 4096).inner + 1 ≤ State.reset.cfg.bufcap ∧
    Access.window ⟨.read, 0x60001, 2, 0⟩ = 6 ∧ Access.inner ⟨.read, 0x60001, 2, 0⟩ % 2 ≠ 0 ∧
    Access.window ⟨.read, 0x20000, 3, 0⟩ = 2 ∧ ¬ (3 = 1 ∨ 3 = 2 ∨ 3 = 4) ∧
    (rb (.ob 0) 0).window = 5 ∧ inUse.seq ≠ .idle := by decide +kernel

theorem witness_HiddenStoresAreNotReadable :
    inUse.SameVisible { inUse with ctx := { inUse.ctx with key := [(0, 1#8)], iv := [(3, 2#8)] } } ∧
    { inUse with ctx := { inUse.ctx with key := [(0, 1#8)], iv := [(3, 2#8)] } } ≠ inUse := ⟨rfl, by decide +kernel⟩

theorem witness_DigszAnswersDigestSize :
    0x0005#16 ∉ [0x0004#16, 0x000B#16, 0x000C#16, 0x000D#16, 0x0012#16, 0x0010#16] := by decide

theorem witness_BlkszAnswersBlockSize :
    0xFFFF#16 ∉ [0x0004#16, 0x000B#16, 0x000C#16, 0x000D#16, 0x0012#16, 0x0010#16] := by decide

theorem witness_Mgf1GivesTheMask : 0x0010#16 ∉ hashTable.map Prod.fst ∧ 0x0005#16 ∉ hashTable.map Prod.fst ∧
    (0x000B#16, .sha256) ∈ hashTable ∧
    (bench [] 4096 0 [] [] [] [] 0x10).p0.toNat ≤ (bench [] 4096 0 [] [] [] [] 0x10).cfg.bufcap ∧
    (bench [] 4097 0 [] [] [] [] 0x10).cfg.bufcap < (bench [] 4097 0 [] [] [] [] 0x10).p0.toNat := by decide

theorem witness_Mgf1ControllerCounts : 65536 ≤ 65536 ∧ ceilDiv 65536 (digestSize .sha1) = 3277 := by decide

theorem witness_Mgf1PrefixProperty : 3 ≤ 20 ∧ 20 ≤ 20 := by decide

theorem witness_KdfaGivesTheShiftedStream : 0x0010#16 ∉ hashTable.map Prod.fst ∧ 0x0005#16 ∉ hashTable.map Prod.fst ∧
    (0x0004#16, .sha1) ∈ hashTable ∧
    205 = ceilDiv (32768#32).toNat (digestSize .sha1 * 8) ∧ 4096 = ceilDiv (32768#32).toNat 8 ∧
    4096 ≤ (bench [] 32768 0 [] [] [] [] 0x20).cfg.bufcap ∧
    205 = ceilDiv (32769#32).toNat (digestSize .sha1 * 8) ∧ 4097 = ceilDiv (32769#32).toNat 8 ∧
    (bench [] 32769 0 [] [] [] [] 0x20).cfg.bufcap < 4097 := by decide

theorem witness_KdfaLengthInBits : 160 % 8 = 0 ∧ 0 % 8 = 0 := by decide

theorem witness_SplitCutsTheBuffer :
    (16#32).toNat % 8 = 0 ∧ (32#32).toNat % 8 = 0 ∧
    (16#32).toNat / 8 + (32#32).toNat / 8 ≤ (bench [] 16 32 (bs [1, 2, 3, 4, 5, 6]) [] [] [] 0x21).ib0.len ∧
    (12#32).toNat % 8 ≠ 0 ∧ (40#32).toNat % 8 = 0 ∧
    (bench [] 16 40 (bs [1, 2, 3, 4, 5, 6]) [] [] [] 0x21).ib0.len < (16#32).toNat / 8 + (40#32).toNat / 8 := by decide

theorem witness_XorIsBytewise : benchXor1.ib0.len = benchXor1.ib1.len ∧ benchXor2.ib0.len ≠ benchXor2.ib1.len := by
  decide

theorem witness_KdfxorMasksTheData : 0x0010#16 ∉ hashTable.map Prod.fst ∧ 0x0005#16 ∉ hashTable.map Prod.fst ∧
    (0x0012#16, .sm3) ∈ hashTable := by decide

theorem witness_KdfxorIsItsOwnInverse : 0x000B#16 ∈ hashTable.map Prod.fst ∧
    ∃ t u, exec (.kdfxor 0x000B#16) benchKx1 = .next t ∧ exec (.kdfxor 0x000B#16) { t with ib1 := t.ob0 } = .next u :=
  ⟨by decide, _, _, rfl, rfl⟩

theorem witness_OaepencEncodes : 0x0010#16 ∉ hashTable.map Prod.fst ∧ 0x0005#16 ∉ hashTable.map Prod.fst ∧
    (0x0004#16, .sha1) ∈ hashTable ∧
    ((benchOaep1.ib0.len : Int) ≤ (benchOaep1.p0.toNat : Int) - 1 - 2 * digestSize .sha1 - 1 ∧
      benchOaep1.p0.toNat - 1 ≤ benchOaep1.cfg.bufcap ∧
      20 + benchOaep1.ib0.len + 2 * digestSize .sha1 + 2 = benchOaep1.p0.toNat) ∧
    (((bench [] 42 0 [] [] [] [] 0x40).ib0.len : Int) ≤ ((42#32).toNat : Int) - 1 - 2 * digestSize .sha1 - 1 ∧
      (42#32).toNat - 1 ≤ (bench [] 42 0 [] [] [] [] 0x40).cfg.bufcap ∧
      0 + (bench [] 42 0 [] [] [] [] 0x40).ib0.len + 2 * digestSize .sha1 + 2 = (42#32).toNat) ∧
    (benchOaep3.p0.toNat : Int) - 1 - 2 * digestSize .sha1 - 1 < (benchOaep3.ib0.len : Int) ∧
    (((bench [] 4098 0 [] [] [] [] 0x40).ib0.len : Int) ≤ ((4098#32).toNat : Int) - 1 - 2 * digestSize .sha1 - 1 ∧
      (bench [] 4098 0 [] [] [] [] 0x40).cfg.bufcap < (4098#32).toNat - 1) := by decide

theorem witness_OaepdecDecodes : 0x0010#16 ∉ hashTable.map Prod.fst ∧ 0x0005#16 ∉ hashTable.map Prod.fst ∧
    (0x0004#16, .sha1) ∈ hashTable ∧
    oaepDecode benchOaep2.cfg .sha1 benchOaep2.ib0.value benchOaep2.ib1.value = some [] ∧
    oaepDecode benchOaep6.cfg .sha1 benchOaep6.ib0.value benchOaep6.ib1.value = none := by decide +kernel

theorem witness_OaepRoundTrip : (zeros 20).length = digestSize .sha1 ∧
    ([] : Bytes).length + 2 * digestSize .sha1 + 2 ≤ 42 := by decide

theorem witness_OaepdecFailuresLookAlike : (0x0004#16, .sha1) ∈ hashTable ∧
    { benchOaep6 with ib0 := Buffer.empty } =
      { benchOaep6 with
        ib0 := { benchOaep6 with ib0 := Buffer.empty }.ib0, ib1 := { benchOaep6 with ib0 := Buffer.empty }.ib1 } ∧
    oaepDecode benchOaep6.cfg .sha1 benchOaep6.ib0.value benchOaep6.ib1.value = none ∧
    oaepDecode benchOaep6.cfg .sha1 Buffer.empty.value benchOaep6.ib1.value = none :=
  ⟨by decide, rfl, by decide +kernel⟩

theorem witness_PssencEncodes : 0x0010#16 ∉ hashTable.map Prod.fst ∧ 0x0005#16 ∉ hashTable.map Prod.fst ∧
    (0x0004#16, .sha1) ∈ hashTable ∧ 27 = ceilDiv benchPss4.p1.toNat 8 ∧
    (27 ≤ benchPss4.cfg.bufcap ∧ 1 + benchPss4.p0.toNat + digestSize .sha1 + 2 = 27) ∧
    (22 = ceilDiv (176#32).toNat 8 ∧ 22 ≤ (bench [] 0 176 [] [] [] [] 0x50).cfg.bufcap ∧
      0 + (0#32).toNat + digestSize .sha1 + 2 = 22) ∧
    34 = ceilDiv benchPss3.p1.toNat 8 ∧ 34 < digestSize .sha256 + benchPss3.p0.toNat + 2 ∧
    4097 = ceilDiv (32769#32).toNat 8 ∧ digestSize .sha1 + (0#32).toNat + 2 ≤ 4097 ∧
    (bench [] 0 32769 [] [] [] [] 0x50).cfg.bufcap < 4097 := by decide

theorem witness_PssvfyNeverErrs : 0x0010#16 ∉ hashTable.map Prod.fst ∧ 0x0005#16 ∉ hashTable.map Prod.fst ∧
    (0x0004#16, .sha1) ∈ hashTable ∧
    pssVerify benchPssv4.cfg .sha1 benchPssv4.ib0.value benchPssv4.ib1.value benchPssv4.p0.toNat
      benchPssv4.p1.toNat = true ∧
    pssVerify benchPssv4x.cfg .sha1 benchPssv4x.ib0.value benchPssv4x.ib1.value benchPssv4x.p0.toNat
      benchPssv4x.p1.toNat = false := by decide +kernel

theorem witness_PssVerifyAcceptsExactly : 64 = ceilDiv 511 8 ∧ 0x7F#8 = 0xFF#8 >>> (8 * 64 - 511) ∧
    27 = ceilDiv 209 8 ∧ 0x01#8 = 0xFF#8 >>> (8 * 27 - 209) ∧ 64 = ceilDiv 512 8 ∧ 0xFF#8 = 0xFF#8 >>> (8 * 64 - 512) := by
  decide

theorem witness_OaepDecodeAcceptsExactly :
    ∃ seed db : Bytes,
      seed = xorBytes (benchOaep2.ib0.value.take 20) (mgf1 benchOaep2.cfg .sha1 (benchOaep2.ib0.value.drop 20) 20) ∧
      db = xorBytes (benchOaep2.ib0.value.drop 20) (mgf1 benchOaep2.cfg .sha1 seed 21) ∧ db.getLast? = some 0x01#8 :=
  ⟨_, _, rfl, rfl, by decide +kernel⟩

theorem witness_PssRoundTrip : digestSize .sha256 + ([] : Bytes).length + 2 ≤ ceilDiv 272 8 ∧
    digestSize .sha1 + (bs [0xa0, 0xa1, 0xa2, 0xa3]).length + 2 ≤ ceilDiv 209 8 := by decide

theorem witness_P15encEncodes : 0x0012#16 ∉ [0x0004#16, 0x000B#16, 0x000C#16, 0x000D#16] ∧
    (0x0004#16, RealHash.sha1, bs [0x30, 0x21, 0x30, 0x09, 0x06, 0x05, 0x2b, 0x0e, 0x03, 0x02, 0x1a, 0x05, 0x00, 0x04,
        0x14]) ∈
      [(0x0004#16, RealHash.sha1, [0x30#8, 0x21#8, 0x30#8, 0x09#8, 0x06#8, 0x05#8, 0x2b#8, 0x0e#8, 0x03#8, 0x02#8,
        0x1a#8, 0x05#8, 0x00#8, 0x04#8, 0x14#8])] ∧
    (8 ≤ 8 ∧ 8 + 15 + digestSize .sha1 + 3 = benchP15.p0.toNat ∧ benchP15.p0.toNat ≤ benchP15.cfg.bufcap) ∧
    (45#32).toNat < 15 + digestSize .sha1 + 11 ∧
    (15 + digestSize .sha1 + 11 ≤ (4097#32).toNat ∧ (bench [] 4097 0 [] [] [] [] 0x60).cfg.bufcap < (4097#32).toNat) := by
  decide

theorem witness_CtxnewMakesOrReleases :
    symBlock benchCtx1.cfg 0x00430007#32 128 = none ∧
    symBlock benchCtx1.cfg benchCtx1.p0 benchCtx1.p1.toNat = some 16 ∧
    (8 * (bench [] 0x00430006 128 (zeros 15) [] [] [] 0x70).ib0.len ≠ (128#32).toNat) ∧
    (symBlock benchCtx2.cfg benchCtx2.p0 benchCtx2.p1.toNat = some 16 ∧ benchCtx2.ib1.len ≠ 16) ∧
    (8 * benchCtx1.ib0.len = benchCtx1.p1.toNat ∧
      (bench [] 0x00430006 128 (zeros 16) (zeros 16) [] [] 0x270).ib1.len = 16) := by decide +kernel

theorem witness_SymencSymdecTransform :
    (Dir.dec, Instr.symdec true) ∈ [(Dir.enc, Instr.symenc true), (.dec, .symdec true)] ∧
    benchSym5.ctx.valid = false ∧
    ({ bench [] 0 0 [] (zeros 15) [] [] 0x273 with ctx := liveCtx }.ctx.valid = true ∧
      { bench [] 0 0 [] (zeros 15) [] [] 0x273 with ctx := liveCtx }.ib1.len ≠ liveCtx.blk.toNat) ∧
    ({ bench [] 0 0 [] (zeros 16) [] [] 0x273 with ctx := liveCtx }.ib1.len = liveCtx.blk.toNat ∧
      { bench [] 0 0 [] (zeros 16) [] [] 0x273 with ctx := liveCtx }.ib0.len = 0) ∧
    (benchSym1.ctx.valid = true ∧ benchSym1.ib0.len ≠ 0 ∧ 11 < benchSym1.ctx.blk.toNat ∧
      (benchSym1.ib0.len + 11) % benchSym1.ctx.blk.toNat = 0) ∧
    ({ bench [] 0 0 (zeros 32) (zeros 16) [] [] 0x272 with ctx := liveCtx }.ib1.len = liveCtx.blk.toNat ∧
      0 < liveCtx.blk.toNat ∧ ((32 : Nat) + 0) % liveCtx.blk.toNat = 0) ∧ benchSym1.cfg.ivPolicy = .unchanged := by
  decide +kernel

theorem witness_DeenvRecoversTheSecret : (0x000B#16, .sha256) ∈ hashTable ∧
    symBlock benchDe1.cfg benchDe1.p0 benchDe1.p1.toNat = some 16 ∧ 8 * benchDe1.ib1.len = benchDe1.p1.toNat ∧
    (bs [0xde, 0xad, 0xbe, 0xef, 1, 2, 3, 4]).length < 65536 ∧
    (symTransform benchDe1.cfg .dec (CipherCtx.make benchDe1.p0 benchDe1.p1 16 benchDe1.ib1.value (zeros 16)) benchDe1.ib0.value
        (zeros 16)).1 =
      be16 (digestSize .sha256) ++
        providerHash benchDe1.cfg .sha256
          ((be16 8 ++ bs [0xde, 0xad, 0xbe, 0xef, 1, 2, 3, 4]) ++ benchDe1.ib2.value) ++
        (be16 8 ++ bs [0xde, 0xad, 0xbe, 0xef, 1, 2, 3, 4]) := by decide +kernel

/-- What DEENV decrypts on a bench state. -/
def innerOf (s : State) : Bytes :=
  (symTransform s.cfg .dec (CipherCtx.make s.p0 s.p1 16 s.ib1.value (zeros 16)) s.ib0.value (zeros 16)).1

theorem witness_DeenvFollowsItsSteps : 0x0010#16 ∉ hashTable.map Prod.fst ∧ 0x0005#16 ∉ hashTable.map Prod.fst ∧
    (0x000B#16, .sha256) ∈ hashTable ∧
    symBlock benchDe1.cfg 0x00450006#32 128 = none ∧
    8 * (bench [] 0x00430006 128 [] (zeros 15) [] [] 0x74).ib1.len ≠ (128#32).toNat ∧
    (innerOf (bench [] 0x00430006 128 (zeros 33) (zeros 16) [] [] 0x74)).length < digestSize .sha256 + 2 ∧
    (digestSize .sha256 + 2 ≤ benchDe3.ib0.len ∧
      (innerOf benchDe3).take (digestSize .sha256 + 2) ≠
        be16 (digestSize .sha256) ++
          providerHash benchDe3.cfg .sha256 ((innerOf benchDe3).drop (digestSize .sha256 + 2) ++ benchDe3.ib2.value)) ∧
    (digestSize .sha256 + 2 ≤ benchDe6.ib0.len ∧
      (innerOf benchDe6).take (digestSize .sha256 + 2) =
        be16 (digestSize .sha256) ++
          providerHash benchDe6.cfg .sha256 ((innerOf benchDe6).drop (digestSize .sha256 + 2) ++ benchDe6.ib2.value) ∧
      intOf (((innerOf benchDe6).drop (digestSize .sha256 + 2)).take 2) ≠
        ((innerOf benchDe6).drop (digestSize .sha256 + 2)).length - 2) ∧
    (digestSize .sha256 + 2 ≤ (innerOf benchDe1).length ∧
      (innerOf benchDe1).take (digestSize .sha256 + 2) =
        be16 (digestSize .sha256) ++
          providerHash benchDe1.cfg .sha256 ((innerOf benchDe1).drop (digestSize .sha256 + 2) ++ benchDe1.ib2.value) ∧
      2 ≤ ((innerOf benchDe1).drop (digestSize .sha256 + 2)).length ∧
      intOf (((innerOf benchDe1).drop (digestSize .sha256 + 2)).take 2) =
        ((innerOf benchDe1).drop (digestSize .sha256 + 2)).length - 2) ∧
    (digestSize .sha256 + 2 ≤ benchDe8.ib0.len ∧
      (innerOf benchDe8).take (digestSize .sha256 + 2) =
        be16 (digestSize .sha256) ++
          providerHash benchDe8.cfg .sha256 ((innerOf benchDe8).drop (digestSize .sha256 + 2) ++ benchDe8.ib2.value) ∧
      ((innerOf benchDe8).drop (digestSize .sha256 + 2)).length < 2) := by decide +kernel

/-- The hypothesis of CommandsLeaveTheRegisters, CommandsLeaveTheInputs, DrawsOnlyOnSuccess and
OutcomesAreTheTableOfR201. -/
theorem witness_frames : Instr.oaepenc 0x0004#16 ≠ .clrbuf ∧
    (∃ t, exec (.oaepenc 0x0004#16) benchOaep1 = .next t) ∧ (∃ t, exec (.oaepenc 0x0004#16) benchOaep3 = .next t) ∧
    (∃ t, exec (.oaepdec 0x0004#16) benchOaep6 = .next t) ∧ ∃ t, exec .clrbuf benchClr = .next t := by
  refine ⟨by decide, ?_, ?_, ?_, ?_⟩
  · obtain ⟨s0, c, h, -⟩ := exec_cases (.oaepenc 0x0004#16) benchOaep1
    exact ⟨_, h⟩
  · obtain ⟨s0, c, h, -⟩ := exec_cases (.oaepenc 0x0004#16) benchOaep3
    exact ⟨_, h⟩
  · exact ⟨_, rfl⟩
  · exact ⟨_, rfl⟩

theorem witness_ContextChangesOnlyByItsCommands :
    (∃ t, exec .xor benchXor1 = .next t ∧ (∀ r v, Instr.xor ≠ .ctxnew r v) ∧ Instr.xor ≠ .ctxrel ∧
      (∀ v, Instr.xor ≠ .symenc v) ∧ ∀ v, Instr.xor ≠ .symdec v) ∧
    (∃ t, exec (.symenc false) benchSym1 = .next t) ∧ ∃ t, exec (.symdec false) benchSym2 = .next t :=
  ⟨⟨_, rfl, by simp, by simp, by simp, by simp⟩, ⟨_, rfl⟩, ⟨_, rfl⟩⟩

/-- The same command on a state with other P0, other results, other flags, and other bytes beyond IB0's length. -/
def otherXor : State :=
  { benchXor1 with
    p0 := 77, res := 5, ctx := liveCtx, ob0 := Buffer.ofBytes (bs [1])
    ib0 := { benchXor1.ib0 with mem := benchXor1.ib0.mem ++ [(9, 9#8)] }
    status := { benchXor1.status with ok := true } }

theorem witness_CommandsDependOnlyOnTheirOperands :
    (Instr.asm .xor).mnemonic = .xor ∧ benchXor1.cfg = otherXor.cfg ∧ benchXor1.drawCount = otherXor.drawCount ∧
    benchXor1.ib0.value = otherXor.ib0.value ∧ benchXor1.ib1.value = otherXor.ib1.value ∧
    benchXor1.ib0 ≠ otherXor.ib0 ∧ benchXor1.p0 ≠ otherXor.p0 ∧
    (∃ s', exec .xor benchXor1 = .next s') ∧ ∃ t', exec .xor otherXor = .next t' :=
  ⟨rfl, rfl, rfl, by decide +kernel, by decide +kernel, by decide +kernel, by decide +kernel, ⟨_, rfl⟩, ⟨_, rfl⟩⟩

end Sys2Proof.Tests
end

section
/-! Proofs of the statements of 00_scope.md: what an output buffer holds (R11), which event a step takes (R16), and the
default parameters (R7). -/

namespace Sys2Proof.Machine

/-- Settles O11: the laws of a storage filled with a string, side by side. -/
theorem outputBufferHoldsExactlyTheResult : Obligations.OutputBufferHoldsExactlyTheResult := fun x =>
  ⟨value_ofBytes x, ofBytes_len x, Memory.ofBytes_wf x, Memory.read_ofBytes x⟩

/-! ## The step -/

/-- An engine event at the head of the agenda is the engine's step without it. -/
theorem step_engine {s : State} {rest : List Event} (h : s.agenda = .engine :: rest) :
    step s = { s with agenda := rest }.engineStep := step_cons h

/-- An access at the head of the agenda has the effect of the access function, and its answer is recorded. -/
theorem step_access {s t : State} {rest : List Event} {a : Access} {r : BusAnswer} (h : s.agenda = .access a :: rest)
    (hr : { s with agenda := rest }.hostAccess a = (t, r)) : step s = .next { t with busAnswer := some r } := by
  rw [step_cons h, State.runEvent, State.applyAccess, hr]

/-- Settles O7: the step is the head event's, and the engine's step follows SEQ. -/
theorem stepRunsTheLatchedCommand : Obligations.StepRunsTheLatchedCommand := by
  intro s rest
  refine ⟨fun w i hw hd => ⟨fun h => ?_, fun h => ?_⟩, fun hi => ⟨fun h => ?_, fun h => ?_⟩, fun a t r => step_access⟩
  · exact (step_nil h).trans (engineStep_legal hw hd)
  · exact (step_engine h).trans (engineStep_legal hw hd)
  · exact (step_nil h).trans (engineStep_idle hi)
  · exact (step_engine h).trans (engineStep_idle hi)

/-! ## The cipher catalog -/

/-- The rows of the default table (R176). -/
theorem mem_defaultCiphers {r : CipherRow} : r ∈ Config.defaultCiphers ↔
    r.cipher = 0x0006#16 ∧ r.mode ∈ [0x0040#16, 0x0041#16, 0x0042#16, 0x0043#16, 0x0044#16] ∧
    r.keyBits ∈ [128, 192, 256] ∧ r.blockSize = 16 := by
  obtain ⟨cipher, mode, keyBits, blockSize⟩ := r
  simp only [Config.defaultCiphers, List.mem_flatMap, List.mem_map, CipherRow.mk.injEq]
  constructor
  · rintro ⟨_, hm, _, hk, rfl, rfl, rfl, rfl⟩
    exact ⟨rfl, hm, hk, rfl⟩
  · rintro ⟨rfl, hm, hk, rfl⟩
    exact ⟨mode, hm, keyBits, hk, rfl, rfl, rfl, rfl⟩

theorem config_default_wf : Config.default.WF := by
  refine ⟨by decide, fun r hr => ?_, fun r hr q hq _ => ?_⟩
  · obtain ⟨-, -, hk, hb⟩ := mem_defaultCiphers.mp hr
    simp only [List.mem_cons, List.not_mem_nil, or_false] at hk
    omega
  · obtain ⟨-, -, -, hr16⟩ := mem_defaultCiphers.mp hr
    obtain ⟨-, -, -, hq16⟩ := mem_defaultCiphers.mp hq
    rw [hr16, hq16]

/-- A row of the table is what the catalog answers for its triple: rows of one cipher agree on the block size (R176),
so it does not matter which of them is found. -/
theorem cipherCatalog_of_mem {cfg : Config} (hw : cfg.WF) {r : CipherRow} (hr : r ∈ cfg.ciphers) :
    cipherCatalog cfg r.cipher r.mode r.keyBits = some r.blockSize := by
  cases h : cipherCatalog cfg r.cipher r.mode r.keyBits with
  | none =>
    have hnot := List.find?_eq_none.mp (Option.map_eq_none_iff.mp h) r hr
    simp at hnot
  | some bs =>
    obtain ⟨q, hq, hc, -, -, rfl⟩ := cipherCatalog_row h
    obtain ⟨-, -, hsame⟩ := hw
    rw [hsame q hq r hr hc]

theorem symBlock_default (symDef : Word) (keyBits : Nat) :
    symBlock Config.default symDef keyBits =
      if symCipher symDef = 0x0006#16 ∧
          symMode symDef ∈ [0x0040#16, 0x0041#16, 0x0042#16, 0x0043#16, 0x0044#16] ∧ keyBits ∈ [128, 192, 256]
      then some 16 else none := by
  split
  case isTrue h =>
    obtain ⟨hc, hm, hk⟩ := h
    exact cipherCatalog_of_mem config_default_wf (r := ⟨symCipher symDef, symMode symDef, keyBits, 16⟩)
      (mem_defaultCiphers.mpr ⟨hc, hm, hk, rfl⟩)
  case isFalse h =>
    refine Option.eq_none_iff_forall_ne_some.mpr fun bs hbs => h ?_
    obtain ⟨r, hr, hc, hm, hk, -⟩ := cipherCatalog_row hbs
    obtain ⟨hc6, hmode, hkey, -⟩ := mem_defaultCiphers.mp hr
    exact ⟨hc ▸ hc6, hm ▸ hmode, hk ▸ hkey⟩

/-- Settles O48: the parameters by reading them off, the catalog as the default table's rows. -/
theorem defaultCatalogIsTheTable : Obligations.DefaultCatalogIsTheTable :=
  ⟨rfl, rfl, config_default_wf, symBlock_default⟩

end Sys2Proof.Machine
end

section
/-! Proofs of the statements of 10_state.md: what START, reset and the interrupt output do (R40, R43, R28), what every step
keeps, what an access to the window does (R24, R32), and what a command reads and leaves (R22, R41). -/

namespace Sys2Proof.Machine

/-! ## What a completion leaves (R41) -/

/-- What an outcome writes to RES and to the result fields of STATUS. -/
structure Verdict where
  res     : Word
  err     : Bool
  ok      : Bool
  errcode : Byte

/-- The verdict of an outcome (R41). -/
def Completion.verdict : Completion → Verdict
  | .success _ _ r _ => ⟨r, false, true, 0⟩
  | .boolFalse _ => ⟨0, false, false, 0⟩
  | .error e _ => ⟨0, true, false, e.code⟩

@[simp] theorem complete_res_verdict (s : State) (c : Completion) : (s.complete c).res = c.verdict.res := by
  cases c <;> rfl
@[simp] theorem complete_err_verdict (s : State) (c : Completion) : (s.complete c).status.err = c.verdict.err := by
  cases c <;> rfl
@[simp] theorem complete_ok_verdict (s : State) (c : Completion) : (s.complete c).status.ok = c.verdict.ok := by
  cases c <;> rfl
@[simp] theorem complete_errcode_verdict (s : State) (c : Completion) :
    (s.complete c).status.errcode = c.verdict.errcode := by
  cases c <;> rfl

theorem code_bounds (e : ErrorClass) : e.code ≠ 0 ∧ e.code.toNat ≤ 0x0B := by cases e <;> decide

/-- ERRCODE is 0 exactly without ERR, and at most 0x0B (R27, 60_exceptions.md R200). -/
theorem verdict_err_code (c : Completion) :
    (c.verdict.err = false ↔ c.verdict.errcode = 0) ∧ c.verdict.errcode.toNat ≤ 0x0B := by
  cases c with
  | success x y r d => exact ⟨by simp [Completion.verdict], by simp [Completion.verdict]⟩
  | boolFalse d => exact ⟨by simp [Completion.verdict], by simp [Completion.verdict]⟩
  | error e d =>
    obtain ⟨hne, hle⟩ := code_bounds e
    exact ⟨by simpa [Completion.verdict] using hne, hle⟩

theorem verdict_ok_err (c : Completion) (h : c.verdict.ok = true) : c.verdict.err = false := by
  cases c with
  | success x y r d => rfl
  | boolFalse d => rfl
  | error e d => simp [Completion.verdict] at h

/-- `exec_cases`, read from the state `t` that is known to come next. -/
theorem exec_next_cases {i : Instr} {s t : State} (h : exec i s = .next t) :
    ∃ s0 c, t = s0.complete c ∧ (c.slot = s.ctx ∨ i.Slots) ∧
      (s0 = s ∨ (s0 = s.countDraw ∧ i.Draws ∧ ∃ x y r d, c = .success x y r d) ∨
        (s0 = s.clearInputs ∧ i = .clrbuf)) := by
  obtain ⟨s0, c, hexec, hslot, hbase⟩ := exec_cases i s
  rw [hexec] at h
  exact ⟨s0, c, (Host.Outcome.next.inj h).symm, hslot, hbase⟩

/-! ## The three commands with checks before their draw (44_oaep.md R137, 45_pss.md R151, 47_symenv.md R177) -/

theorem exec_oaepenc_error {s : State} {a : Half} {e : ErrorClass} (h : s.oaepencCheck a = .error e) :
    exec (.oaepenc a) s = .next (s.complete (s.raise e)) := by
  simp only [exec, execOaepenc, h]

theorem exec_oaepenc_ok {s : State} {a : Half} {k : RealHash} (h : s.oaepencCheck a = .ok k) :
    exec (.oaepenc a) s = .next (s.countDraw.complete
      (s.successOb0 (oaepEncode s.cfg k s.ib0.value s.ib1.value s.p0n (s.drawn (digestSize k))))) := by
  simp only [exec, execOaepenc, h]

theorem exec_pssenc_error {s : State} {a : Half} {e : ErrorClass} (h : s.pssencCheck a = .error e) :
    exec (.pssenc a) s = .next (s.complete (s.raise e)) := by
  simp only [exec, execPssenc, h]

theorem exec_pssenc_ok {s : State} {a : Half} {k : RealHash} (h : s.pssencCheck a = .ok k) :
    exec (.pssenc a) s = .next (s.countDraw.complete
      (s.successOb0 (pssEncode s.cfg k s.ib0.value s.p1n (s.drawn s.p0n)))) := by
  simp only [exec, execPssenc, h]

theorem exec_ctxnew_error {s : State} {r v : Bool} {e : ErrorClass} (h : s.ctxnewCheck r v = .error e) :
    exec (.ctxnew r v) s = .next (s.complete (.error e CipherCtx.released)) := by
  simp only [exec, execCtxnew, h]

theorem exec_ctxnew_ok {s : State} {r v : Bool} {bs : Nat} (h : s.ctxnewCheck r v = .ok bs) :
    exec (.ctxnew r v) s = .next ((if r then s.countDraw else s).complete
      (.success [] [] 0 (CipherCtx.make s.p0 s.p1 bs (s.newKey r) (s.newIv v bs)))) := by
  simp only [exec, execCtxnew, h]

/-! ## The output strings fit the output buffers (R23, R25) -/

/-- Both output strings of an outcome have at most `cap` bytes. -/
def Completion.Fits (c : Completion) (cap : Nat) : Prop := c.outs.1.length ≤ cap ∧ c.outs.2.length ≤ cap

theorem error_fits (e : ErrorClass) (c : CipherCtx) (cap : Nat) : (Completion.error e c).Fits cap :=
  ⟨Nat.zero_le _, Nat.zero_le _⟩

theorem boolFalse_fits (c : CipherCtx) (cap : Nat) : (Completion.boolFalse c).Fits cap :=
  ⟨Nat.zero_le _, Nat.zero_le _⟩

theorem success_fits {x : Bytes} {cap : Nat} (hx : x.length ≤ cap) (r : Word) (c : CipherCtx) :
    (Completion.success x [] r c).Fits cap :=
  ⟨hx, Nat.zero_le _⟩

theorem ofExcept_fits {s : State} {e : Except ErrorClass Bytes} {cap : Nat} (h : ∀ x, e = .ok x → x.length ≤ cap) :
    (s.ofExcept e).Fits cap := by
  cases e with
  | error e => exact error_fits _ _ _
  | ok x => exact success_fits (h x rfl) _ _

theorem sizeResult_fits (s : State) (n : Option Nat) (cap : Nat) : (s.sizeResult n).Fits cap := by
  cases n with
  | none => exact error_fits _ _ _
  | some n => exact success_fits (Nat.zero_le _) _ _

theorem mgf1Result_fits (s : State) (a : Half) : (s.mgf1Result a).Fits s.cfg.bufcap := by
  unfold State.mgf1Result
  split
  · exact error_fits _ _ _
  · split
    · exact error_fits _ _ _
    · exact success_fits (by rw [mgf1_length]; omega) _ _

theorem kdfaResult_fits (s : State) (a : Half) : (s.kdfaResult a).Fits s.cfg.bufcap := by
  unfold State.kdfaResult
  split
  · exact error_fits _ _ _
  · split
    · exact error_fits _ _ _
    · exact success_fits (by rw [kdfa_length]; omega) _ _

theorem p15encResult_fits (s : State) (a : Half) : (s.p15encResult a).Fits s.cfg.bufcap := by
  unfold State.p15encResult
  split
  · exact error_fits _ _ _
  · split
    · exact error_fits _ _ _
    · split
      · exact error_fits _ _ _
      · exact success_fits (by rw [p15Encode_length (by omega)]; omega) _ _

theorem pssvfyResult_fits (s : State) (a : Half) (cap : Nat) : (s.pssvfyResult a).Fits cap := by
  unfold State.pssvfyResult
  split
  · exact error_fits _ _ _
  · split
    · exact success_fits (Nat.zero_le _) _ _
    · exact boolFalse_fits _ _

theorem splitResult_fits {s : State} {cap : Nat} (h0 : s.ib0.len ≤ cap) : s.splitResult.Fits cap := by
  unfold State.splitResult
  rcases splitBits_cases s.ib0.value s.p0n s.p1n with ⟨-, e⟩ | ⟨-, -, -, e⟩ | ⟨-, -, -, e⟩ <;> rw [e]
  · exact error_fits _ _ _
  · exact error_fits _ _ _
  · exact ⟨by simp [Completion.outs]; omega, by simp [Completion.outs]; omega⟩

theorem xorChecked_length {a b x : Bytes} (h : xorChecked a b = .ok x) : x.length ≤ a.length := by
  unfold xorChecked at h
  split at h
  · simp at h
  · simp only [Except.ok.injEq] at h
    simp [← h]

theorem kdfxorResult_fits {s : State} {cap : Nat} (h1 : s.ib1.len ≤ cap) (a : Half) : (s.kdfxorResult a).Fits cap := by
  unfold State.kdfxorResult
  split
  · exact error_fits _ _ _
  · exact ofExcept_fits fun x hx => (xorChecked_length hx).trans (by simpa using h1)

theorem oaepdecResult_fits {s : State} {cap : Nat} (h0 : s.ib0.len ≤ cap) (a : Half) :
    (s.oaepdecResult a).Fits cap := by
  unfold State.oaepdecResult
  split
  · exact error_fits _ _ _
  · split
    · exact boolFalse_fits _ _
    · next hd =>
      have hlt := oaepDecode_length hd
      rw [value_length] at hlt
      exact success_fits (by omega) _ _

theorem deenvResult_fits {s : State} {cap : Nat} (h0 : s.ib0.len ≤ cap) (a : Half) : (s.deenvResult a).Fits cap := by
  unfold State.deenvResult
  split
  · exact error_fits _ _ _
  · exact ofExcept_fits fun x hx => (deenvelope_length hx).trans (by simpa using h0)

theorem transformResult_fits {s : State} {cap : Nat} (h0 : s.ib0.len ≤ cap) (d : Dir) (v : Bool) :
    (s.transformResult d v).Fits cap := by
  unfold State.transformResult
  split
  · exact error_fits _ _ _
  · split
    · exact error_fits _ _ _
    · exact success_fits (by simpa using h0) _ _

/-- A check that passes names the hash of ALG (44_oaep.md R137). -/
theorem realHash?_of_oaepencCheck {s : State} {a : Half} {h : RealHash} (hok : s.oaepencCheck a = .ok h) :
    realHash? a = some h := by
  cases ha : realHash? a with
  | none => simp [State.oaepencCheck, ha] at hok
  | some k => rcases oaepencCheck_cases (s := s) ha with ⟨-, e⟩ | ⟨-, -, e⟩ | ⟨-, -, e⟩ <;> simp_all

theorem realHash?_of_pssencCheck {s : State} {a : Half} {h : RealHash} (hok : s.pssencCheck a = .ok h) :
    realHash? a = some h := by
  cases ha : realHash? a with
  | none => simp [State.pssencCheck, ha] at hok
  | some k => rcases pssencCheck_cases (s := s) ha with ⟨-, e⟩ | ⟨-, -, e⟩ | ⟨-, -, e⟩ <;> simp_all

/-- When the checks of OAEPENC pass, the encoded message fits (44_oaep.md R136, R137). -/
theorem oaepEncode_fits {s : State} {a : Half} {h : RealHash} (hok : s.oaepencCheck a = .ok h) :
    (oaepEncode s.cfg h s.ib0.value s.ib1.value s.p0n (s.drawn (digestSize h))).length ≤ s.cfg.bufcap := by
  rcases oaepencCheck_cases (s := s) (realHash?_of_oaepencCheck hok) with ⟨-, e⟩ | ⟨-, -, e⟩ | ⟨hlo, hhi, -⟩
  · simp [hok] at e
  · simp [hok] at e
  · simp [oaepEncode]; omega

/-- When the checks of PSSENC pass, the encoded message fits (45_pss.md R150, R151). -/
theorem pssEncode_fits {s : State} {a : Half} {h : RealHash} (hok : s.pssencCheck a = .ok h) :
    (pssEncode s.cfg h s.ib0.value s.p1n (s.drawn s.p0n)).length ≤ s.cfg.bufcap := by
  rcases pssencCheck_cases (s := s) (realHash?_of_pssencCheck hok) with ⟨-, e⟩ | ⟨-, -, e⟩ | ⟨hlo, hhi, -⟩
  · simp [hok] at e
  · simp [hok] at e
  · rw [pssEncode_length (by simpa using hlo)]; exact hhi

/-- The state a fitting outcome leaves has both output lengths inside the bound. -/
theorem complete_ob_len {c : Completion} {cap : Nat} (h : c.Fits cap) (s : State) :
    (s.complete c).ob0.len ≤ cap ∧ (s.complete c).ob1.len ≤ cap := by
  simpa [Completion.Fits] using h

theorem exec_ob_len {i : Instr} {s t : State} (h0 : s.ib0.len ≤ s.cfg.bufcap) (h1 : s.ib1.len ≤ s.cfg.bufcap)
    (h : exec i s = .next t) : t.ob0.len ≤ s.cfg.bufcap ∧ t.ob1.len ≤ s.cfg.bufcap := by
  cases i with
  | digsz a => cases h; exact complete_ob_len (sizeResult_fits _ _ _) _
  | blksz a => cases h; exact complete_ob_len (sizeResult_fits _ _ _) _
  | ishash a => cases h; exact complete_ob_len (success_fits (Nat.zero_le _) _ _) _
  | mgf1 a => cases h; exact complete_ob_len (mgf1Result_fits _ _) _
  | kdfa a => cases h; exact complete_ob_len (kdfaResult_fits _ _) _
  | split => cases h; exact complete_ob_len (splitResult_fits h0) _
  | xor =>
    cases h
    exact complete_ob_len (ofExcept_fits fun x hx => (xorChecked_length hx).trans (by simpa using h0)) _
  | xorp => cases h; exact complete_ob_len (success_fits (by simp [xorPartial]; omega) _ _) _
  | kdfxor a => cases h; exact complete_ob_len (kdfxorResult_fits h1 _) _
  | oaepenc a =>
    cases hc : s.oaepencCheck a with
    | error e => rw [exec_oaepenc_error hc] at h; cases h; exact complete_ob_len (error_fits _ _ _) _
    | ok k => rw [exec_oaepenc_ok hc] at h; cases h; exact complete_ob_len (success_fits (oaepEncode_fits hc) _ _) _
  | oaepdec a => cases h; exact complete_ob_len (oaepdecResult_fits h0 _) _
  | pssenc a =>
    cases hc : s.pssencCheck a with
    | error e => rw [exec_pssenc_error hc] at h; cases h; exact complete_ob_len (error_fits _ _ _) _
    | ok k => rw [exec_pssenc_ok hc] at h; cases h; exact complete_ob_len (success_fits (pssEncode_fits hc) _ _) _
  | pssvfy a => cases h; exact complete_ob_len (pssvfyResult_fits _ _ _) _
  | p15enc a => cases h; exact complete_ob_len (p15encResult_fits _ _) _
  | ctxnew r v =>
    cases hc : s.ctxnewCheck r v with
    | error e => rw [exec_ctxnew_error hc] at h; cases h; exact complete_ob_len (error_fits _ _ _) _
    | ok bs => rw [exec_ctxnew_ok hc] at h; cases h; exact complete_ob_len (success_fits (Nat.zero_le _) _ _) _
  | ctxrel => cases h; exact complete_ob_len (success_fits (Nat.zero_le _) _ _) _
  | symenc v => cases h; exact complete_ob_len (transformResult_fits h0 _ _) _
  | symdec v => cases h; exact complete_ob_len (transformResult_fits h0 _ _) _
  | deenv a => cases h; exact complete_ob_len (deenvResult_fits h0 _) _
  | clrbuf => cases h; exact complete_ob_len (success_fits (Nat.zero_le _) _ _) _

/-! ## The context slot a command leaves is legal (R30; 47_symenv.md R176, R179) -/

theorem make_legal {cfg : Config} {d kb : Word} {bs : Nat} {key iv : Bytes} (hb : symBlock cfg d kb.toNat = some bs)
    (hbs : bs ≤ 32) (hk : key.length ≤ kb.toNat / 8) (hv : iv.length ≤ bs) :
    (CipherCtx.make d kb bs key iv).Legal cfg := by
  have hblk : (BitVec.ofNat 8 bs).toNat = bs := by simp; omega
  refine .inr ⟨rfl, ?_, Memory.ofBytes_wf key, Memory.below_mono (Memory.ofBytes_below key) hk, Memory.ofBytes_wf iv,
    Memory.below_mono (Memory.ofBytes_below iv) ?_⟩
  · exact hb.trans (congrArg some hblk.symm)
  · exact hv.trans hblk.ge

theorem newKey_length {s : State} {r : Bool} (h : r = false → 8 * s.ib0.len = s.p1n) :
    (s.newKey r).length = s.p1n / 8 := by
  cases r with
  | false => have := h rfl; simp [State.newKey]; omega
  | true => simp [State.newKey]

theorem newIv_length {s : State} {v : Bool} {bs : Nat} (h : v = true → s.ib1.len = bs) :
    (s.newIv v bs).length = bs := by
  cases v with
  | false => simp [State.newIv]
  | true => simpa [State.newIv] using h rfl

/-- CTXNEW leaves a slot of the catalog, or a released one (47_symenv.md R177, R178). -/
theorem ctxnew_ctx_legal {s t : State} (hw : s.cfg.WF) {r v : Bool} (h : exec (.ctxnew r v) s = .next t) :
    t.ctx.Legal s.cfg := by
  rcases ctxnewCheck_cases s r v with ⟨-, e⟩ | ⟨bs, hb, ⟨-, e⟩ | ⟨hkey, hiv, e⟩⟩
  · rw [exec_ctxnew_error e] at h; cases h
    exact .inl rfl
  · rw [exec_ctxnew_error e] at h; cases h
    exact .inl rfl
  · rw [exec_ctxnew_ok e] at h; cases h
    rw [complete_ctx_slot]
    exact make_legal hb (symBlock_bounds hw hb).2.1 (newKey_length hkey).le (newIv_length hiv).le

theorem transformIv_length {s : State} {v : Bool} (h : v = true → s.ib1.len = s.ctx.blk.toNat) :
    (s.transformIv v).length = s.ctx.blk.toNat := by
  cases v with
  | false => simp [State.transformIv]
  | true => simpa [State.transformIv] using h rfl

/-- A new IV of BLK bytes keeps a live slot legal. -/
theorem legal_with_iv {cfg : Config} {c : CipherCtx} (hc : c.Legal cfg) (hv : c.valid = true) {iv : Bytes}
    (hiv : iv.length = c.blk.toNat) : ({ c with iv := Memory.ofBytes iv } : CipherCtx).Legal cfg := by
  rcases hc with rfl | ⟨-, hb, hkw, hkb, -, -⟩
  · simp [CipherCtx.released] at hv
  · exact .inr ⟨hv, hb, hkw, hkb, Memory.ofBytes_wf iv, Memory.below_mono (Memory.ofBytes_below iv) hiv.le⟩

theorem transformResult_slot_legal {s : State} (hc : s.ctx.Legal s.cfg) (d : Dir) (v : Bool) :
    (s.transformResult d v).slot.Legal s.cfg := by
  unfold State.transformResult
  split
  · exact hc
  next hvalid =>
  split
  · exact hc
  next hlen =>
  have hiv : (s.transformIv v).length = s.ctx.blk.toNat :=
    transformIv_length fun h => by_contra fun hne => hlen ⟨h, hne⟩
  exact legal_with_iv hc (by simpa using hvalid) (ivUpdate_length hiv)

theorem exec_ctx_legal {i : Instr} {s t : State} (hw : s.cfg.WF) (hc : s.ctx.Legal s.cfg) (h : exec i s = .next t) :
    t.ctx.Legal s.cfg := by
  obtain ⟨s0, c, ht, hslot | hslots, -⟩ := exec_next_cases h
  · rw [ht, complete_ctx_slot, hslot]; exact hc
  rcases hslots with ⟨r, v, rfl⟩ | rfl | ⟨v, rfl⟩ | ⟨v, rfl⟩
  · exact ctxnew_ctx_legal hw h
  · cases h; exact .inl rfl
  · cases h; rw [complete_ctx_slot]; exact transformResult_slot_legal hc _ _
  · cases h; rw [complete_ctx_slot]; exact transformResult_slot_legal hc _ _

/-! ## Every operation on the state keeps the invariant -/

theorem ofBytes_fits {x : Bytes} {cap : Nat} (h : x.length ≤ cap) : (Buffer.ofBytes x).Fits cap :=
  ⟨Memory.ofBytes_wf x, Memory.below_mono (Memory.ofBytes_below x) h, h⟩

theorem empty_fits (cap : Nat) : Buffer.empty.Fits cap := ofBytes_fits (x := []) (Nat.zero_le _)

theorem intenWritten_idem (v : Word) : intenWritten (intenWritten v) = intenWritten v := by
  simp [intenWritten, BitVec.and_assoc]

theorem complete_inv {s : State} {c : Completion} (hi : s.Inv) (hf : c.Fits s.cfg.bufcap)
    (hc : c.slot.Legal s.cfg) : (s.complete c).Inv where
  cfg_wf := by simpa using hi.cfg_wf
  ib_fits k := by cases c <;> exact hi.ib_fits k
  ob_fits k := by
    fin_cases k
    · simpa using ofBytes_fits hf.1
    · simpa using ofBytes_fits hf.2
  ob_zero k := by
    fin_cases k
    · simpa using Memory.ofBytes_below c.outs.1
    · simpa using Memory.ofBytes_below c.outs.2
  inten_bit := by simpa using hi.inten_bit
  opc_cmd := by simpa using hi.opc_cmd
  busy_clear w h := by simp at h
  err_code := by simpa using verdict_err_code c
  ok_err := by simpa using verdict_ok_err c
  ctx_legal := by simpa using hc
  loop_clear := complete_loop s c
  transient_clear := complete_transient s c

theorem start_inv {s : State} (hi : s.Inv) (w : Word) : (s.start w).Inv :=
  { hi with
    opc_cmd := rfl
    busy_clear := fun v h => by cases h; exact ⟨rfl, rfl, rfl, rfl, rfl⟩
    err_code := by simp
    ok_err := by simp }

theorem acknowledge_inv {s : State} (hi : s.Inv) : s.acknowledge.Inv :=
  { hi with
    busy_clear := fun w h => by
      obtain ⟨hcmd, -, herr, hok, hcode⟩ := hi.busy_clear w h
      exact ⟨hcmd, rfl, herr, hok, hcode⟩ }

theorem countDraw_inv {s : State} (hi : s.Inv) : s.countDraw.Inv := { hi with }

theorem clearInputs_inv {s : State} (hi : s.Inv) : s.clearInputs.Inv :=
  { hi with ib_fits := fun k => by fin_cases k <;> exact empty_fits _ }

theorem setIb_inv {s : State} (hi : s.Inv) {k : Fin 4} {b : Buffer} (hb : b.Fits s.cfg.bufcap) :
    (s.setIb k b).Inv where
  cfg_wf := by simpa using hi.cfg_wf
  ib_fits j := by
    rw [setIb_ib, setIb_cfg]
    split
    · exact hb
    · exact hi.ib_fits j
  ob_fits j := by simpa using hi.ob_fits j
  ob_zero j := by simpa using hi.ob_zero j
  inten_bit := by simpa using hi.inten_bit
  opc_cmd := by simpa using hi.opc_cmd
  busy_clear w h := by simpa using hi.busy_clear w (by simpa using h)
  err_code := by simpa using hi.err_code
  ok_err := by simpa using hi.ok_err
  ctx_legal := by simpa using hi.ctx_legal
  loop_clear := by simpa using hi.loop_clear
  transient_clear := by simpa using hi.transient_clear

theorem assertReset_inv {s : State} (hw : s.cfg.WF) : s.assertReset.Inv where
  cfg_wf := hw
  ib_fits k := by fin_cases k <;> exact empty_fits _
  ob_fits k := by fin_cases k <;> exact empty_fits _
  ob_zero k := by fin_cases k <;> exact Memory.below_nil _
  inten_bit := by simp [State.reset, intenWritten]
  opc_cmd := rfl
  busy_clear w h := by cases h
  err_code := by simp [State.reset]
  ok_err := by simp [State.reset]
  ctx_legal := .inl rfl
  loop_clear := rfl
  transient_clear := rfl

/-- Settles O14: a reset of the reset state, whose parameters are the defaults. -/
theorem resetMeetsTheInvariant : Obligations.ResetMeetsTheInvariant :=
  assertReset_inv (s := State.reset) config_default_wf

/-! ## Every step keeps the invariant -/

theorem exec_inv {i : Instr} {s t : State} (hi : s.Inv) (h : exec i s = .next t) : t.Inv := by
  have hlen := exec_ob_len (hi.ib_fits 0).len_le (hi.ib_fits 1).len_le h
  have hctx := exec_ctx_legal hi.cfg_wf hi.ctx_legal h
  obtain ⟨s0, c, rfl, -, hbase⟩ := exec_next_cases h
  have hf : c.Fits s.cfg.bufcap := by simpa [Completion.Fits] using hlen
  have hc : c.slot.Legal s.cfg := by simpa using hctx
  rcases hbase with rfl | ⟨rfl, -, -⟩ | ⟨rfl, -⟩
  · exact complete_inv hi hf hc
  · exact complete_inv (countDraw_inv hi) hf hc
  · exact complete_inv (clearInputs_inv hi) hf hc

theorem engineStep_inv {s t : State} (hi : s.Inv) (h : s.engineStep = .next t) : t.Inv := by
  cases hs : s.seq with
  | idle =>
    rw [engineStep_idle hs] at h
    cases h; exact hi
  | busy w =>
    cases hd : decode w with
    | ok i =>
      rw [engineStep_legal hs hd] at h
      exact exec_inv hi h
    | error r =>
      rw [engineStep_illegal hs hd] at h
      cases h
      exact complete_inv (c := .error .illegalCommand s.ctx) hi (error_fits _ _ _) hi.ctx_legal

theorem writeReg_inv {s t : State} {r : Reg} {v : Word} (hi : s.Inv) (h : s.writeReg r v = some t) : t.Inv := by
  rcases writeReg_cases h with rfl | rfl | rfl | rfl | rfl | rfl | ⟨k, hv, rfl⟩
  · exact start_inv hi v
  · exact hi
  · exact acknowledge_inv hi
  · exact { hi with inten_bit := (intenWritten_idem v).symm }
  · exact { hi with }
  · exact { hi with }
  · exact setIb_inv hi ⟨(hi.ib_fits k).mem_wf, (hi.ib_fits k).mem_below, hv⟩

theorem hostAccess_inv {s : State} (hi : s.Inv) (a : Access) : (s.hostAccess a).1.Inv := by
  rcases hostAccess_cases s a with ⟨-, e⟩ | ⟨k, -, e⟩ | ⟨k, -, e⟩ | ⟨-, e⟩ <;> rw [e]
  · rcases regAccess_cases s a a.inner with e | ⟨r, -, -, e⟩ | ⟨r, t, -, -, -, hw, e⟩ <;> rw [e]
    · exact hi
    · exact hi
    · exact writeReg_inv hi hw
  · rcases ibAccess_cases s k a a.inner with ⟨-, e⟩ | ⟨-, -, e⟩ | ⟨ha, -, e⟩ <;> rw [e]
    · exact hi
    · exact hi
    · obtain ⟨-, -, -, hcap⟩ := (bufferAdmits_iff s a a.inner).mp ha
      exact setIb_inv hi ⟨Memory.writeLanes_wf (hi.ib_fits k).mem_wf _ _ _,
        Memory.writeLanes_below (hi.ib_fits k).mem_below hcap _, (hi.ib_fits k).len_le⟩
  · rcases obAccess_cases s k a a.inner with e | ⟨-, -, e⟩ <;> rw [e]
    · exact hi
    · exact hi
  · exact hi

theorem runEvent_inv {s t : State} {e : Event} (hi : s.Inv) (h : s.runEvent e = .next t) : t.Inv := by
  cases e with
  | access a => cases h; exact { hostAccess_inv hi a with }
  | engine => exact engineStep_inv hi h
  | reset => cases h; exact assertReset_inv hi.cfg_wf

/-- Settles O15: the step is the engine's or that of the next event, and each keeps the invariant. -/
theorem everyStepKeepsTheInvariant : Obligations.EveryStepKeepsTheInvariant := by
  intro s t hi h
  cases ha : s.agenda with
  | nil => exact engineStep_inv hi (step_nil ha ▸ h)
  | cons e rest => exact runEvent_inv (s := { s with agenda := rest }) { hi with } (step_cons ha ▸ h)

/-! ## Register accesses (R32, R40; 48_laws.md R224) -/

theorem hostAccess_reg {a : Access} (h : a.window = 0) (s : State) : s.hostAccess a = s.regAccess a a.inner := by
  simp [State.hostAccess, h]

theorem hostAccess_ib {a : Access} {k : Fin 4} (h : a.window = k.val + 1) (s : State) :
    s.hostAccess a = s.ibAccess k a a.inner := by
  fin_cases k <;> simp [State.hostAccess, h]

theorem hostAccess_ob {a : Access} {k : Fin 2} (h : a.window = k.val + 5) (s : State) :
    s.hostAccess a = s.obAccess k a a.inner := by
  fin_cases k <;> simp [State.hostAccess, h]

/-- A register read answers the register, also while BUSY. -/
theorem hostAccess_rd (s : State) (r : Reg) : s.hostAccess (rd r) = (s, .okayData (s.readReg r)) := by
  obtain ⟨hwin, hinner⟩ := rd_place r
  obtain ⟨haligned, hat⟩ := regAt_offset r
  rw [hostAccess_reg hwin, hinner]
  simp [State.regAccess, rd, haligned, hat]

/-- A register write while idle leaves what `writeReg` gives, and is answered OKAY. -/
theorem hostAccess_wr {s t : State} {r : Reg} {v : Word} (hi : s.seq = .idle) (h : s.writeReg r v = some t) :
    s.hostAccess (wr r v) = (t, .okay) := by
  obtain ⟨hwin, hinner⟩ := wr_place r v
  obtain ⟨haligned, hat⟩ := regAt_offset r
  rw [hostAccess_reg hwin, hinner]
  simp [State.regAccess, wr, haligned, hat, State.busy, hi, h]

/-- A register write that `writeReg` refuses is a bus error, in every state. -/
theorem hostAccess_wr_error {s : State} {r : Reg} {v : Word} (h : s.writeReg r v = none) :
    s.hostAccess (wr r v) = (s, .error) := by
  obtain ⟨hwin, hinner⟩ := wr_place r v
  obtain ⟨haligned, hat⟩ := regAt_offset r
  rw [hostAccess_reg hwin, hinner]
  simp [State.regAccess, wr, haligned, hat, h]

/-- Settles O9: the write of CMD is START. -/
theorem cmdWriteStarts : Obligations.CmdWriteStarts := fun _ _ hi => hostAccess_wr hi rfl

theorem writeReg_ibLen_ok {s : State} {k : Fin 4} {v : Word} (h : v.toNat ≤ s.cfg.bufcap) :
    s.writeReg (.ibLen k) v = some (s.setIb k { s.ib k with len := v.toNat }) :=
  if_neg (Nat.not_lt.mpr h)

theorem writeReg_ibLen_none {s : State} {k : Fin 4} {v : Word} (h : s.cfg.bufcap < v.toNat) :
    s.writeReg (.ibLen k) v = none :=
  if_pos h

/-- Settles O21: each register's write, read off `writeReg`. -/
theorem registerWritesStore : Obligations.RegisterWritesStore := by
  intro s v k hi
  refine ⟨hostAccess_wr hi rfl, hostAccess_wr hi rfl, hostAccess_wr hi rfl, fun hle => ?_, fun hlt => ?_, fun h1 => ?_,
    fun h1 => ?_⟩
  · exact hostAccess_wr hi (writeReg_ibLen_ok hle)
  · exact hostAccess_wr_error (writeReg_ibLen_none hlt)
  · exact hostAccess_wr hi (by rw [State.writeReg, if_pos h1]; rfl)
  · exact hostAccess_wr hi (by rw [State.writeReg, if_neg (by rw [h1]; decide)])

/-! ## The register map (R32) -/

theorem regAt_eq_none {o : Nat} (h : o ∉ Reg.all.map Reg.offset) : Reg.at? o = none :=
  List.find?_eq_none.mpr fun r hr he => h (List.mem_map.mpr ⟨r, hr, by simpa using he⟩)

/-- An access of another size than 4, or at an offset of no register, is a bus error. -/
theorem regAccess_error {a : Access} {o : Nat} (h : a.size ≠ 4 ∨ o ∉ Reg.all.map Reg.offset) (s : State) :
    s.regAccess a o = (s, .error) := by
  unfold State.regAccess
  split
  · rfl
  · next hok => rw [regAt_eq_none (h.resolve_left fun hsize => hok (.inl hsize))]

/-- The offsets of the registers no write is accepted for (R32; 20_memory.md R56 (3)). -/
theorem writeReg_readOnly {r : Reg} (h : r.offset ∈ [0x000, 0x004, 0x008, 0x018, 0x050, 0x054, 0x060, 0x064, 0x068])
    (s : State) (v : Word) : s.writeReg r v = none := by
  cases r with
  | id | version | cap | res | obLen k | ctxDef | ctxKeybits | ctxStat => rfl
  | cmd | status | inten | p0 | p1 => simp [Reg.offset] at h
  | ibLen k => fin_cases k <;> simp [Reg.offset] at h

theorem regAccess_write_readOnly {a : Access} {o : Nat} (hk : a.kind = .write)
    (h : o ∈ [0x000, 0x004, 0x008, 0x018, 0x050, 0x054, 0x060, 0x064, 0x068]) (s : State) :
    s.regAccess a o = (s, .error) := by
  rcases regAccess_cases s a o with e | ⟨r, -, hread, -⟩ | ⟨r, t, hr, -, -, hw, -⟩
  · exact e
  · simp [hk] at hread
  · rw [writeReg_readOnly (offset_of_regAt hr ▸ h)] at hw
    simp at hw

theorem obAccess_write_error {a : Access} (hk : a.kind = .write) (s : State) (k : Fin 2) (o : Nat) :
    s.obAccess k a o = (s, .error) := by
  rcases obAccess_cases s k a o with e | ⟨-, hread, -⟩
  · exact e
  · simp [hk] at hread

/-- CAP as a number (R31). -/
theorem capWord_eq (cfg : Config) : capWord cfg = BitVec.ofNat 32 (cfg.bufcap % 2 ^ 20 + 0x02400000) := by
  apply BitVec.eq_of_toNat_eq
  simp only [capWord, append_toNat, BitVec.toNat_ofNat]
  omega

theorem flagBit_toNat (b : Bool) : (flagBit b).toNat = b.toNat := by cases b <;> rfl

theorem statusWord_toNat (busy : Bool) (st : Status) :
    (statusWord busy st).toNat = busy.toNat + 2 * st.done.toNat + 4 * st.err.toNat + 8 * st.ok.toNat +
      256 * st.errcode.toNat + 65536 * st.opc.toNat := by
  simp only [statusWord, append_toNat, flagBit_toNat, BitVec.toNat_ofNat]
  omega

theorem statWord_toNat (c : CipherCtx) : c.statWord.toNat = c.valid.toNat + 256 * c.blk.toNat := by
  simp only [CipherCtx.statWord, append_toNat, flagBit_toNat, BitVec.toNat_ofNat]
  omega

/-- Settles O20: the table is `readReg` over all registers by rising offset, and what is not in it is refused. -/
theorem registerMapIsR32 : Obligations.RegisterMapIsR32 := by
  refine ⟨fun s p hp => ?_, fun s a hwin hbad => ?_, fun s a hwin => ?_, fun s a hk hro => ?_, fun s => ?_⟩
  · rw [← capWord_eq] at hp
    have hmap : p ∈ Reg.all.map fun r => (r.offset, s.readReg r) := hp
    obtain ⟨r, -, rfl⟩ := List.mem_map.mp hmap
    exact hostAccess_rd s r
  · exact (hostAccess_reg hwin s).trans (regAccess_error hbad s)
  · simp [State.hostAccess, hwin]
  · rcases hro with hwin | hwin | ⟨hwin, ho⟩
    · exact (hostAccess_ob (k := 0) hwin s).trans (obAccess_write_error hk s 0 _)
    · exact (hostAccess_ob (k := 1) hwin s).trans (obAccess_write_error hk s 1 _)
    · exact (hostAccess_reg hwin s).trans (regAccess_write_readOnly hk ho s)
  · exact ⟨statusWord_toNat _ _, statWord_toNat _⟩

/-! ## Buffer writes (R24; 20_memory.md R54) -/

/-- Settles O22: an admitted write is the lane write of the buffer, whose bytes `Memory.read_writeLanes` gives. -/
theorem bufferWriteStoresItsBytes : Obligations.BufferWriteStoresItsBytes := by
  intro s a k hi hk hwin
  rw [hostAccess_ib hwin, ← bufferAdmits_iff]
  have hwf := (hi.ib_fits k).mem_wf
  rcases ibAccess_cases s k a a.inner with ⟨ha, e⟩ | ⟨-, hread, -⟩ | ⟨ha, -, e⟩
  · simp [ha, e]
  · simp [hk] at hread
  · refine ⟨fun _ => ⟨_, e, by rw [setIb_ib_same], by rw [setIb_ib_same]; exact Memory.writeLanes_wf hwf _ _ _,
      fun w o => ?_⟩, fun hnot => absurd ha hnot⟩
    rw [setIb_windowByte, Memory.read_writeLanes hwf]
    by_cases hw : w = k.val + 1
    · subst hw; simp [windowByte_ib]
    · simp [hw]

/-! ## Reset and the interrupt output (R43, R28; 60_exceptions.md R211) -/

theorem statusReg_reset : State.reset.statusReg = 0 := by decide

theorem statWord_released : CipherCtx.released.statWord = 0 := by decide

/-- Settles O12: the reset event leaves `assertReset`, whose fields are those of R43. -/
theorem resetClearsEverything : Obligations.ResetClearsEverything := by
  intro s rest ha
  refine ⟨_, step_cons ha, rfl, rfl, ?_, ?_, rfl, statusReg_reset, rfl, rfl, rfl, rfl, statWord_released, fun _ => rfl,
    fun _ => rfl, rfl, rfl, rfl, rfl, rfl, fun w o => ?_⟩
  · intro k; fin_cases k <;> rfl
  · intro k; fin_cases k <;> rfl
  · unfold State.windowByte; split <;> rfl

/-- Settles O16: DONE is 0 after START, acknowledge and reset, and 1 after every completion. -/
theorem interruptFollowsDone : Obligations.InterruptFollowsDone := by
  intro s
  refine ⟨by simp [State.irq], fun w => by simp [State.irq], by simp [State.irq], by simp [State.irq, State.reset],
    fun c => by simp [State.irq]⟩

/-! ## What a command leaves unchanged (R21, R23, R41; 60_exceptions.md R208) -/

/-- Settles O55: a completion leaves these, and so do the count of a draw and the clearing of the inputs before it. -/
theorem commandsLeaveTheRegisters : Obligations.CommandsLeaveTheRegisters := by
  intro i s t h
  obtain ⟨s0, c, rfl, -, rfl | ⟨rfl, -, -⟩ | ⟨rfl, -⟩⟩ := exec_next_cases h <;> simp

/-- Settles O56: only CLRBUF starts its completion from other inputs. -/
theorem commandsLeaveTheInputs : Obligations.CommandsLeaveTheInputs := by
  intro i s t hne h
  have hib : ∀ k, t.ib k = s.ib k := by
    intro k
    obtain ⟨s0, c, rfl, -, rfl | ⟨rfl, -, -⟩ | ⟨-, hclr⟩⟩ := exec_next_cases h
    · fin_cases k <;> simp
    · fin_cases k <;> simp
    · exact absurd hclr hne
  refine ⟨hib, fun w o h5 h6 => ?_⟩
  unfold State.windowByte
  split
  · exact congrArg (·.mem.read o) (hib 0)
  · exact congrArg (·.mem.read o) (hib 1)
  · exact congrArg (·.mem.read o) (hib 2)
  · exact congrArg (·.mem.read o) (hib 3)
  · exact absurd rfl h5
  · exact absurd rfl h6
  · rfl

/-- SYMENC and SYMDEC leave all of the slot but its IV (47_symenv.md R184). -/
theorem transformResult_slot (s : State) (d : Dir) (v : Bool) :
    { (s.transformResult d v).slot with iv := s.ctx.iv } = s.ctx := by
  unfold State.transformResult
  split
  · rfl
  · split <;> rfl

/-- Settles O57: a command outside `Slots` completes with the slot it found. -/
theorem contextChangesOnlyByItsCommands : Obligations.ContextChangesOnlyByItsCommands := by
  intro i s t h
  refine ⟨fun hnew hrel henc hdec => ?_, fun v hv => ?_⟩
  · obtain ⟨s0, c, rfl, hslot | hslots, -⟩ := exec_next_cases h
    · rw [complete_ctx_slot, hslot]
    · rcases hslots with ⟨r, v, e⟩ | e | ⟨v, e⟩ | ⟨v, e⟩
      · exact absurd e (hnew r v)
      · exact absurd e hrel
      · exact absurd e (henc v)
      · exact absurd e (hdec v)
  · rcases hv with rfl | rfl
    · cases h; rw [complete_ctx_slot]; exact transformResult_slot s .enc v
    · cases h; rw [complete_ctx_slot]; exact transformResult_slot s .dec v

/-! ## What a command depends on (R22, R38) -/

/-- Two outcomes that write the same but for the slot. -/
structure Completion.Alike (c d : Completion) : Prop where
  outs    : c.outs = d.outs
  verdict : c.verdict = d.verdict

theorem alike_of_eq {c d : Completion} (h : c = d) : c.Alike d := h ▸ ⟨rfl, rfl⟩

theorem success_alike {x x' : Bytes} (h : x = x') (y : Bytes) (r : Word) (c d : CipherCtx) :
    (Completion.success x y r c).Alike (.success x' y r d) := h ▸ ⟨rfl, rfl⟩

theorem boolFalse_alike (c d : CipherCtx) : (Completion.boolFalse c).Alike (.boolFalse d) := ⟨rfl, rfl⟩

theorem error_alike (e : ErrorClass) (c d : CipherCtx) : (Completion.error e c).Alike (.error e d) := ⟨rfl, rfl⟩

theorem ofExcept_alike {x x' : Except ErrorClass Bytes} (h : x = x') (s t : State) :
    (s.ofExcept x).Alike (t.ofExcept x') := by
  subst h
  cases x with
  | error e => exact error_alike _ _ _
  | ok x => exact success_alike rfl _ _ _ _

theorem sizeResult_alike (s t : State) (n : Option Nat) : (s.sizeResult n).Alike (t.sizeResult n) := by
  cases n with
  | none => exact error_alike _ _ _
  | some n => exact success_alike rfl _ _ _ _

/-- Two states that a command leaves with the same results: the outputs, RES, the result fields of STATUS and the count
of draws. -/
structure State.SameResults (s t : State) : Prop where
  ob0       : s.ob0 = t.ob0
  ob1       : s.ob1 = t.ob1
  res       : s.res = t.res
  err       : s.status.err = t.status.err
  ok        : s.status.ok = t.status.ok
  errcode   : s.status.errcode = t.status.errcode
  drawCount : s.drawCount = t.drawCount

/-- Alike outcomes, completed with the same count of draws, leave the same results. -/
theorem sameResults_of_alike {s t s' t' : State} {c d : Completion}
    (hs : Host.Outcome.next (ρ := Refusal) (φ := Fault) (s.complete c) = .next s')
    (ht : Host.Outcome.next (ρ := Refusal) (φ := Fault) (t.complete d) = .next t') (h : c.Alike d)
    (hd : s.drawCount = t.drawCount) : s'.SameResults t' := by
  cases hs; cases ht
  exact
    { ob0 := by simp [h.outs]
      ob1 := by simp [h.outs]
      res := by simp [h.verdict]
      err := by simp [h.verdict]
      ok := by simp [h.verdict]
      errcode := by simp [h.verdict]
      drawCount := by simpa using hd }

/-- Outcomes with equal slots leave equal slots. -/
theorem ctx_eq_of_slot_eq {s t s' t' : State} {c d : Completion}
    (hs : Host.Outcome.next (ρ := Refusal) (φ := Fault) (s.complete c) = .next s')
    (ht : Host.Outcome.next (ρ := Refusal) (φ := Fault) (t.complete d) = .next t') (h : c.slot = d.slot) :
    s'.ctx = t'.ctx := by
  cases hs; cases ht
  rw [complete_ctx_slot, complete_ctx_slot, h]

theorem len_of_value_eq {b c : Buffer} (h : b.value = c.value) : b.len = c.len := by
  simpa using congrArg List.length h

theorem splitResult_alike {s t : State} (hp0 : s.p0 = t.p0) (hp1 : s.p1 = t.p1)
    (h0 : s.ib0.value = t.ib0.value) : s.splitResult.Alike t.splitResult := by
  unfold State.splitResult State.p0n State.p1n
  rw [hp0, hp1, h0]
  split
  · exact ⟨rfl, rfl⟩
  · exact error_alike _ _ _

theorem newIv_eq {s t : State} {v : Bool} (h1 : v = true → s.ib1.value = t.ib1.value) (bs : Nat) :
    s.newIv v bs = t.newIv v bs := by
  cases v with
  | false => simp [State.newIv]
  | true => simpa [State.newIv] using h1 rfl

/-! Below, two states of the same parameters; from `drawn_eq` on, of the same count of draws too. -/

section
variable {s t : State} (hcfg : s.cfg = t.cfg)
include hcfg

theorem mgf1Result_alike (hp0 : s.p0 = t.p0) (h0 : s.ib0.value = t.ib0.value) (a : Half) :
    (s.mgf1Result a).Alike (t.mgf1Result a) := by
  unfold State.mgf1Result State.p0n
  rw [hcfg, hp0, h0]
  split
  · exact error_alike _ _ _
  · split
    · exact error_alike _ _ _
    · exact success_alike rfl _ _ _ _

theorem kdfaResult_alike (hp0 : s.p0 = t.p0) (h0 : s.ib0.value = t.ib0.value) (h1 : s.ib1.value = t.ib1.value)
    (h2 : s.ib2.value = t.ib2.value) (h3 : s.ib3.value = t.ib3.value) (a : Half) :
    (s.kdfaResult a).Alike (t.kdfaResult a) := by
  unfold State.kdfaResult State.p0n
  rw [hcfg, hp0, h0, h1, h2, h3]
  split
  · exact error_alike _ _ _
  · split
    · exact error_alike _ _ _
    · exact success_alike rfl _ _ _ _

theorem kdfxorResult_alike (h0 : s.ib0.value = t.ib0.value) (h1 : s.ib1.value = t.ib1.value)
    (h2 : s.ib2.value = t.ib2.value) (h3 : s.ib3.value = t.ib3.value) (a : Half) :
    (s.kdfxorResult a).Alike (t.kdfxorResult a) := by
  unfold State.kdfxorResult
  rw [hcfg, h0, h1, h2, h3]
  split
  · exact error_alike _ _ _
  · exact ofExcept_alike rfl _ _

theorem oaepdecResult_alike (h0 : s.ib0.value = t.ib0.value) (h1 : s.ib1.value = t.ib1.value) (a : Half) :
    (s.oaepdecResult a).Alike (t.oaepdecResult a) := by
  unfold State.oaepdecResult
  rw [hcfg, h0, h1]
  split
  · exact error_alike _ _ _
  · split
    · exact boolFalse_alike _ _
    · exact success_alike rfl _ _ _ _

theorem pssvfyResult_alike (hp0 : s.p0 = t.p0) (hp1 : s.p1 = t.p1) (h0 : s.ib0.value = t.ib0.value)
    (h1 : s.ib1.value = t.ib1.value) (a : Half) : (s.pssvfyResult a).Alike (t.pssvfyResult a) := by
  unfold State.pssvfyResult State.p0n State.p1n
  rw [hcfg, hp0, hp1, h0, h1]
  split
  · exact error_alike _ _ _
  · split
    · exact success_alike rfl _ _ _ _
    · exact boolFalse_alike _ _

theorem p15encResult_alike (hp0 : s.p0 = t.p0) (h0 : s.ib0.value = t.ib0.value) (a : Half) :
    (s.p15encResult a).Alike (t.p15encResult a) := by
  unfold State.p15encResult State.p0n
  rw [hcfg, hp0, h0]
  split
  · exact error_alike _ _ _
  · split
    · exact error_alike _ _ _
    · split
      · exact error_alike _ _ _
      · exact success_alike rfl _ _ _ _

theorem deenvResult_alike (hp0 : s.p0 = t.p0) (hp1 : s.p1 = t.p1) (h0 : s.ib0.value = t.ib0.value)
    (h1 : s.ib1.value = t.ib1.value) (h2 : s.ib2.value = t.ib2.value) (a : Half) :
    (s.deenvResult a).Alike (t.deenvResult a) := by
  unfold State.deenvResult
  rw [hcfg, hp0, hp1, h0, h1, h2]
  split
  · exact error_alike _ _ _
  · exact ofExcept_alike rfl _ _

/-- The whole outcome of a transform is its operands', the slot it leaves among it. -/
theorem transformResult_eq (hctx : s.ctx = t.ctx) (h0 : s.ib0.value = t.ib0.value) {v : Bool}
    (h1 : v = true → s.ib1.value = t.ib1.value) (d : Dir) : s.transformResult d v = t.transformResult d v := by
  have hlen : (v = true ∧ s.ib1.len ≠ t.ctx.blk.toNat) ↔ (v = true ∧ t.ib1.len ≠ t.ctx.blk.toNat) :=
    and_congr_right fun hv => by rw [len_of_value_eq (h1 hv)]
  have hiv : s.transformIv v = t.transformIv v := by
    cases v with
    | false => simp [State.transformIv, hctx]
    | true => simpa [State.transformIv] using h1 rfl
  simp only [State.transformResult, State.transformCtx, State.raise, hlen, hiv, hcfg, hctx, h0]

theorem oaepencCheck_eq (hp0 : s.p0 = t.p0) (h0 : s.ib0.value = t.ib0.value) (a : Half) :
    s.oaepencCheck a = t.oaepencCheck a := by
  unfold State.oaepencCheck State.p0n
  rw [hcfg, hp0, len_of_value_eq h0]

theorem pssencCheck_eq (hp0 : s.p0 = t.p0) (hp1 : s.p1 = t.p1) (a : Half) : s.pssencCheck a = t.pssencCheck a := by
  unfold State.pssencCheck State.p0n State.p1n
  rw [hcfg, hp0, hp1]

theorem ctxnewCheck_eq (hp0 : s.p0 = t.p0) (hp1 : s.p1 = t.p1) {r v : Bool}
    (h0 : r = false → s.ib0.value = t.ib0.value) (h1 : v = true → s.ib1.value = t.ib1.value) :
    s.ctxnewCheck r v = t.ctxnewCheck r v := by
  have hkey : (r = false ∧ 8 * s.ib0.len ≠ s.p1n) ↔ (r = false ∧ 8 * t.ib0.len ≠ t.p1n) :=
    and_congr_right fun hr => by rw [len_of_value_eq (h0 hr), State.p1n, State.p1n, hp1]
  have hiv (bs : Nat) : (v = true ∧ s.ib1.len ≠ bs) ↔ (v = true ∧ t.ib1.len ≠ bs) :=
    and_congr_right fun hv => by rw [len_of_value_eq (h1 hv)]
  have hsym : symBlock s.cfg s.p0 s.p1n = symBlock t.cfg t.p0 t.p1n := by
    rw [State.p1n, State.p1n, hcfg, hp0, hp1]
  simp only [State.ctxnewCheck, hsym, hkey, hiv]

variable (hdraw : s.drawCount = t.drawCount)
include hdraw

theorem drawn_eq (n : Nat) : s.drawn n = t.drawn n := by rw [State.drawn, State.drawn, hcfg, hdraw]

theorem oaepenc_sameResults {s' t' : State} (hp0 : s.p0 = t.p0) (h0 : s.ib0.value = t.ib0.value)
    (h1 : s.ib1.value = t.ib1.value) {a : Half} (hs : exec (.oaepenc a) s = .next s')
    (ht : exec (.oaepenc a) t = .next t') : s'.SameResults t' := by
  have hcheck := oaepencCheck_eq hcfg hp0 h0 a
  cases hc : t.oaepencCheck a with
  | error e =>
    rw [exec_oaepenc_error (hcheck.trans hc)] at hs
    rw [exec_oaepenc_error hc] at ht
    exact sameResults_of_alike hs ht (error_alike _ _ _) hdraw
  | ok h =>
    rw [exec_oaepenc_ok (hcheck.trans hc)] at hs
    rw [exec_oaepenc_ok hc] at ht
    refine sameResults_of_alike hs ht (success_alike ?_ _ _ _ _) (congrArg (· + 1) hdraw)
    rw [hcfg, h0, h1, State.p0n, State.p0n, hp0, drawn_eq hcfg hdraw]

theorem pssenc_sameResults {s' t' : State} (hp0 : s.p0 = t.p0) (hp1 : s.p1 = t.p1) (h0 : s.ib0.value = t.ib0.value)
    {a : Half} (hs : exec (.pssenc a) s = .next s') (ht : exec (.pssenc a) t = .next t') : s'.SameResults t' := by
  have hcheck := pssencCheck_eq hcfg hp0 hp1 a
  cases hc : t.pssencCheck a with
  | error e =>
    rw [exec_pssenc_error (hcheck.trans hc)] at hs
    rw [exec_pssenc_error hc] at ht
    exact sameResults_of_alike hs ht (error_alike _ _ _) hdraw
  | ok h =>
    rw [exec_pssenc_ok (hcheck.trans hc)] at hs
    rw [exec_pssenc_ok hc] at ht
    refine sameResults_of_alike hs ht (success_alike ?_ _ _ _ _) (congrArg (· + 1) hdraw)
    rw [hcfg, h0, State.p0n, State.p0n, State.p1n, State.p1n, hp0, hp1, drawn_eq hcfg hdraw]

theorem newKey_eq (hp1 : s.p1 = t.p1) {r : Bool} (h0 : r = false → s.ib0.value = t.ib0.value) :
    s.newKey r = t.newKey r := by
  cases r with
  | false => simpa [State.newKey] using h0 rfl
  | true => simp [State.newKey, State.p1n, hp1, drawn_eq hcfg hdraw]

theorem ctxnew_same {s' t' : State} (hp0 : s.p0 = t.p0) (hp1 : s.p1 = t.p1) {r v : Bool}
    (h0 : r = false → s.ib0.value = t.ib0.value) (h1 : v = true → s.ib1.value = t.ib1.value)
    (hs : exec (.ctxnew r v) s = .next s') (ht : exec (.ctxnew r v) t = .next t') :
    s'.SameResults t' ∧ s'.ctx = t'.ctx := by
  have hcheck := ctxnewCheck_eq hcfg hp0 hp1 h0 h1
  cases hc : t.ctxnewCheck r v with
  | error e =>
    rw [exec_ctxnew_error (hcheck.trans hc)] at hs
    rw [exec_ctxnew_error hc] at ht
    exact ⟨sameResults_of_alike hs ht (error_alike _ _ _) hdraw, ctx_eq_of_slot_eq hs ht rfl⟩
  | ok bs =>
    rw [exec_ctxnew_ok (hcheck.trans hc), hp0, hp1, newKey_eq hcfg hdraw hp1 h0, newIv_eq h1] at hs
    rw [exec_ctxnew_ok hc] at ht
    refine ⟨sameResults_of_alike hs ht (success_alike rfl _ _ _ _) ?_, ctx_eq_of_slot_eq hs ht rfl⟩
    cases r with
    | false => exact hdraw
    | true => exact congrArg (· + 1) hdraw

end

/-- A command that does not write the slot leaves equal slots equal. -/
theorem ctx_eq_of_not_slots {i : Instr} {s t s' t' : State} (hi : ¬ i.Slots) (hctx : s.ctx = t.ctx)
    (hs : exec i s = .next s') (ht : exec i t = .next t') : s'.ctx = t'.ctx := by
  obtain ⟨s0, c, rfl, hc, -⟩ := exec_next_cases hs
  obtain ⟨t0, d, rfl, hd, -⟩ := exec_next_cases ht
  rw [complete_ctx_slot, complete_ctx_slot, hc.resolve_right hi, hd.resolve_right hi, hctx]

theorem slots_of_mnemonic {i : Instr} (h : i.asm.mnemonic ∈ [.ctxnew, .ctxrel, .symenc, .symdec]) : i.Slots := by
  cases i with
  | ctxnew r v => exact .inl ⟨r, v, rfl⟩
  | ctxrel => exact .inr (.inl rfl)
  | symenc v => exact .inr (.inr (.inl ⟨v, rfl⟩))
  | symdec v => exact .inr (.inr (.inr ⟨v, rfl⟩))
  | _ => simp [Instr.asm] at h

/-- Settles O60: each command's outcome is a function of the operands R22 lists for it, and its slot is the one it found
or another such function. -/
theorem commandsDependOnlyOnTheirOperands : Obligations.CommandsDependOnlyOnTheirOperands := by
  intro i s t s' t' p0 p1 b0 b1 b2 b3 slot hrow hcfg hdraw hp0 hp1 h0 h1 h2 h3 hslot hs ht
  suffices h : s'.SameResults t' ∧ (i.Slots → s'.ctx = t'.ctx) by
    obtain ⟨hsame, hwritten⟩ := h
    refine ⟨hsame.ob0, hsame.ob1, hsame.res, hsame.err, hsame.ok, hsame.errcode, hsame.drawCount, fun hor => ?_⟩
    by_cases hi : i.Slots
    · exact hwritten hi
    · exact ctx_eq_of_not_slots hi (hor.resolve_right fun hm => hi (slots_of_mnemonic hm)) hs ht
  cases i
  all_goals
    simp only [Instr.asm, List.cons_append, List.nil_append, List.mem_cons, List.not_mem_nil, Prod.mk.injEq, reduceCtorEq,
      false_and, true_and, false_or, or_false] at hrow
    obtain ⟨rfl, rfl, rfl, rfl, rfl, rfl, rfl⟩ := hrow
  case digsz a =>
    exact ⟨sameResults_of_alike hs ht (sizeResult_alike _ _ _) hdraw, by simp [Instr.Slots]⟩
  case blksz a =>
    exact ⟨sameResults_of_alike hs ht (sizeResult_alike _ _ _) hdraw, by simp [Instr.Slots]⟩
  case ishash a =>
    exact ⟨sameResults_of_alike hs ht (success_alike rfl _ _ _ _) hdraw, by simp [Instr.Slots]⟩
  case mgf1 a =>
    exact ⟨sameResults_of_alike hs ht (mgf1Result_alike hcfg (hp0 rfl) (h0 rfl) a) hdraw, by simp [Instr.Slots]⟩
  case kdfa a =>
    exact ⟨sameResults_of_alike hs ht (kdfaResult_alike hcfg (hp0 rfl) (h0 rfl) (h1 rfl) (h2 rfl) (h3 rfl) a) hdraw,
      by simp [Instr.Slots]⟩
  case split =>
    exact ⟨sameResults_of_alike hs ht (splitResult_alike (hp0 rfl) (hp1 rfl) (h0 rfl)) hdraw, by simp [Instr.Slots]⟩
  case xor =>
    exact ⟨sameResults_of_alike hs ht (ofExcept_alike (by rw [h0 rfl, h1 rfl]) _ _) hdraw, by simp [Instr.Slots]⟩
  case xorp =>
    exact ⟨sameResults_of_alike hs ht (success_alike (by rw [h0 rfl, h1 rfl]) _ _ _ _) hdraw,
      by simp [Instr.Slots]⟩
  case kdfxor a =>
    exact ⟨sameResults_of_alike hs ht (kdfxorResult_alike hcfg (h0 rfl) (h1 rfl) (h2 rfl) (h3 rfl) a) hdraw,
      by simp [Instr.Slots]⟩
  case oaepenc a =>
    exact ⟨oaepenc_sameResults hcfg hdraw (hp0 rfl) (h0 rfl) (h1 rfl) hs ht, by simp [Instr.Slots]⟩
  case oaepdec a =>
    exact ⟨sameResults_of_alike hs ht (oaepdecResult_alike hcfg (h0 rfl) (h1 rfl) a) hdraw, by simp [Instr.Slots]⟩
  case pssenc a =>
    exact ⟨pssenc_sameResults hcfg hdraw (hp0 rfl) (hp1 rfl) (h0 rfl) hs ht, by simp [Instr.Slots]⟩
  case pssvfy a =>
    exact ⟨sameResults_of_alike hs ht (pssvfyResult_alike hcfg (hp0 rfl) (hp1 rfl) (h0 rfl) (h1 rfl) a) hdraw,
      by simp [Instr.Slots]⟩
  case p15enc a =>
    exact ⟨sameResults_of_alike hs ht (p15encResult_alike hcfg (hp0 rfl) (h0 rfl) a) hdraw, by simp [Instr.Slots]⟩
  case ctxnew =>
    obtain ⟨hsame, hctx⟩ := ctxnew_same hcfg hdraw (hp0 rfl) (hp1 rfl) (fun hr => h0 (by simpa using hr)) h1 hs ht
    exact ⟨hsame, fun _ => hctx⟩
  case ctxrel =>
    exact ⟨sameResults_of_alike hs ht (success_alike rfl _ _ _ _) hdraw, fun _ => ctx_eq_of_slot_eq hs ht rfl⟩
  case symenc =>
    have hsame := transformResult_eq hcfg (hslot rfl) (h0 rfl) h1 .enc
    exact ⟨sameResults_of_alike hs ht (alike_of_eq hsame) hdraw, fun _ => ctx_eq_of_slot_eq hs ht (congrArg _ hsame)⟩
  case symdec =>
    have hsame := transformResult_eq hcfg (hslot rfl) (h0 rfl) h1 .dec
    exact ⟨sameResults_of_alike hs ht (alike_of_eq hsame) hdraw, fun _ => ctx_eq_of_slot_eq hs ht (congrArg _ hsame)⟩
  case deenv a =>
    exact ⟨sameResults_of_alike hs ht (deenvResult_alike hcfg (hp0 rfl) (hp1 rfl) (h0 rfl) (h1 rfl) (h2 rfl) a) hdraw,
      by simp [Instr.Slots]⟩
  case clrbuf =>
    exact ⟨sameResults_of_alike hs ht (success_alike rfl _ _ _ _) hdraw, by simp [Instr.Slots]⟩

end Sys2Proof.Machine
end

section
/-! Proofs of the statements of 20_memory.md: what an access is answered while BUSY (R57), that neither a bus error nor a
read has an effect (R56, R58), and what a buffer read gives (R54). -/

namespace Sys2Proof.Machine

/-! ## What an access can be answered (R56, R57, R58) -/

theorem busy_iff {s : State} : s.busy = true ↔ s.seq ≠ .idle := by
  cases hs : s.seq <;> simp [State.busy, hs]

/-- An admitted buffer access finds the engine idle (R57). -/
theorem idle_of_bufferAdmits {s : State} {a : Access} {o : Nat} (h : s.bufferAdmits a o = true) : s.seq = .idle :=
  ((bufferAdmits_iff s a o).mp h).1

/-- An access is a bus error without effect; or a read without effect, of a register or while idle; or a write accepted
while idle. -/
theorem hostAccess_outcome (s : State) (a : Access) :
    s.hostAccess a = (s, .error) ∨
    (a.kind = .read ∧ (a.window = 0 ∨ s.seq = .idle) ∧ ∃ d, s.hostAccess a = (s, .okayData d)) ∨
    (a.kind = .write ∧ s.seq = .idle ∧ ∃ t, s.hostAccess a = (t, .okay)) := by
  rcases hostAccess_cases s a with ⟨hwin, e⟩ | ⟨k, -, e⟩ | ⟨k, -, e⟩ | ⟨-, e⟩ <;> rw [e]
  · rcases regAccess_cases s a a.inner with e | ⟨r, -, hk, e⟩ | ⟨r, t, -, hk, hi, -, e⟩ <;> rw [e]
    · exact .inl rfl
    · exact .inr (.inl ⟨hk, .inl hwin, _, rfl⟩)
    · exact .inr (.inr ⟨hk, hi, _, rfl⟩)
  · rcases ibAccess_cases s k a a.inner with ⟨-, e⟩ | ⟨ha, hk, e⟩ | ⟨ha, hk, e⟩ <;> rw [e]
    · exact .inl rfl
    · exact .inr (.inl ⟨hk, .inr (idle_of_bufferAdmits ha), _, rfl⟩)
    · exact .inr (.inr ⟨hk, idle_of_bufferAdmits ha, _, rfl⟩)
  · rcases obAccess_cases s k a a.inner with e | ⟨ha, hk, e⟩ <;> rw [e]
    · exact .inl rfl
    · exact .inr (.inl ⟨hk, .inr (idle_of_bufferAdmits ha), _, rfl⟩)
  · exact .inl rfl

/-- Settles O17: of the outcomes of an access, only the read of a register does not need the engine idle. -/
theorem busyRefusesAllButRegisterReads : Obligations.BusyRefusesAllButRegisterReads := by
  intro s a hb
  have hbusy : s.seq ≠ .idle := busy_iff.mp hb
  refine ⟨hostAccess_rd s, fun hor => ?_⟩
  rcases hostAccess_outcome s a with e | ⟨hk, hreg, -⟩ | ⟨-, hi, -⟩
  · exact e
  · have hwin : a.window = 0 := hreg.resolve_right hbusy
    simp [hk, hwin] at hor
  · exact absurd hi hbusy

/-- Settles O18: the outcome answered ERROR is the one without effect. -/
theorem busErrorChangesNothing : Obligations.BusErrorChangesNothing := by
  intro s a herr
  rcases hostAccess_outcome s a with e | ⟨-, -, d, e⟩ | ⟨-, -, t, e⟩
  · rw [e]
  · simp [e] at herr
  · simp [e] at herr

/-- Settles O19: only the outcome of a write changes the state. -/
theorem readsHaveNoSideEffect : Obligations.ReadsHaveNoSideEffect := by
  intro s a hk
  rcases hostAccess_outcome s a with e | ⟨-, -, d, e⟩ | ⟨hw, -⟩
  · rw [e]
  · rw [e]
  · simp [hk] at hw

/-! ## Buffer reads (R52, R54, R66) -/

theorem ibAccess_read {a : Access} (hk : a.kind = .read) (s : State) (k : Fin 4) (o : Nat) :
    s.ibAccess k a o =
      if s.bufferAdmits a o = true then (s, .okayData (bufferData (s.ib k) o a.size)) else (s, .error) := by
  cases ha : s.bufferAdmits a o <;> simp [State.ibAccess, ha, hk]

theorem obAccess_read {a : Access} (hk : a.kind = .read) (s : State) (k : Fin 2) (o : Nat) :
    s.obAccess k a o =
      if s.bufferAdmits a o = true then (s, .okayData (bufferData (s.ob k) o a.size)) else (s, .error) := by
  cases ha : s.bufferAdmits a o <;> simp [State.obAccess, ha, hk]

/-- Input or output, a read of a buffer's window answers the data of the storage whose bytes the window shows. -/
theorem hostAccess_bufferRead {a : Access} (hk : a.kind = .read) (hlo : 1 ≤ a.window) (hhi : a.window ≤ 6) (s : State) :
    ∃ b : Buffer, (∀ o, s.windowByte a.window o = b.mem.read o) ∧
      s.hostAccess a =
        if s.bufferAdmits a a.inner = true then (s, .okayData (bufferData b a.inner a.size)) else (s, .error) := by
  rcases hostAccess_cases s a with ⟨hwin, -⟩ | ⟨k, hwin, e⟩ | ⟨k, hwin, e⟩ | ⟨hwin, -⟩
  · omega
  · exact ⟨s.ib k, fun o => by rw [hwin, windowByte_ib], e.trans (ibAccess_read hk s k _)⟩
  · exact ⟨s.ob k, fun o => by rw [hwin, windowByte_ob], e.trans (obAccess_read hk s k _)⟩
  · omega

/-! The word of a read, lane by lane: the byte at the lowest offset stands in bits 7:0, under the lanes that follow. -/

/-- One lane more: the byte at `o` under a word that holds the lanes from `o + 1` on. -/
theorem append_read_toNat {m : Memory} {o n k : Nat} {x : BitVec k} (h : x.toNat = m.readLanes (o + 1) n) :
    (x ++ m.read o).toNat = m.readLanes o (n + 1) := by
  rw [append_toNat, h, Memory.readLanes]
  omega

theorem bufferData_eq_of_toNat {b : Buffer} {o n : Nat} {x : Word} (h : x.toNat = b.mem.readLanes o n) :
    bufferData b o n = x := by
  rw [bufferData, ← h, BitVec.ofNat_toNat, BitVec.setWidth_eq]

theorem bufferData_one (b : Buffer) (o : Nat) : bufferData b o 1 = 0#24 ++ b.mem.read o :=
  bufferData_eq_of_toNat (append_read_toNat rfl)

theorem bufferData_two (b : Buffer) (o : Nat) :
    bufferData b o 2 = 0#16 ++ b.mem.read (o + 1) ++ b.mem.read o :=
  bufferData_eq_of_toNat (append_read_toNat (append_read_toNat rfl))

theorem bufferData_four (b : Buffer) (o : Nat) :
    bufferData b o 4 = b.mem.read (o + 3) ++ b.mem.read (o + 2) ++ b.mem.read (o + 1) ++ b.mem.read o :=
  have htop : (b.mem.read (o + 3)).toNat = b.mem.readLanes (o + 3) 1 := by simp [Memory.readLanes]
  bufferData_eq_of_toNat (append_read_toNat (append_read_toNat (append_read_toNat htop)))

/-- Settles O23: an admitted read answers the buffer's data, whose lanes are those of its size. -/
theorem bufferReadGivesStoredBytes : Obligations.BufferReadGivesStoredBytes := by
  intro s a hk hlo hhi
  obtain ⟨b, hbyte, hread⟩ := hostAccess_bufferRead hk hlo hhi s
  rw [← bufferAdmits_iff]
  refine ⟨fun hi halign hcap => ?_, fun hnot => hread.trans (if_neg hnot)⟩
  have hdata (hsize : a.size = 1 ∨ a.size = 2 ∨ a.size = 4) :
      s.hostAccess a = (s, .okayData (bufferData b a.inner a.size)) :=
    hread.trans (if_pos ((bufferAdmits_iff s a a.inner).mpr ⟨hi, hsize, halign, hcap⟩))
  refine ⟨fun h1 => ?_, fun h2 => ?_, fun h4 => ?_⟩
  · rw [hdata (.inl h1), h1, bufferData_one, hbyte]
  · rw [hdata (.inr (.inl h2)), h2, bufferData_two, hbyte, hbyte]
  · rw [hdata (.inr (.inr h4)), h4, bufferData_four, hbyte, hbyte, hbyte, hbyte]

end Sys2Proof.Machine
end

section
/-! Proofs of the statements of 30_encoding.md: a command word and its command determine each other (R70 to R75, R82),
the illegal words are those of R79, and an illegal word completes as an error (R79, 60_exceptions.md R206). -/

namespace Sys2Proof

/-! ## The FLG byte (R73) -/

/-- The FLG byte of two flags: bit 0 is RNDKEY, bit 1 is IVSET (R73). -/
def flagByte (r v : Bool) : Byte := BitVec.ofNat 8 (r.toNat + 2 * v.toNat)

@[simp] theorem getLsbD_flagByte (r v : Bool) (j : Nat) :
    (flagByte r v).getLsbD j = (decide (j = 0) && r || decide (j = 1) && v) := by
  by_cases hj : j < 8
  · have hbits : ∀ (r v : Bool) (k : Fin 8),
        (flagByte r v).getLsbD k = (decide (k.val = 0) && r || decide (k.val = 1) && v) := by decide
    exact hbits r v ⟨j, hj⟩
  · simp [show j ≠ 0 by omega, show j ≠ 1 by omega, BitVec.getLsbD_of_ge _ j (show 8 ≤ j by omega)]

theorem flagByte_rnd (r v : Bool) : (flagByte r v).getLsbD 0 = r := by
  cases r <;> cases v <;> rfl

theorem flagByte_iv (r v : Bool) : (flagByte r v).getLsbD 1 = v := by
  cases r <;> cases v <;> rfl

theorem allowedFlags_eq (m : Mnemonic) : m.allowedFlags = flagByte m.allowsRnd m.allowsIv := by
  cases m <;> decide

/-- FLG is allowed by a row when its reserved bits are 0 and each flag that is 1 is defined for the row (R73). -/
theorem flags_allowed_iff {f : Byte} {m : Mnemonic} :
    f &&& ~~~m.allowedFlags = 0#8 ↔
      (∀ j, 2 ≤ j → f.getLsbD j = false) ∧ (f.getLsbD 0 = true → m.allowsRnd = true) ∧
        (f.getLsbD 1 = true → m.allowsIv = true) := by
  have hand (j : Nat) : (f &&& ~~~m.allowedFlags).getLsbD j =
      (f.getLsbD j && (decide (j < 8) && !(decide (j = 0) && m.allowsRnd || decide (j = 1) && m.allowsIv))) := by
    rw [BitVec.getLsbD_and, BitVec.getLsbD_not, allowedFlags_eq, getLsbD_flagByte]
  constructor
  · intro h
    have hbit (j : Nat) := (hand j).symm.trans (by rw [h, BitVec.getLsbD_zero])
    refine ⟨fun j hj => ?_, fun h0 => by simpa [h0] using hbit 0, fun h1 => by simpa [h1] using hbit 1⟩
    by_cases hlt : j < 8
    · simpa [hlt, show j ≠ 0 by omega, show j ≠ 1 by omega] using hbit j
    · exact BitVec.getLsbD_of_ge _ _ (by omega)
  · rintro ⟨hres, hrnd, hiv⟩
    refine BitVec.eq_of_getLsbD_eq fun j _ => ?_
    rw [hand, BitVec.getLsbD_zero]
    match j with
    | 0 => simpa using hrnd
    | 1 => simpa using hiv
    | j + 2 => simp [hres (j + 2) (by omega)]

/-- An allowed FLG byte is the byte of its own two flags, each kept where the row defines it. -/
theorem flagByte_of_allowed {f : Byte} {m : Mnemonic} (h : f &&& ~~~m.allowedFlags = 0#8) :
    flagByte (f.getLsbD 0 && m.allowsRnd) (f.getLsbD 1 && m.allowsIv) = f := by
  obtain ⟨hres, hrnd, hiv⟩ := flags_allowed_iff.mp h
  refine BitVec.eq_of_getLsbD_eq fun j _ => ?_
  rw [getLsbD_flagByte]
  match j with
  | 0 => simpa using hrnd
  | 1 => simpa using hiv
  | j + 2 => simp [hres (j + 2) (by omega)]

theorem getLsbD_flgField {w : Word} {j : Nat} (hj : j < 8) : (flgField w).getLsbD j = w.getLsbD (8 + j) := by
  simp [flgField, hj]

/-- The reserved bits of FLG are bits 15:10 of the word (R70, R73). -/
theorem reserved_zero_iff {w : Word} :
    (∀ j, 2 ≤ j → (flgField w).getLsbD j = false) ↔ w.extractLsb' 10 6 = 0#6 := by
  constructor
  · intro h
    refine BitVec.eq_of_getLsbD_eq fun k hk => ?_
    have hbit := h (k + 2) (by omega)
    rw [getLsbD_flgField (by omega), show 8 + (k + 2) = 10 + k by omega] at hbit
    simpa [hk] using hbit
  · intro h j hj
    by_cases hlt : j < 8
    · have hbit := congrArg (BitVec.getLsbD · (j - 2)) h
      rw [getLsbD_flgField hlt, show 8 + j = 10 + (j - 2) by omega]
      simpa [show j - 2 < 6 by omega] using hbit
    · exact BitVec.getLsbD_of_ge _ _ (by omega)

/-! ## The rows of R74 that accept a word -/

/-- The row allows the fields of the word: its OPC, no flag it does not define, no ALG in format N (R71 to R75). -/
structure Mnemonic.Accepts (m : Mnemonic) (w : Word) : Prop where
  opc : opcField w = m.opc
  flg : flgField w &&& ~~~m.allowedFlags = 0#8
  alg : m.format = .N → algField w = 0#16

/-- The command of a row with the fields of the word `w`. -/
def Mnemonic.instrOf (m : Mnemonic) (w : Word) : Instr :=
  m.instr (algField w) ((flgField w).getLsbD 0) ((flgField w).getLsbD 1)

theorem instrOf_eq (m : Mnemonic) (w : Word) :
    m.instrOf w = m.instr (w.extractLsb' 16 16) (w.getLsbD 8) (w.getLsbD 9) := by
  rw [Mnemonic.instrOf, getLsbD_flgField (by decide), getLsbD_flgField (by decide), algField]

theorem opc_injective {m n : Mnemonic} (h : m.opc = n.opc) : m = n := by
  simpa [mnemonicOf_opc] using congrArg mnemonicOf h

theorem accepts_unique {m n : Mnemonic} {w : Word} (hm : m.Accepts w) (hn : n.Accepts w) : m = n :=
  opc_injective (hm.opc.symm.trans hn.opc)

theorem decode_of_accepts {m : Mnemonic} {w : Word} (h : m.Accepts w) : decode w = .ok (m.instrOf w) :=
  decode_of_row (h.opc ▸ mnemonicOf_opc m) h.flg h.alg

theorem accepts_of_decode {w : Word} {i : Instr} (h : decode w = .ok i) : ∃ m : Mnemonic, m.Accepts w ∧ i = m.instrOf w := by
  obtain ⟨m, hm, hflg, halg, hi⟩ := decode_ok h
  exact ⟨m, ⟨(opc_of_mnemonicOf hm).symm, hflg, halg⟩, hi⟩

theorem decode_eq_instrOf_iff {m : Mnemonic} {w : Word} : decode w = .ok (m.instrOf w) ↔ m.Accepts w := by
  refine ⟨fun h => ?_, decode_of_accepts⟩
  obtain ⟨n, hn, hi⟩ := accepts_of_decode h
  have hmn : m = n := by simpa [Mnemonic.instrOf] using congrArg (fun i : Instr => i.asm.mnemonic) hi
  exact hmn ▸ hn

/-- A word is illegal when no row accepts it (R79). -/
theorem decode_error_iff {w : Word} : (∃ e, decode w = .error e) ↔ ∀ m : Mnemonic, ¬ m.Accepts w := by
  constructor
  · rintro ⟨e, he⟩ m hm
    simp [decode_of_accepts hm] at he
  · intro hnone
    cases hd : decode w with
    | error e => exact ⟨e, rfl⟩
    | ok i =>
      obtain ⟨m, hm, -⟩ := accepts_of_decode hd
      exact absurd hm (hnone m)

/-! ## Encoding and decoding (R82) -/

theorem flgField_encodeAsm (c : AsmCommand) : flgField (encodeAsm c) = flagByte c.rnd c.iv :=
  (encodeAsm_fields c).2.1

/-- The assembler command of a row's command: a flag or ALG stands only where the row has it (R71 to R73). -/
theorem asm_instr (m : Mnemonic) (a : Half) (r v : Bool) :
    (m.instr a r v).asm = ⟨m, r && m.allowsRnd, v && m.allowsIv, if m.format = .N then none else some a⟩ := by
  cases m <;> simp [Mnemonic.instr, Instr.asm, Mnemonic.allowsRnd, Mnemonic.allowsIv, Mnemonic.format]

theorem wellFormed_iff {c : AsmCommand} : c.wellFormed = true ↔
    (c.alg.isNone = true ↔ c.mnemonic.format = .N) ∧ (c.rnd = true → c.mnemonic.allowsRnd = true) ∧
      (c.iv = true → c.mnemonic.allowsIv = true) := by
  have halg : c.algOk = true ↔ (c.alg.isNone = true ↔ c.mnemonic.format = .N) := by
    cases hf : c.mnemonic.format <;> cases ha : c.alg <;> simp [AsmCommand.algOk, hf, ha]
  have himp (p q : Bool) : (!p || q) = true ↔ (p = true → q = true) := by cases p <;> simp
  simp only [AsmCommand.wellFormed, AsmCommand.rndOk, AsmCommand.ivOk, Bool.and_eq_true, halg, himp, and_assoc]

/-- The command of a well-formed assembler command has that assembler command back (R82). -/
theorem asm_instr_of_wellFormed {c : AsmCommand} (h : c.wellFormed = true) :
    (c.mnemonic.instr (c.alg.getD 0#16) c.rnd c.iv).asm = c := by
  obtain ⟨halg, hrnd, hiv⟩ := wellFormed_iff.mp h
  obtain ⟨m, r, v, a⟩ := c
  have ha : (if m.format = .N then none else some (a.getD 0#16)) = a := by
    cases a with
    | none => simpa using halg
    | some x => simpa using halg
  rw [asm_instr, ha]
  simpa using ⟨hrnd, hiv⟩

theorem accepts_encodeAsm {c : AsmCommand} (h : c.wellFormed = true) : c.mnemonic.Accepts (encodeAsm c) := by
  obtain ⟨halg, hrnd, hiv⟩ := wellFormed_iff.mp h
  obtain ⟨hopc, -, hword⟩ := encodeAsm_fields c
  refine ⟨hopc, ?_, fun hN => ?_⟩
  · rw [flgField_encodeAsm, flags_allowed_iff, flagByte_rnd, flagByte_iv]
    exact ⟨fun j hj => by simp [show j ≠ 0 by omega, show j ≠ 1 by omega], hrnd, hiv⟩
  · rw [hword, Option.isNone_iff_eq_none.mp (halg.mpr hN), Option.getD_none]

/-- The word of a well-formed assembler command decodes to the command of its row with its own fields. -/
theorem decode_encodeAsm {c : AsmCommand} (h : c.wellFormed = true) :
    decode (encodeAsm c) = .ok (c.mnemonic.instr (c.alg.getD 0#16) c.rnd c.iv) := by
  obtain ⟨-, -, halg⟩ := encodeAsm_fields c
  rw [decode_of_accepts (accepts_encodeAsm h), Mnemonic.instrOf, flgField_encodeAsm, halg, flagByte_rnd,
    flagByte_iv]

theorem asm_wellFormed (i : Instr) : i.asm.wellFormed = true := by
  rw [wellFormed_iff]
  cases i <;> simp [Instr.asm, Mnemonic.format, Mnemonic.allowsRnd, Mnemonic.allowsIv]

/-- A command is the command of its own row with its own fields. -/
theorem instr_of_asm (i : Instr) : i.asm.mnemonic.instr (i.asm.alg.getD 0#16) i.asm.rnd i.asm.iv = i := by
  cases i <;> rfl

/-- An accepted word is the word of its row's command: the three fields agree. -/
theorem encode_instrOf {m : Mnemonic} {w : Word} (h : m.Accepts w) : encode (m.instrOf w) = w := by
  obtain ⟨hopc, -, halg⟩ := encodeAsm_fields (m.instrOf w).asm
  have hasm : (m.instrOf w).asm = _ := asm_instr m _ _ _
  refine word_ext ?_ ?_ ?_
  · rw [encode, hopc, hasm, h.opc]
  · rw [encode, flgField_encodeAsm, hasm, flagByte_of_allowed h.flg]
  · rw [encode, halg, hasm]
    by_cases hN : m.format = .N
    · simp [hN, h.alg hN]
    · simp [hN]

/-! ## Mask and match (R75) -/

theorem word_eq_iff {x y : Word} :
    x = y ↔ opcField x = opcField y ∧ flgField x = flgField y ∧ algField x = algField y :=
  ⟨fun h => h ▸ ⟨rfl, rfl, rfl⟩, fun ⟨hopc, hflg, halg⟩ => word_ext hopc hflg halg⟩

/-- The columns of R74 agree: the mask fixes OPC, the flags the row does not allow, and ALG under format N. -/
theorem mask_fields (m : Mnemonic) :
    opcField m.mask = BitVec.allOnes 8 ∧ flgField m.mask = ~~~m.allowedFlags ∧
      algField m.mask = if m.format = .N then BitVec.allOnes 16 else 0#16 := by
  cases m <;> decide

theorem pattern_fields (m : Mnemonic) :
    opcField m.pattern = m.opc ∧ flgField m.pattern = 0#8 ∧ algField m.pattern = 0#16 := by
  cases m <;> decide

/-- `w AND mask = match` says that the row accepts the word (R75). -/
theorem mask_match_iff {w : Word} {m : Mnemonic} : w &&& m.mask = m.pattern ↔ m.Accepts w := by
  obtain ⟨maskOpc, maskFlg, maskAlg⟩ := mask_fields m
  obtain ⟨patOpc, patFlg, patAlg⟩ := pattern_fields m
  have hopc : opcField (w &&& m.mask) = opcField w := by
    rw [opcField, BitVec.extractLsb'_and, ← opcField, ← opcField, maskOpc, BitVec.and_allOnes]
  have hflg : flgField (w &&& m.mask) = flgField w &&& ~~~m.allowedFlags := by
    rw [flgField, BitVec.extractLsb'_and, ← flgField, ← flgField, maskFlg]
  have halg : algField (w &&& m.mask) = 0#16 ↔ (m.format = .N → algField w = 0#16) := by
    rw [algField, BitVec.extractLsb'_and, ← algField, ← algField, maskAlg]
    by_cases hN : m.format = .N
    · simp only [hN, if_true, BitVec.and_allOnes, true_imp_iff]
    · simp only [hN, if_false, BitVec.and_zero, false_imp_iff]
  rw [word_eq_iff, hopc, hflg, patOpc, patFlg, patAlg, halg]
  exact ⟨fun ⟨ho, hf, ha⟩ => ⟨ho, hf, ha⟩, fun h => ⟨h.opc, h.flg, h.alg⟩⟩

/-! ## The cases of R79 -/

theorem allowsRnd_iff {m : Mnemonic} : m.allowsRnd = true ↔ m = .ctxnew := by
  cases m <;> decide

theorem allowsIv_iff {m : Mnemonic} : m.allowsIv = true ↔ m = .ctxnew ∨ m = .symenc ∨ m = .symdec := by
  cases m <;> decide

/-- A row with the word's OPC accepts it when none of R79's cases (b), (c), (d) holds. -/
theorem accepts_iff_of_opc {m : Mnemonic} {w : Word} (h : m.opc = opcField w) :
    m.Accepts w ↔ w.extractLsb' 10 6 = 0#6 ∧ ¬ ((w.getLsbD 8 = true ∧ m ≠ .ctxnew) ∨
      (w.getLsbD 9 = true ∧ m ≠ .ctxnew ∧ m ≠ .symenc ∧ m ≠ .symdec) ∨ (m.format = .N ∧ algField w ≠ 0#16)) := by
  have hflg : flgField w &&& ~~~m.allowedFlags = 0#8 ↔ w.extractLsb' 10 6 = 0#6 ∧
      (w.getLsbD 8 = true → m = .ctxnew) ∧ (w.getLsbD 9 = true → m = .ctxnew ∨ m = .symenc ∨ m = .symdec) := by
    rw [flags_allowed_iff, reserved_zero_iff, allowsRnd_iff, allowsIv_iff, getLsbD_flgField (by decide),
      getLsbD_flgField (by decide)]
  have hfields : m.Accepts w ↔ flgField w &&& ~~~m.allowedFlags = 0#8 ∧ (m.format = .N → algField w = 0#16) :=
    ⟨fun ha => ⟨ha.flg, ha.alg⟩, fun ⟨hf, ha⟩ => ⟨h.symm, hf, ha⟩⟩
  rw [hfields, hflg]
  simp only [ne_eq, not_or, not_and, not_not, and_assoc]
  simp only [or_iff_not_imp_left]

/-! ## The statements about words -/

/-- Settles O1: a command's assembler command is well-formed, so its word decodes to the command of its row. -/
theorem decodeOfEncode : Obligations.DecodeOfEncode := fun i =>
  (decode_encodeAsm (asm_wellFormed i)).trans (congrArg Except.ok (instr_of_asm i))

/-- Settles O2: the word is one that the row of its command accepts. -/
theorem encodeOfDecode : Obligations.EncodeOfDecode := by
  intro w i h
  obtain ⟨m, hm, rfl⟩ := accepts_of_decode h
  exact encode_instrOf hm

/-- Settles O3: mask and match are the row's acceptance, and a word is decoded by the row that accepts it. -/
theorem decodeFindsTheUniqueRow : Obligations.DecodeFindsTheUniqueRow := by
  refine ⟨fun w m => ?_, fun w m n hm hn => ?_, fun w => ?_⟩
  · rw [mask_match_iff, ← instrOf_eq, decode_eq_instrOf_iff]
  · exact accepts_unique (mask_match_iff.mp hm) (mask_match_iff.mp hn)
  · simp only [decode_error_iff, ne_eq, mask_match_iff]

/-- Settles O4: at most one row has the word's OPC, and it rejects the word in the cases (b), (c), (d). -/
theorem illegalWordsAreTheFourCases : Obligations.IllegalWordsAreTheFourCases := by
  intro w
  rw [decode_error_iff]
  constructor
  · intro hnone
    by_cases hrow : ∃ m : Mnemonic, m.opc = opcField w
    · obtain ⟨m, hm⟩ := hrow
      by_cases hres : w.extractLsb' 10 6 = 0#6
      · exact .inr (.inr ⟨m, hm, by_contra fun hcases => hnone m ((accepts_iff_of_opc hm).mpr ⟨hres, hcases⟩)⟩)
      · exact .inr (.inl hres)
    · exact .inl (not_exists.mp hrow)
  · intro hcases m hacc
    obtain ⟨hres, hnot⟩ := (accepts_iff_of_opc hacc.opc.symm).mp hacc
    rcases hcases with hopc | hbit | ⟨n, hn, hbad⟩
    · exact hopc m hacc.opc.symm
    · exact hbit hres
    · obtain rfl : n = m := opc_injective (hn.trans hacc.opc)
      exact hnot hbad

/-- Settles O5: the command is that of the term's row with the term's fields. -/
theorem assemblerWordDecodes : Obligations.AssemblerWordDecodes := fun _ h =>
  ⟨_, if_pos h, decode_encodeAsm h, asm_instr_of_wellFormed h⟩

/-- Settles O6, by decoding the eleven words. -/
theorem writtenOutWordsDecode : Obligations.WrittenOutWordsDecode := by
  unfold Obligations.WrittenOutWordsDecode
  decide

end Sys2Proof

namespace Sys2Proof.Machine

/-! ## An illegal word at the engine's step (R79) -/

/-- The engine's step is next on an empty agenda, or with the engine at its head (log entry 4). -/
theorem step_of_engine_next {s : State} {rest : List Event}
    (h : (s.agenda = [] ∧ rest = []) ∨ s.agenda = .engine :: rest) :
    step s = { s with agenda := rest }.engineStep := by
  rcases h with ⟨hnil, rfl⟩ | hcons
  · rw [step_nil hnil, ← hnil]
  · exact step_engine hcons

/-- Settles O8: the engine's step writes the error completion of IllegalCommand. -/
theorem illegalWordCompletesAsIllegalCommand : Obligations.IllegalWordCompletesAsIllegalCommand := by
  intro s w e rest hw hd hnext
  exact ⟨_, (step_of_engine_next hnext).trans (engineStep_illegal hw hd),
    rfl, rfl, rfl, rfl, rfl, fun _ => rfl, rfl, rfl, rfl, rfl, rfl, rfl, rfl⟩

end Sys2Proof.Machine
end

section
/-! Proofs of the statements of 40_catalog.md: what the three catalog queries answer for every ALG (R92, R93, R95). -/

namespace Sys2Proof.Machine

/-! ## The catalog queries as completions -/

theorem exec_digsz (s : State) (alg : Half) :
    exec (.digsz alg) s = .next (s.complete (s.sizeResult (digestSizeOf alg))) := rfl

theorem exec_blksz (s : State) (alg : Half) :
    exec (.blksz alg) s = .next (s.complete (s.sizeResult (blockSizeOf alg))) := rfl

theorem exec_ishash (s : State) (alg : Half) :
    exec (.ishash alg) s =
      .next (s.complete (.success [] [] (if isHash alg then 1#32 else 0#32) s.ctx)) := rfl

theorem sizeResult_none (s : State) : s.sizeResult none = .error .unsupportedAlgorithm s.ctx := rfl

theorem sizeResult_toNat (s : State) (r : Word) : s.sizeResult (some r.toNat) = .success [] [] r s.ctx := by
  rw [State.sizeResult, BitVec.ofNat_toNat, BitVec.setWidth_eq]

/-! ## Identifiers outside the closed set (R90, R91) -/

/-- The closed set is the five real hashes and NONE. -/
theorem algClass_outside {alg : Half}
    (h : alg ∉ [0x0004#16, 0x000B#16, 0x000C#16, 0x000D#16, 0x0012#16, 0x0010#16]) : algClass alg = .outside := by
  simp only [List.mem_cons, List.not_mem_nil, or_false, not_or] at h
  obtain ⟨hsha1, hsha256, hsha384, hsha512, hsm3, hnone⟩ := h
  rw [algClass, if_neg hsha1, if_neg hsha256, if_neg hsha384, if_neg hsha512, if_neg hnone, if_neg hsm3]

theorem digestSizeOf_outside {alg : Half} (h : algClass alg = .outside) : digestSizeOf alg = none := by
  rw [digestSizeOf, h]

theorem blockSizeOf_outside {alg : Half} (h : algClass alg = .outside) : blockSizeOf alg = none := by
  rw [blockSizeOf, h]

/-! ## The statements -/

/-- Settles O25: RES is the table's digest size, and an identifier outside the closed set has none. -/
theorem digszAnswersDigestSize : Obligations.DigszAnswersDigestSize := by
  intro s
  constructor
  · intro p hp
    have hsize : digestSizeOf p.1 = some p.2.toNat := by fin_cases hp <;> rfl
    rw [exec_digsz, hsize, sizeResult_toNat]
  · intro alg hout
    rw [exec_digsz, digestSizeOf_outside (algClass_outside hout), sizeResult_none]

/-- Settles O26: RES is the table's block size, and an identifier outside the closed set has none. -/
theorem blkszAnswersBlockSize : Obligations.BlkszAnswersBlockSize := by
  intro s
  constructor
  · intro p hp
    have hsize : blockSizeOf p.1 = some p.2.toNat := by fin_cases hp <;> rfl
    rw [exec_blksz, hsize, sizeResult_toNat]
  · intro alg hout
    rw [exec_blksz, blockSizeOf_outside (algClass_outside hout), sizeResult_none]

/-- Settles O27: the command has the one outcome, and `isHash` is membership in the table of the five hashes. -/
theorem ishashIsTotal : Obligations.IshashIsTotal := by
  intro s alg
  have hres : (if isHash alg then 1#32 else 0#32) =
      if alg ∈ [0x0004#16, 0x000B#16, 0x000C#16, 0x000D#16, 0x0012#16] then 1#32 else 0#32 :=
    if_congr isHash_iff rfl rfl
  rw [exec_ishash, hres]

end Sys2Proof.Machine
end

section
/-! Proofs of the statements of 41_mgf1.md: the outcome of MGF1 (R100, R102), what the controller holds at the end of its
loop (R101), and how masks of two lengths agree (R103). -/

namespace Sys2Proof.Machine

/-! ## How many digests a length needs (R8) -/

theorem ceilDiv_le_iff (len n : Nat) {k : Nat} (hk : 0 < k) : ceilDiv len k ≤ n ↔ len ≤ n * k := by
  rw [← not_lt, ← mul_lt_iff_lt_ceilDiv n len hk, not_lt]

theorem ceilDiv_mono {l1 l2 k : Nat} (hk : 0 < k) (hl : l1 ≤ l2) : ceilDiv l1 k ≤ ceilDiv l2 k :=
  (ceilDiv_le_iff l1 _ hk).mpr (hl.trans (le_ceilDiv_mul l2 hk))

/-- The shortest digest has 20 bytes, so 3277 of any real hash fill the largest buffer. -/
theorem ceilDiv_digestSize_le {len : Nat} (hlen : len ≤ 65536) (h : RealHash) : ceilDiv len (digestSize h) ≤ 3277 := by
  obtain ⟨hmin, -⟩ := digestSize_bounds h
  rw [ceilDiv_le_iff len _ (digestSize_pos h)]
  omega

/-! ## The mask as the first bytes of the digests (R100) -/

theorem mgf1_eq_take_digests (cfg : Config) (h : RealHash) (seed : Bytes) (len : Nat) :
    mgf1 cfg h seed len = (mgf1Digests cfg h seed (ceilDiv len (digestSize h))).take len :=
  mgf1_eq_defined cfg h seed len

/-- Digests beyond those the length needs do not change the mask. -/
theorem take_mgf1Digests {cfg : Config} {h : RealHash} {seed : Bytes} {len n : Nat}
    (hn : ceilDiv len (digestSize h) ≤ n) : (mgf1Digests cfg h seed n).take len = mgf1 cfg h seed len := by
  obtain ⟨more, hmore⟩ : mgf1Digests cfg h seed (ceilDiv len (digestSize h)) <+: mgf1Digests cfg h seed n :=
    mgf1Digests_mono hn
  have henough : len ≤ (mgf1Digests cfg h seed (ceilDiv len (digestSize h))).length := by
    rw [mgf1Digests_length]
    exact le_ceilDiv_mul len (digestSize_pos h)
  rw [← hmore, List.take_append_of_le_length henough, mgf1_eq_take_digests]

/-! ## The outcome of MGF1 (R102) -/

theorem exec_mgf1 (s : State) (alg : Half) : exec (.mgf1 alg) s = .next (s.complete (s.mgf1Result alg)) := rfl

theorem mgf1Result_none {s : State} {alg : Half} (ha : realHash? alg = none) :
    s.mgf1Result alg = .error .unsupportedAlgorithm s.ctx := by
  rw [State.mgf1Result, ha, raise_eq]

theorem mgf1Result_some {s : State} {alg : Half} {h : RealHash} (ha : realHash? alg = some h) :
    s.mgf1Result alg =
      if s.cfg.bufcap < s.p0.toNat then .error .capacity s.ctx
      else .success (mgf1 s.cfg h s.ib0.value s.p0.toNat) [] 0 s.ctx := by
  rw [State.mgf1Result, ha]
  rfl

/-! ## The statements -/

/-- Settles O28: the algorithm check is first, then the capacity check, and the controller's mask is R100's. -/
theorem mgf1GivesTheMask : Obligations.Mgf1GivesTheMask := by
  intro s alg
  refine ⟨fun hout => ?_, fun h hmem => ?_⟩
  · rw [exec_mgf1, mgf1Result_none (not_mem_hashTable_iff.mp hout), State.unsupported]
  · have hres := mgf1Result_some (s := s) (mem_hashTable_iff.mp hmem)
    refine ⟨fun hfits => ?_, fun hover => ?_⟩
    · rw [exec_mgf1, hres, if_neg (not_lt.mpr hfits), mgf1_eq_defined, mgf1Defined]
    · rw [exec_mgf1, hres, if_pos hover]

/-- Settles O29: the loop's final engine, whose count of at most 3277 does not wrap CTR. -/
theorem mgf1ControllerCounts : Obligations.Mgf1ControllerCounts := by
  intro cfg h seed len hlen
  have hcount := ceilDiv_digestSize_le hlen h
  rw [mgf1Controller_eq]
  exact ⟨(BitVec.toNat_ofNat ..).trans (Nat.mod_eq_of_lt (by omega)), rfl, mgf1Digests_length .., hcount⟩

/-- Settles O30: the longer mask's digests begin with the shorter's, which reach its length. -/
theorem mgf1PrefixProperty : Obligations.Mgf1PrefixProperty := by
  intro cfg h seed l1 l2 hl
  refine ⟨mgf1_length .., ?_⟩
  calc mgf1 cfg h seed l1
      = (mgf1Digests cfg h seed (ceilDiv l2 (digestSize h))).take l1 :=
        (take_mgf1Digests (ceilDiv_mono (digestSize_pos h) hl)).symm
    _ = (mgf1 cfg h seed l2).take l1 := by rw [mgf1_eq_take_digests, List.take_take, min_eq_left hl]

end Sys2Proof.Machine
end

section
/-! Proofs of the statements of 42_kdfa.md: the outcome of KDFA (R110, R114), the length of its result in bits (R112,
R117), and the outcome of SPLIT (R115, R116). -/

namespace Sys2Proof.Machine

/-! ## The final shift (R110, R112) -/

/-- The loop runs often enough: the stream has at least the bits asked for, so the excess `E` does not truncate. -/
theorem le_kdfaLoops_bits (h : RealHash) (n : Nat) : n ≤ 8 * (kdfaLoops h n * digestSize h) :=
  calc n ≤ kdfaLoops h n * (digestSize h * 8) := le_ceilDiv_mul n (Nat.mul_pos (digestSize_pos h) (by decide))
    _ = 8 * (kdfaLoops h n * digestSize h) := by ring

theorem intOf_bytesN_le (n v : Nat) : intOf (bytesN n v) ≤ v := by
  rw [intOf_bytesN]
  exact Nat.mod_le v _

/-- A string of at least `n` bits, shifted right by all bits but `n`, is below `2 ^ n`. -/
theorem intOf_shiftRight_lt {x : Bytes} {n : Nat} (hn : n ≤ 8 * x.length) :
    intOf x >>> (8 * x.length - n) < 2 ^ n := by
  have hbits : 2 ^ (8 * x.length - n) * 2 ^ n = 256 ^ x.length := by
    rw [← pow_add, Nat.sub_add_cancel hn, pow_mul]
    rfl
  rw [Nat.shiftRight_eq_div_pow]
  exact Nat.div_lt_of_lt_mul (hbits ▸ intOf_lt x)

section
variable {h : RealHash} {n : Nat} {stream : Bytes} (hlen : stream.length = kdfaLoops h n * digestSize h)
include hlen

/-- The excess bits in terms of the stream that is shifted. -/
theorem kdfaShift_eq : kdfaShift h n stream = bytesN (ceilDiv n 8) (intOf stream >>> (8 * stream.length - n)) := by
  rw [kdfaShift, hlen, Nat.mul_comm 8]

theorem intOf_kdfaShift_lt : intOf (kdfaShift h n stream) < 2 ^ n := by
  rw [kdfaShift_eq hlen]
  exact (intOf_bytesN_le _ _).trans_lt (intOf_shiftRight_lt (hlen ▸ le_kdfaLoops_bits h n))

/-- On whole bytes the shift only drops the bytes behind the result. -/
theorem kdfaShift_whole (hn : n % 8 = 0) : kdfaShift h n stream = stream.take (n / 8) := by
  have hm : ceilDiv n 8 = n / 8 := by unfold ceilDiv; omega
  have henough : n ≤ 8 * stream.length := hlen ▸ le_kdfaLoops_bits h n
  have hexcess : 8 * stream.length - n = 8 * (stream.length - n / 8) := by omega
  rw [kdfaShift_eq hlen, hm, hexcess, bytesN_shift_whole (by omega)]

end

/-! ## The outcome of KDFA (R114) -/

/-- The controller's result is the shifted stream of R110. -/
theorem kdfa_eq_shift_stream (cfg : Config) (h : RealHash) (key label u v : Bytes) (n : Nat) :
    kdfa cfg h key label u v n = kdfaShift h n (kdfaStream cfg h key label u v n (kdfaLoops h n)) := by
  rw [kdfa, kdfaController_eq]

theorem exec_kdfa (s : State) (alg : Half) : exec (.kdfa alg) s = .next (s.complete (s.kdfaResult alg)) := rfl

theorem kdfaResult_none {s : State} {alg : Half} (ha : realHash? alg = none) :
    s.kdfaResult alg = .error .unsupportedAlgorithm s.ctx := by
  rw [State.kdfaResult, ha, raise_eq]

theorem kdfaResult_some {s : State} {alg : Half} {h : RealHash} (ha : realHash? alg = some h) :
    s.kdfaResult alg =
      if s.cfg.bufcap < ceilDiv s.p0.toNat 8 then .error .capacity s.ctx
      else .success (kdfa s.cfg h s.ib0.value s.ib1.value s.ib2.value s.ib3.value s.p0.toNat) [] 0 s.ctx := by
  rw [State.kdfaResult, ha]
  rfl

/-! ## The outcome of SPLIT (R116) -/

theorem exec_split (s : State) : exec .split s = .next (s.complete s.splitResult) := rfl

theorem splitResult_ok {s : State} {x y : Bytes} (h : splitBits s.ib0.value s.p0.toNat s.p1.toNat = .ok (x, y)) :
    s.splitResult = .success x y 0 s.ctx := by
  rw [State.splitResult, State.p0n, State.p1n, h]

theorem splitResult_error {s : State} {e : ErrorClass}
    (h : splitBits s.ib0.value s.p0.toNat s.p1.toNat = .error e) : s.splitResult = .error e s.ctx := by
  rw [State.splitResult, State.p0n, State.p1n, h]
  rfl

/-! ## The statements -/

/-- Settles O31: the algorithm check is first, then the capacity check, and the controller's stream is R110's. -/
theorem kdfaGivesTheShiftedStream : Obligations.KdfaGivesTheShiftedStream := by
  intro s alg
  refine ⟨fun hout => ?_, fun h numLoops m hmem hloops hm => ?_⟩
  · rw [exec_kdfa, kdfaResult_none (not_mem_hashTable_iff.mp hout), State.unsupported]
  · subst hloops hm
    have hres := kdfaResult_some (s := s) (mem_hashTable_iff.mp hmem)
    refine ⟨fun hfits => ?_, fun hover => ?_⟩
    · rw [exec_kdfa, hres, if_neg (not_lt.mpr hfits), kdfa_eq_shift_stream]
      rfl
    · rw [exec_kdfa, hres, if_pos hover]

/-- Settles O32: the shift leaves `n` bits of the stream, which has a whole number of digests and at least `n` bits. -/
theorem kdfaLengthInBits : Obligations.KdfaLengthInBits := by
  intro cfg h key label u v n
  have hlen := kdfaController_acc_length cfg h key label u v n
  exact ⟨kdfa_length .., intOf_kdfaShift_lt hlen, kdfaShift_whole hlen⟩

/-- Settles O33: each of the three hypotheses selects one case of `Splitf`. -/
theorem splitCutsTheBuffer : Obligations.SplitCutsTheBuffer := by
  intro s
  rw [exec_split, ← value_length]
  rcases splitBits_cases s.ib0.value s.p0.toNat s.p1.toNat with
    ⟨hmis, hcut⟩ | ⟨h0, h1, hlong, hcut⟩ | ⟨h0, h1, hfits, hcut⟩
  · rw [splitResult_error hcut]
    exact ⟨fun h0 h1 => absurd hmis (by omega), fun _ => rfl, fun h0 h1 => absurd hmis (by omega)⟩
  · rw [splitResult_error hcut]
    exact ⟨fun _ _ hfits => absurd hlong (by omega), fun hmis => absurd hmis (by omega), fun _ _ _ => rfl⟩
  · rw [splitResult_ok hcut]
    exact ⟨fun _ _ _ => rfl, fun hmis => absurd hmis (by omega), fun _ _ hlong => absurd hfits (by omega)⟩

end Sys2Proof.Machine
end

section
/-! Proofs of the statements of 43_xor.md: the outcomes of XOR, XORP and KDFXOR (R125 to R130), and that KDFXOR undoes
itself (R131 (b)). -/

namespace Sys2Proof.Machine

/-! ## The exclusive-or of two buffers (R125, R126) -/

/-- Byte `i` of the exclusive-or of two buffers' values, as far as both reach. -/
theorem getD_xorBytes_value {b c : Buffer} {i : Nat} (hi : i < min b.len c.len) :
    (xorBytes b.value c.value).getD i 0 = b.mem.read i ^^^ c.mem.read i := by
  have hx : i < (xorBytes b.value c.value).length := by simpa using hi
  rw [List.getD_eq_getElem _ _ hx, getElem_xorBytes hx]
  simp only [Buffer.value, Memory.getElem_bytes]

theorem xorChecked_ok {a b : Bytes} (h : a.length = b.length) : xorChecked a b = .ok (xorBytes a b) :=
  if_neg (not_not.mpr h)

theorem xorChecked_error {a b : Bytes} (h : a.length ≠ b.length) : xorChecked a b = .error .lengthMismatch :=
  if_pos h

/-! ## The outcomes of XOR and XORP (R128, R129) -/

theorem exec_xor (s : State) :
    exec .xor s = .next (s.complete (s.ofExcept (xorChecked s.ib0.value s.ib1.value))) := rfl

theorem exec_xorp (s : State) :
    exec .xorp s = .next (s.complete (.success (xorBytes s.ib0.value s.ib1.value) [] 0 s.ctx)) := rfl

theorem exec_xor_ok {s : State} (h : s.ib0.len = s.ib1.len) :
    exec .xor s = .next (s.complete (.success (xorBytes s.ib0.value s.ib1.value) [] 0 s.ctx)) := by
  rw [exec_xor, xorChecked_ok (by simpa using h)]
  rfl

theorem exec_xor_error {s : State} (h : s.ib0.len ≠ s.ib1.len) :
    exec .xor s = .next (s.complete (.error .lengthMismatch s.ctx)) := by
  rw [exec_xor, xorChecked_error (by simpa using h)]
  rfl

/-! ## The outcome of KDFXOR (R127, R130) -/

/-- The mask KDFXOR lays over the data: KDFa under the label XOR, as many bits as the data has. -/
def State.kdfxorMask (s : State) (h : RealHash) : Bytes :=
  kdfa s.cfg h s.ib0.value xorLabel s.ib2.value s.ib3.value (8 * s.ib1.len)

@[simp] theorem kdfxorMask_length (s : State) (h : RealHash) : (s.kdfxorMask h).length = s.ib1.len := by
  rw [State.kdfxorMask, kdfa_length, ceilDiv_eight_mul]

theorem exec_kdfxor (s : State) (alg : Half) : exec (.kdfxor alg) s = .next (s.complete (s.kdfxorResult alg)) := rfl

theorem kdfxorResult_none {s : State} {alg : Half} (ha : realHash? alg = none) :
    s.kdfxorResult alg = .error .unsupportedAlgorithm s.ctx := by
  rw [State.kdfxorResult, ha, raise_eq]

theorem kdfxorResult_some {s : State} {alg : Half} {h : RealHash} (ha : realHash? alg = some h) :
    s.kdfxorResult alg = .success (xorBytes s.ib1.value (s.kdfxorMask h)) [] 0 s.ctx := by
  simp only [State.kdfxorResult, ha, kdfThenXor_ok, State.ofExcept, State.successOb0, State.kdfxorMask, value_length]

/-- A success changes no operand, so with its result `x` put in IB1 the mask is the same when `x` is as long as the
data. -/
theorem kdfxorMask_of_result {s : State} {x : Bytes} (hx : x.length = s.ib1.len) (h : RealHash) :
    ({ s.complete (.success x [] 0 s.ctx) with ib1 := Buffer.ofBytes x } : State).kdfxorMask h = s.kdfxorMask h := by
  simp only [State.kdfxorMask, Buffer.ofBytes, hx, complete_cfg, complete_ib0, complete_ib2, complete_ib3]

/-! ## The statements -/

/-- Settles O34: `Xorf` accepts equal lengths and raises LengthMismatch on unequal ones. -/
theorem xorIsBytewise : Obligations.XorIsBytewise := by
  intro s
  refine ⟨fun hlen => ⟨_, exec_xor_ok hlen, ?_, fun i hi => getD_xorBytes_value ?_⟩, exec_xor_error⟩
  · simp [hlen]
  · rwa [← hlen, min_self]

/-- Settles O35: the one outcome is the exclusive-or, as far as both operands reach. -/
theorem xorpTruncates : Obligations.XorpTruncates := fun s =>
  ⟨_, exec_xorp s, by simp, fun _ hi => getD_xorBytes_value hi⟩

/-- Settles O36: the mask is as long as the data, so `Xorf` cannot raise LengthMismatch. -/
theorem kdfxorMasksTheData : Obligations.KdfxorMasksTheData := by
  intro s alg
  refine ⟨fun hout => ?_, fun h mask hmem hmask => ?_⟩
  · rw [exec_kdfxor, kdfxorResult_none (not_mem_hashTable_iff.mp hout), State.unsupported]
  · obtain rfl : mask = s.kdfxorMask h := hmask
    rw [exec_kdfxor, kdfxorResult_some (mem_hashTable_iff.mp hmem)]
    exact ⟨kdfxorMask_length s h, rfl⟩

/-- Settles O37: the first run leaves key, contexts and data length, so the second lays the same mask over its result. -/
theorem kdfxorIsItsOwnInverse : Obligations.KdfxorIsItsOwnInverse := by
  intro s t u alg hmem ht hu
  obtain ⟨h, ha⟩ : ∃ h, realHash? alg = some h := Option.isSome_iff_exists.mp (isHash_iff.mpr hmem)
  rw [exec_kdfxor, kdfxorResult_some ha] at ht hu
  cases ht
  cases hu
  have hlen : (xorBytes s.ib1.value (s.kdfxorMask h)).length = s.ib1.len := by simp
  have hmask := kdfxorMask_of_result hlen h
  simp only [complete_success, finish_ob0, value_ofBytes] at hmask ⊢
  rw [hmask, xorBytes_cancel (by simp)]

end Sys2Proof.Machine
end

section
/-! Proofs of the statements of 44_oaep.md: the outcomes of OAEPENC and OAEPDEC (R137, R141), what the decoder accepts
(R139), that it undoes the encoder (R143 (a)), and that its failures leave one state (R140). -/

namespace Sys2Proof.Machine

/-! ## Masking and unmasking (R136, R139) -/

/-- Unmasking where the input is given as its two parts. -/
theorem oaepUnmask_append {h : RealHash} {maskedSeed : Bytes} (hs : maskedSeed.length = digestSize h) (cfg : Config)
    (maskedDb : Bytes) :
    oaepUnmask cfg h (maskedSeed ++ maskedDb) =
      xorBytes maskedDb (mgf1 cfg h (xorBytes maskedSeed (mgf1 cfg h maskedDb (digestSize h))) maskedDb.length) := by
  rw [oaepUnmask, List.take_left' hs, List.drop_left' hs]

/-- What the mask hides, unmasking finds again: the seed comes back first, and DB from it. -/
theorem oaepUnmask_oaepMask {h : RealHash} {seed : Bytes} (hs : seed.length = digestSize h) (cfg : Config) (db : Bytes) :
    oaepUnmask cfg h (oaepMask cfg h db seed) = db := by
  have hdb : (xorBytes db (mgf1 cfg h seed db.length)).length = db.length := by simp
  rw [oaepMask, oaepUnmask_append (by simp [hs]), xorBytes_cancel (a := seed) (by simp [hs]), hdb]
  exact xorBytes_cancel (by simp)

/-! ## What the decoder accepts (R139) -/

theorem take_eq_and_drop_eq_iff {p x r : Bytes} {n : Nat} (hp : p.length = n) :
    x.take n = p ∧ x.drop n = r ↔ x = p ++ r := by
  constructor
  · rintro ⟨rfl, rfl⟩
    exact (List.take_append_drop n x).symm
  · rintro rfl
    exact ⟨List.take_left' hp, List.drop_left' hp⟩

/-- The decoder accepts what is long enough and unmasks to a block that the encoder could have masked (R135), however
many zeros it holds. -/
theorem oaepDecode_eq_some_iff {cfg : Config} {h : RealHash} {em params m : Bytes} :
    oaepDecode cfg h em params = some m ↔
      2 * digestSize h + 1 ≤ em.length ∧ ∃ n, oaepUnmask cfg h em = oaepBlock (providerHash cfg h params) n m := by
  have hcut (n : Nat) := take_eq_and_drop_eq_iff (x := oaepUnmask cfg h em) (r := zeros n ++ [0x01#8] ++ m)
    (providerHash_length cfg h params)
  simp only [oaepDecode, oaepBlock, Option.ite_none_left_eq_some, Option.ite_none_right_eq_some, oaepScan_eq_some,
    not_lt, List.append_assoc] at hcut ⊢
  simp only [← hcut, exists_and_left]

/-! ## The outcomes of OAEPENC (R137) -/

theorem oaepencCheck_none {s : State} {alg : Half} (ha : realHash? alg = none) :
    s.oaepencCheck alg = .error .unsupportedAlgorithm := by
  rw [State.oaepencCheck, ha]

section

variable {s : State} {alg : Half} {h : RealHash} (ha : realHash? alg = some h)
include ha

theorem oaepencCheck_tooLong (hlong : s.p0n < s.ib0.len + 2 * digestSize h + 2) :
    s.oaepencCheck alg = .error .messageTooLong := by
  rcases oaepencCheck_cases (s := s) ha with ⟨-, hc⟩ | ⟨hfits, -, -⟩ | ⟨hfits, -, -⟩
  · exact hc
  · omega
  · omega

theorem oaepencCheck_capacity (hfits : s.ib0.len + 2 * digestSize h + 2 ≤ s.p0n) (hover : s.cfg.bufcap < s.p0n - 1) :
    s.oaepencCheck alg = .error .capacity := by
  rcases oaepencCheck_cases (s := s) ha with ⟨hlong, -⟩ | ⟨-, -, hc⟩ | ⟨-, hcap, -⟩
  · omega
  · exact hc
  · omega

theorem oaepencCheck_ok (hfits : s.ib0.len + 2 * digestSize h + 2 ≤ s.p0n) (hcap : s.p0n - 1 ≤ s.cfg.bufcap) :
    s.oaepencCheck alg = .ok h := by
  rcases oaepencCheck_cases (s := s) ha with ⟨hlong, -⟩ | ⟨-, hover, -⟩ | ⟨-, -, hc⟩
  · omega
  · omega
  · exact hc

end

/-- The encoder with its number of zeros given: `psLen` is what the bound leaves over (R136). -/
theorem oaepEncode_eq_mask {h : RealHash} {message : Bytes} {psLen modulusBytes : Nat}
    (hps : psLen + message.length + 2 * digestSize h + 2 = modulusBytes) (cfg : Config) (params seed : Bytes) :
    oaepEncode cfg h message params modulusBytes seed =
      oaepMask cfg h (oaepBlock (providerHash cfg h params) psLen message) seed := by
  have hlen : modulusBytes - 1 - message.length - 2 * digestSize h - 1 = psLen := by omega
  rw [oaepEncode, hlen]

/-! ## The outcomes of OAEPDEC (R141) -/

theorem exec_oaepdec (s : State) (alg : Half) : exec (.oaepdec alg) s = .next (s.complete (s.oaepdecResult alg)) := rfl

theorem oaepdecResult_none {s : State} {alg : Half} (ha : realHash? alg = none) :
    s.oaepdecResult alg = .error .unsupportedAlgorithm s.ctx := by
  rw [State.oaepdecResult, ha, raise_eq]

theorem oaepdecResult_message {s : State} {alg : Half} {h : RealHash} {m : Bytes} (ha : realHash? alg = some h)
    (hd : oaepDecode s.cfg h s.ib0.value s.ib1.value = some m) : s.oaepdecResult alg = .success m [] 0 s.ctx := by
  simp only [State.oaepdecResult, ha, hd, successOb0_eq]

theorem oaepdecResult_fail {s : State} {alg : Half} {h : RealHash} (ha : realHash? alg = some h)
    (hd : oaepDecode s.cfg h s.ib0.value s.ib1.value = none) : s.oaepdecResult alg = .boolFalse s.ctx := by
  simp only [State.oaepdecResult, ha, hd]

/-! ## The statements -/

/-- Settles O38: the checks decide the outcome, and when all pass, the block has psLen zeros and P0 - 1 - hLen bytes. -/
theorem oaepencEncodes : Obligations.OaepencEncodes := by
  intro s alg
  refine ⟨fun hout => ?_, fun h psLen db seed maskedDb hmem => ?_⟩
  · rw [exec_oaepenc_error (oaepencCheck_none (not_mem_hashTable_iff.mp hout)), raise_eq, State.unsupported]
  · have ha := mem_hashTable_iff.mp hmem
    refine ⟨fun hfits hcap hps hdb hseed hmasked => ?_, fun hlong => ?_, fun hfits hover => ?_⟩
    · obtain rfl : db = oaepBlock (providerHash s.cfg h s.ib1.value) psLen s.ib0.value := hdb
      have hlen : s.p0.toNat - 1 - digestSize h = digestSize h + psLen + 1 + s.ib0.len := by omega
      rw [exec_oaepenc_ok (oaepencCheck_ok ha (by rw [State.p0n]; omega) hcap), State.p0n,
        oaepEncode_eq_mask (by simpa using hps), oaepMask, oaepBlock_length, providerHash_length, value_length, ← hlen,
        ← hseed, ← hmasked]
      rfl
    · exact exec_oaepenc_error (oaepencCheck_tooLong ha (by rw [State.p0n]; omega))
    · exact exec_oaepenc_error (oaepencCheck_capacity ha (by rw [State.p0n]; omega) hover)

/-- Settles O39: past the algorithm check the outcome is the decoder's. -/
theorem oaepdecDecodes : Obligations.OaepdecDecodes := by
  intro s alg
  refine ⟨fun hout => ?_, fun h hmem => ⟨fun m hd => ?_, fun hd => ?_⟩⟩
  · rw [exec_oaepdec, oaepdecResult_none (not_mem_hashTable_iff.mp hout), State.unsupported]
  · rw [exec_oaepdec, oaepdecResult_message (mem_hashTable_iff.mp hmem) hd]
  · rw [exec_oaepdec, oaepdecResult_fail (mem_hashTable_iff.mp hmem) hd]

/-- Settles O40: the string of the statement is what the decoder unmasks. -/
theorem oaepDecodeAcceptsExactly : Obligations.OaepDecodeAcceptsExactly := by
  intro cfg h em params m seed db hseed hdb
  have hunmask : oaepUnmask cfg h em = db := by rw [oaepUnmask, ← hseed, List.length_drop, hdb]
  rw [oaepDecode_eq_some_iff, hunmask]
  rfl

/-- Settles O41: the encoded message unmasks to the encoder's own block, which the decoder accepts. -/
theorem oaepRoundTrip : Obligations.OaepRoundTrip := by
  intro cfg h message params seed modulusBytes hseed hbound
  obtain ⟨psLen, hps⟩ : ∃ psLen, psLen + message.length + 2 * digestSize h + 2 = modulusBytes :=
    ⟨modulusBytes - (message.length + 2 * digestSize h + 2), by omega⟩
  have hlen : (oaepEncode cfg h message params modulusBytes seed).length = modulusBytes - 1 := by
    rw [oaepEncode_eq_mask hps, oaepMask_length, oaepBlock_length, providerHash_length, hseed, min_self]
    omega
  refine ⟨hlen, oaepDecode_eq_some_iff.mpr ⟨by omega, psLen, ?_⟩⟩
  rw [oaepEncode_eq_mask hps, oaepUnmask_oaepMask hseed]

/-- Settles O42: BoolFalse writes the same whichever check failed, and reads no input buffer. -/
theorem oaepdecFailuresLookAlike : Obligations.OaepdecFailuresLookAlike := by
  intro s t alg h hmem ht hs0 ht0
  have ha := mem_hashTable_iff.mp hmem
  have hctx : t.ctx = s.ctx := by rw [ht]
  refine ⟨_, _, exec_oaepdec s alg, exec_oaepdec t alg, ?_⟩
  rw [oaepdecResult_fail ha hs0, oaepdecResult_fail ha ht0, hctx]
  exact ⟨congrArg (State.complete · (.boolFalse s.ctx)) ht.symm, rfl, rfl, rfl⟩

end Sys2Proof.Machine
end

section
/-! Proofs of the statements of 45_pss.md: the outcomes of PSSENC and PSSVFY (R151, R154, R155), what the verifier
accepts (R153), and that it accepts what the encoder makes (R156 (a)). -/

namespace Sys2Proof.Machine

/-! ## The first byte under its mask (R150 step 4, R153 (d)) -/

theorem and_and_not_self (b m : Byte) : b &&& m &&& ~~~m = 0#8 := by
  simp [BitVec.and_assoc]

/-- Once the first byte is cut to its low bits, none of its top bits is left. -/
theorem andFirst_head_top_clear (m : Byte) (x : Bytes) : ∀ b ∈ (andFirst m x).head?, b &&& ~~~m = 0#8 := by
  cases x with
  | nil => simp [andFirst]
  | cons b x => simpa [andFirst] using and_and_not_self b m

/-- What is cut in the end need not be cut before the mask is laid over it. -/
theorem andFirst_xorBytes_andFirst (m : Byte) (x g : Bytes) :
    andFirst m (xorBytes (andFirst m x) g) = andFirst m (xorBytes x g) := by
  cases x with
  | nil => rfl
  | cons b x =>
    cases g with
    | nil => rfl
    | cons c g =>
      have hbyte : ((b &&& m) ^^^ c) &&& m = (b ^^^ c) &&& m := by
        ext i hi
        simp only [BitVec.getElem_and, BitVec.getElem_xor]
        cases m[i] <;> simp
      exact congrArg (· :: xorBytes x g) hbyte

/-! ## The data block (R150 step 3, R153 (e), (f)) -/

/-- The block with its number of zeros given: `z` is what the bound leaves over (R152). -/
theorem pssBlock_eq {h : RealHash} {salt : Bytes} {z emLen : Nat} (hz : z + salt.length + digestSize h + 2 = emLen) :
    pssBlock h emLen salt = zeros z ++ [0x01#8] ++ salt := by
  have hlen : emLen - salt.length - digestSize h - 2 = z := by omega
  rw [pssBlock, hlen]

/-- At most seven top bits are cut, so 01 keeps its one bit. -/
theorem one_and_topClear {t : Nat} (ht : t < 8) : 0x01#8 &&& topClear t = 0x01#8 := by
  have hall : ∀ t < 8, 0x01#8 &&& topClear t = 0x01#8 := by decide
  exact hall t ht

/-- The block starts with 00 or 01, so the cut does not change it. -/
theorem andFirst_pssBlock {t : Nat} (ht : t < 8) (h : RealHash) (emLen : Nat) (salt : Bytes) :
    andFirst (topClear t) (pssBlock h emLen salt) = pssBlock h emLen salt := by
  unfold pssBlock
  cases emLen - salt.length - digestSize h - 2 with
  | zero => exact congrArg (· :: salt) (one_and_topClear ht)
  | succ n => exact congrArg (· :: (zeros n ++ [0x01#8] ++ salt)) BitVec.zero_and

theorem pssTop_lt {emBits : Nat} : pssTop emBits < 8 := by
  unfold pssTop ceilDiv; omega

/-- The checks (e) and (f) on the unmasked string, and one of what is left as the salt, say that it is a block of some
salt that passes. -/
theorem checks_iff_exists_block {x : Bytes} {z saltLen : Nat} (hx : x.length = z + 1 + saltLen) {P : Bytes → Prop} :
    slice x 0 z = zeros z ∧ x.getD z 0 = 0x01#8 ∧ P (slice x (z + 1) x.length) ↔
      ∃ salt : Bytes, salt.length = saltLen ∧ x = zeros z ++ [0x01#8] ++ salt ∧ P salt := by
  have hz : z < x.length := by omega
  have hblock (salt : Bytes) : x = zeros z ++ [0x01#8] ++ salt ↔
      x.take z = zeros z ∧ x.getD z 0 = 0x01#8 ∧ x.drop (z + 1) = salt := by
    rw [List.append_assoc, ← take_eq_and_drop_eq_iff (zeros_length z), List.drop_eq_getElem_cons hz,
      List.getD_eq_getElem _ _ hz, List.singleton_append, List.cons.injEq]
  rw [slice_zero, slice_to_end]
  constructor
  · rintro ⟨hzeros, hone, hp⟩
    exact ⟨_, by rw [List.length_drop]; omega, (hblock _).mpr ⟨hzeros, hone, rfl⟩, hp⟩
  · rintro ⟨salt, -, hsalt, hp⟩
    obtain ⟨hzeros, hone, rfl⟩ := (hblock salt).mp hsalt
    exact ⟨hzeros, hone, hp⟩

/-! ## The verifier (R153) -/

@[simp] theorem pssUnmask_length (cfg : Config) (h : RealHash) (em : Bytes) (emBits : Nat) :
    (pssUnmask cfg h em emBits).length = min (ceilDiv emBits 8 - digestSize h - 1) em.length := by
  simp [pssUnmask]

/-- The checks (a) to (g), those on the unmasked block as one: it is the encoder's block of some salt. -/
theorem pssVerify_eq_true_iff {cfg : Config} {h : RealHash} {message em : Bytes} {saltLen emBits : Nat} :
    pssVerify cfg h message em saltLen emBits = true ↔
      em.length = ceilDiv emBits 8 ∧ digestSize h + saltLen + 2 ≤ ceilDiv emBits 8 ∧
      em.getD (ceilDiv emBits 8 - 1) 0 = 0xbc#8 ∧ em.getD 0 0 &&& ~~~topClear (pssTop emBits) = 0#8 ∧
      ∃ salt : Bytes, salt.length = saltLen ∧ pssUnmask cfg h em emBits = pssBlock h (ceilDiv emBits 8) salt ∧
        pssHash cfg h message salt = slice em (ceilDiv emBits 8 - digestSize h - 1) (ceilDiv emBits 8 - 1) := by
  simp only [pssVerify, ne_eq, ite_not, Bool.if_false_right, Bool.if_false_left, Bool.and_eq_true, Bool.not_eq_true',
    decide_eq_true_eq, decide_eq_false_iff_not, beq_iff_eq, not_lt]
  refine and_congr_right fun hlen => and_congr_right fun hbound => and_congr_right fun _ => and_congr_right fun _ => ?_
  have hdb : (pssUnmask cfg h em emBits).length = ceilDiv emBits 8 - digestSize h - saltLen - 2 + 1 + saltLen := by
    rw [pssUnmask_length]; omega
  rw [checks_iff_exists_block hdb (P := fun salt => pssHash cfg h message salt = _)]
  refine exists_congr fun salt => and_congr_right fun hsalt => ?_
  rw [pssBlock_eq (z := ceilDiv emBits 8 - digestSize h - saltLen - 2) (by omega)]

/-! ## The parts of an encoded message (R150 step 5) -/

/-- A string of `a + b + 1` bytes is two strings of these lengths and a last byte. -/
theorem exists_parts {x : Bytes} {a b : Nat} (hx : x.length = a + b + 1) :
    ∃ (y z : Bytes) (c : Byte), y.length = a ∧ z.length = b ∧ x = y ++ z ++ [c] := by
  obtain ⟨c, hc⟩ : ∃ c, (x.drop a).drop b = [c] := List.length_eq_one_iff.mp (by simp; omega)
  refine ⟨x.take a, (x.drop a).take b, c, by simp; omega, by simp; omega, ?_⟩
  rw [← hc, List.append_assoc, List.take_append_drop, List.take_append_drop]

section

variable {h : RealHash} {emBits : Nat} {maskedDb hh : Bytes}
  (hm : maskedDb.length + digestSize h + 1 = ceilDiv emBits 8) (hlen : hh.length = digestSize h)
include hm hlen

theorem slice_maskedDb (c : Byte) :
    slice (maskedDb ++ hh ++ [c]) 0 (ceilDiv emBits 8 - digestSize h - 1) = maskedDb := by
  rw [slice_zero, List.append_assoc]
  exact List.take_left' (by omega)

theorem slice_hash (c : Byte) :
    slice (maskedDb ++ hh ++ [c]) (ceilDiv emBits 8 - digestSize h - 1) (ceilDiv emBits 8 - 1) = hh := by
  rw [slice, List.append_assoc, List.drop_left' (by omega)]
  exact List.take_left' (by omega)

theorem getD_trailer (c : Byte) : (maskedDb ++ hh ++ [c]).getD (ceilDiv emBits 8 - 1) 0 = c := by
  rw [List.getD_append_right _ _ _ _ (by simp; omega)]
  simp [← hm, hlen]

theorem pssUnmask_parts (cfg : Config) (c : Byte) :
    pssUnmask cfg h (maskedDb ++ hh ++ [c]) emBits =
      andFirst (topClear (pssTop emBits)) (xorBytes maskedDb (mgf1 cfg h hh maskedDb.length)) := by
  have hdb : ceilDiv emBits 8 - digestSize h - 1 = maskedDb.length := by omega
  rw [pssUnmask, slice_maskedDb hm hlen, slice_hash hm hlen, hdb]

/-- What the verifier accepts, of a string given as its parts. -/
theorem pssVerify_parts {cfg : Config} {message : Bytes} {c : Byte} {saltLen : Nat} :
    pssVerify cfg h message (maskedDb ++ hh ++ [c]) saltLen emBits = true ↔
      digestSize h + saltLen + 2 ≤ ceilDiv emBits 8 ∧ c = 0xbc#8 ∧
      (∀ b ∈ maskedDb.head?, b &&& ~~~topClear (pssTop emBits) = 0#8) ∧
      ∃ salt : Bytes, salt.length = saltLen ∧
        andFirst (topClear (pssTop emBits)) (xorBytes maskedDb (mgf1 cfg h hh maskedDb.length)) =
          pssBlock h (ceilDiv emBits 8) salt ∧
        hh = pssHash cfg h message salt := by
  have htotal : (maskedDb ++ hh ++ [c]).length = ceilDiv emBits 8 := by simp; omega
  rw [pssVerify_eq_true_iff, getD_trailer hm hlen, slice_hash hm hlen, pssUnmask_parts hm hlen]
  simp only [htotal, true_and, eq_comm (a := hh)]
  refine and_congr_right fun hbound => ?_
  cases maskedDb with
  | nil => simp at hm; omega
  | cons b x => simp

end

/-! ## The outcomes of PSSENC (R151) -/

theorem pssencCheck_none {s : State} {alg : Half} (ha : realHash? alg = none) :
    s.pssencCheck alg = .error .unsupportedAlgorithm := by
  rw [State.pssencCheck, ha]

/-! ## The outcomes of PSSVFY (R154) -/

theorem exec_pssvfy (s : State) (alg : Half) : exec (.pssvfy alg) s = .next (s.complete (s.pssvfyResult alg)) := rfl

theorem pssvfyResult_none {s : State} {alg : Half} (ha : realHash? alg = none) :
    s.pssvfyResult alg = .error .unsupportedAlgorithm s.ctx := by
  rw [State.pssvfyResult, ha, raise_eq]

theorem pssvfyResult_some {s : State} {alg : Half} {h : RealHash} (ha : realHash? alg = some h) :
    s.pssvfyResult alg =
      if pssVerify s.cfg h s.ib0.value s.ib1.value s.p0.toNat s.p1.toNat then .success [] [] 0 s.ctx
      else .boolFalse s.ctx := by
  rw [State.pssvfyResult, ha]
  rfl

/-! ## The statements -/

/-- Settles O43: the checks decide the outcome, and when all pass, the block is z zeros, 01 and the drawn salt. -/
theorem pssencEncodes : Obligations.PssencEncodes := by
  intro s alg
  refine ⟨fun hout => ?_, fun h emLen z salt hh hmem hemLen => ?_⟩
  · rw [exec_pssenc_error (pssencCheck_none (not_mem_hashTable_iff.mp hout)), raise_eq, State.unsupported]
  · subst hemLen
    have hcases := pssencCheck_cases (s := s) (mem_hashTable_iff.mp hmem)
    simp only [State.p0n, State.p1n] at hcases
    rcases hcases with ⟨hshort, hc⟩ | ⟨hfits, hover, hc⟩ | ⟨hfits, hcap, hc⟩
    · exact ⟨fun _ hz => absurd hshort (by omega), fun _ => exec_pssenc_error hc,
        fun hfits => absurd hshort (by omega)⟩
    · exact ⟨fun hcap => absurd hover (by omega), fun hshort => absurd hfits (by omega),
        fun _ _ => exec_pssenc_error hc⟩
    · refine ⟨fun _ hz hsalt hhash => ?_, fun hshort => absurd hfits (by omega),
        fun _ hover => absurd hcap (by omega)⟩
      have hlen : salt.length = s.p0.toNat := by rw [hsalt, drawn_length]
      obtain rfl : hh = pssHash s.cfg h s.ib0.value salt := hhash
      rw [exec_pssenc_ok hc, State.p0n, State.p1n, ← hsalt, ← pssBlock_eq (hlen ▸ hz)]
      rfl

/-- Settles O44: past the algorithm check the outcome is the verifier's. -/
theorem pssvfyNeverErrs : Obligations.PssvfyNeverErrs := by
  intro s alg
  refine ⟨fun hout => ?_, fun h hmem => ⟨fun hv => ?_, fun hv => ?_⟩⟩
  · rw [exec_pssvfy, pssvfyResult_none (not_mem_hashTable_iff.mp hout), State.unsupported]
  · rw [exec_pssvfy, pssvfyResult_some (mem_hashTable_iff.mp hmem), hv, if_pos rfl]
  · rw [exec_pssvfy, pssvfyResult_some (mem_hashTable_iff.mp hmem), hv, if_neg Bool.false_ne_true]

/-- Settles O45: a string of emLen bytes is taken apart into the three strings of the statement. -/
theorem pssVerifyAcceptsExactly : Obligations.PssVerifyAcceptsExactly := by
  intro cfg h message em saltLen emBits emLen lowBits hemLen hlow
  subst hemLen
  obtain rfl : lowBits = topClear (pssTop emBits) := hlow
  constructor
  · intro hv
    obtain ⟨hlen, hbound, -⟩ := pssVerify_eq_true_iff.mp hv
    obtain ⟨maskedDb, hh, c, hmLen, hhLen, rfl⟩ := exists_parts (x := em)
      (a := ceilDiv emBits 8 - digestSize h - 1) (b := digestSize h) (by omega)
    obtain ⟨-, rfl, htop, salt, rfl, hblock, hhash⟩ := (pssVerify_parts (by omega) hhLen).mp hv
    rw [hmLen, pssBlock_eq (z := ceilDiv emBits 8 - digestSize h - salt.length - 2) (by omega)] at hblock
    exact ⟨hbound, maskedDb, hh, salt, rfl, hmLen, hhLen, rfl, htop, hblock, hhash⟩
  · rintro ⟨hbound, maskedDb, hh, salt, rfl, hmLen, hhLen, rfl, htop, hblock, hhash⟩
    rw [← hmLen, ← pssBlock_eq (h := h) (emLen := ceilDiv emBits 8) (by omega)] at hblock
    exact (pssVerify_parts (by omega) hhLen).mpr ⟨hbound, rfl, htop, salt, rfl, hblock, hhash⟩

/-- Settles O46: the cut of the masked block is taken back by the verifier's own, since the block has no top bits. -/
theorem pssRoundTrip : Obligations.PssRoundTrip := by
  intro cfg h message salt emBits hbound
  refine ⟨pssEncode_length hbound, ?_⟩
  have hblock : (pssBlock h (ceilDiv emBits 8) salt).length = ceilDiv emBits 8 - digestSize h - 1 := by
    rw [pssBlock_length]; omega
  rw [pssEncode, pssVerify_parts (by simp; omega) (pssHash_length ..)]
  refine ⟨hbound, rfl, andFirst_head_top_clear _ _, salt, rfl, ?_, rfl⟩
  have hmasked : (xorBytes (pssBlock h (ceilDiv emBits 8) salt)
      (mgf1 cfg h (pssHash cfg h message salt) (ceilDiv emBits 8 - digestSize h - 1))).length =
        ceilDiv emBits 8 - digestSize h - 1 := by simp; omega
  rw [andFirst_length, hmasked, andFirst_xorBytes_andFirst, xorBytes_cancel (by rw [hblock, mgf1_length]),
    andFirst_pssBlock pssTop_lt]

end Sys2Proof.Machine
end

section
/-! Proofs of the statement of 46_pkcs15.md: the identifiers with a DigestInfo header (R165), the encoded message
(R166), and the outcome of P15ENC (R167). -/

namespace Sys2Proof.Machine

/-! ## The identifiers with a DigestInfo header (R165) -/

/-- The identifiers P15ENC knows, with the hash and the DigestInfo header of each: the hash table without SM3-256. -/
def p15Table : List (Half × RealHash × Bytes) :=
  [(0x0004#16, .sha1, [0x30#8, 0x21#8, 0x30#8, 0x09#8, 0x06#8, 0x05#8, 0x2b#8, 0x0e#8, 0x03#8, 0x02#8, 0x1a#8, 0x05#8,
      0x00#8, 0x04#8, 0x14#8]),
   (0x000B#16, .sha256, sha2DigestInfo 0x31#8 0x01#8 0x20#8), (0x000C#16, .sha384, sha2DigestInfo 0x41#8 0x02#8 0x30#8),
   (0x000D#16, .sha512, sha2DigestInfo 0x51#8 0x03#8 0x40#8)]

theorem p15Hash?_of_mem_p15Table {alg : Half} {h : RealHash} {header : Bytes} (hmem : (alg, h, header) ∈ p15Table) :
    p15Hash? alg = some (h, header) := by
  simp only [p15Table, List.mem_cons, Prod.mk.injEq, List.not_mem_nil, or_false] at hmem
  rcases hmem with ⟨rfl, rfl, rfl⟩ | ⟨rfl, rfl, rfl⟩ | ⟨rfl, rfl, rfl⟩ | ⟨rfl, rfl, rfl⟩ <;> rfl

/-- Outside the table an identifier names no real hash, or SM3-256, which has no DigestInfo header. -/
theorem p15Hash?_of_not_mem_p15Table {alg : Half} (hout : alg ∉ p15Table.map Prod.fst) : p15Hash? alg = none := by
  cases ha : realHash? alg with
  | none => rw [p15Hash?, ha]
  | some h =>
    have hrow := mem_hashTable_iff.mpr ha
    simp only [hashTable, List.mem_cons, Prod.mk.injEq, List.not_mem_nil, or_false] at hrow
    rcases hrow with ⟨rfl, rfl⟩ | ⟨rfl, rfl⟩ | ⟨rfl, rfl⟩ | ⟨rfl, rfl⟩ | ⟨rfl, rfl⟩
    iterate 4 exact absurd (by decide) hout
    rfl

/-! ## The encoded message (R166) -/

/-- The encoder with its number of bytes ff given: `ps` is what the bound leaves over. -/
theorem p15Encode_eq_rep {h : RealHash} {header : Bytes} {ps emLen : Nat}
    (hps : ps + header.length + digestSize h + 3 = emLen) (cfg : Config) (message : Bytes) :
    p15Encode cfg h header message emLen =
      [0x00#8, 0x01#8] ++ rep 0xff#8 ps ++ [0x00#8] ++ header ++ providerHash cfg h message := by
  have hcount : emLen - (header ++ providerHash cfg h message).length - 3 = ps := by
    rw [List.length_append, providerHash_length]; omega
  rw [p15Encode, hcount, List.append_assoc _ header]

/-! ## The outcome of P15ENC (R167) -/

theorem exec_p15enc (s : State) (alg : Half) : exec (.p15enc alg) s = .next (s.complete (s.p15encResult alg)) := rfl

theorem p15encResult_none {s : State} {alg : Half} (ha : p15Hash? alg = none) :
    s.p15encResult alg = .error .unsupportedAlgorithm s.ctx := by
  rw [State.p15encResult, ha, raise_eq]

theorem p15encResult_some {s : State} {alg : Half} {h : RealHash} {header : Bytes}
    (ha : p15Hash? alg = some (h, header)) :
    s.p15encResult alg =
      if s.p0.toNat < header.length + digestSize h + 11 then .error .encodedMessageTooShort s.ctx
      else if s.cfg.bufcap < s.p0.toNat then .error .capacity s.ctx
      else .success (p15Encode s.cfg h header s.ib0.value s.p0.toNat) [] 0 s.ctx := by
  rw [State.p15encResult, ha]
  rfl

/-! ## The statement -/

/-- Settles O47: the algorithm check is first, then the bound, then the capacity; when all pass, `ps` bytes ff fill up
to P0. -/
theorem p15encEncodes : Obligations.P15encEncodes := by
  intro s alg
  refine ⟨fun hout => ?_, fun h header hmem => ?_⟩
  · rw [exec_p15enc, p15encResult_none (p15Hash?_of_not_mem_p15Table hout), State.unsupported]
  · rw [exec_p15enc, p15encResult_some (p15Hash?_of_mem_p15Table hmem)]
    refine ⟨fun ps hmin hps hcap => ?_, fun hshort => ?_, fun hfits hover => ?_⟩
    · rw [if_neg (by omega), if_neg (not_lt.mpr hcap), p15Encode_eq_rep hps]
    · rw [if_pos hshort]
    · rw [if_neg (not_lt.mpr hfits), if_pos hover]

end Sys2Proof.Machine
end

section
/-! Proofs of the statements of 47_symenv.md: what CTXNEW and CTXREL leave in the slot (R177, R180), what SYMENC and
SYMDEC compute (R181 to R184), the steps of DEENV (R190, R191, R198), and CLRBUF (R197). -/

namespace Sys2Proof.Machine

/-! ## The checks of CTXNEW (R177) -/

theorem ctxnewCheck_none {s : State} (hb : symBlock s.cfg s.p0 s.p1n = none) (r v : Bool) :
    s.ctxnewCheck r v = .error .unsupportedAlgorithm := by
  rw [State.ctxnewCheck, hb]

section

variable {s : State} {r v : Bool} {bs : Nat} (hb : symBlock s.cfg s.p0 s.p1n = some bs)
include hb

theorem ctxnewCheck_malformed (hbad : r = false ∧ 8 * s.ib0.len ≠ s.p1n ∨ v = true ∧ s.ib1.len ≠ bs) :
    s.ctxnewCheck r v = .error .malformedInput := by
  rw [State.ctxnewCheck, hb]
  rcases hbad with hkey | hiv
  · exact if_pos hkey
  · simp only [if_pos hiv, ite_self]

theorem ctxnewCheck_ok (hkey : r = false → 8 * s.ib0.len = s.p1n) (hiv : v = true → s.ib1.len = bs) :
    s.ctxnewCheck r v = .ok bs := by
  rw [State.ctxnewCheck, hb]
  exact (if_neg fun h => h.2 (hkey h.1)).trans (if_neg fun h => h.2 (hiv h.1))

end

/-- The count of draws after CTXNEW: one more with RNDKEY. -/
theorem ite_countDraw (s : State) (r : Bool) :
    (if r then s.countDraw else s) = { s with drawCount := s.drawCount + r.toNat } := by
  cases r with
  | false => rfl
  | true => rfl

/-- Settles O49: the checks decide the outcome; `newKey` and `newIv` are the key and the IV of the statement. -/
theorem ctxnewMakesOrReleases : Obligations.CtxnewMakesOrReleases := by
  intro s r v
  refine ⟨fun hb => exec_ctxnew_error (ctxnewCheck_none hb r v), fun bs hb =>
    ⟨fun hbad => exec_ctxnew_error (ctxnewCheck_malformed hb hbad), fun hkey hiv => ?_⟩⟩
  rw [exec_ctxnew_ok (ctxnewCheck_ok hb hkey hiv), ite_countDraw]
  rfl

/-- Settles O50: the released slot is the one of the statement. -/
theorem ctxrelReleases : Obligations.CtxrelReleases := fun _ => rfl

/-! ## The transform (R181, R185) -/

theorem symTransform_empty (cfg : Config) (d : Dir) (c : CipherCtx) {data : Bytes} (h : data.length = 0) (iv : Bytes) :
    symTransform cfg d c data iv = ([], [], []) := if_pos h

/-- The transform with its number of zeros given: `pad` fills the last block (R181). -/
theorem symTransform_padded {c : CipherCtx} {data : Bytes} {pad : Nat} (h : data.length ≠ 0) (hpad : pad < c.blk.toNat)
    (hwhole : (data.length + pad) % c.blk.toNat = 0) {x y : Bytes} (hx : x = data ++ zeros pad) {cfg : Config} {d : Dir}
    {iv : Bytes} (hy : y = providerCipher cfg d (symCipher c.defn) (symMode c.defn) c.keyBytes iv x) :
    symTransform cfg d c data iv = (y.take data.length, x, y) := by
  subst hx hy
  rw [symTransform, if_neg h, padToBlock_eq hpad hwhole]

theorem ivUpdate_unchanged {cfg : Config} (h : cfg.ivPolicy = .unchanged) (d : Dir) (c : CipherCtx) (iv0 x y : Bytes) :
    ivUpdate cfg d c iv0 x y = iv0 := by
  rw [ivUpdate, h]

/-! ## The outcomes of SYMENC and SYMDEC (R182, R183) -/

theorem exec_transform {d : Dir} {i : Instr} {v : Bool}
    (h : (d, i) ∈ [(Dir.enc, Instr.symenc v), (.dec, .symdec v)]) (s : State) :
    exec i s = .next (s.complete (s.transformResult d v)) := by
  simp only [List.mem_cons, Prod.mk.injEq, List.not_mem_nil, or_false] at h
  rcases h with ⟨rfl, rfl⟩ | ⟨rfl, rfl⟩
  · rfl
  · rfl

theorem transformResult_released {s : State} (h : s.ctx.valid = false) (d : Dir) (v : Bool) :
    s.transformResult d v = .error .noContext s.ctx := if_pos h

section

variable {s : State} {v : Bool} (hvalid : s.ctx.valid = true)
include hvalid

theorem transformResult_malformed (hv : v = true) (hlen : s.ib1.len ≠ s.ctx.blk.toNat) (d : Dir) :
    s.transformResult d v = .error .malformedInput s.ctx := by
  rw [State.transformResult, if_neg (by simp [hvalid]), if_pos ⟨hv, hlen⟩, raise_eq]

/-- With the IV accepted, the outcome is the transform's: its result, and the slot with the IV `IvUpdate` gives. -/
theorem transformResult_ok (hlen : v = true → s.ib1.len = s.ctx.blk.toNat) {d : Dir} {iv0 out x y : Bytes}
    (hiv : iv0 = s.transformIv v) (hr : symTransform s.cfg d s.ctx s.ib0.value iv0 = (out, x, y)) :
    s.transformResult d v =
      .success out [] 0 { s.ctx with iv := Memory.ofBytes (ivUpdate s.cfg d s.ctx iv0 x y) } := by
  subst hiv
  rw [State.transformResult, if_neg (by simp [hvalid]), if_neg fun h => h.2 (hlen h.1), State.transformCtx, hr]

end

/-- Settles O51: both commands end in the outcome of one transform, in the direction of the command. -/
theorem symencSymdecTransform : Obligations.SymencSymdecTransform := by
  intro s v d i iv0 hi hiv
  rw [exec_transform hi]
  refine ⟨fun hrel => ?_, fun hvalid hv hlen => ?_, fun hvalid hlen => ⟨fun hempty => ?_,
    fun pad x y hne hpad hwhole hx hy => ?_⟩, fun hdef => ivUpdate_unchanged hdef d s.ctx iv0⟩
  · rw [transformResult_released hrel]
  · rw [transformResult_malformed hvalid hv hlen]
  · rw [transformResult_ok hvalid hlen hiv (symTransform_empty _ _ _ (by simpa using hempty) _)]
  · rw [transformResult_ok hvalid hlen hiv
      (symTransform_padded (by simpa using hne) hpad (by simpa using hwhole) hx hy), value_length]

/-! ## The steps of the de-envelope (R190, R192, R195) -/

theorem stripPayload_malformed {p : Bytes} (h : p.length < 2 ∨ intOf (p.take 2) ≠ p.length - 2) :
    stripPayload p = .error .malformedInput := by
  rw [stripPayload, slice_zero]
  rcases h with hshort | hprefix
  · exact if_pos hshort
  · simp only [if_pos hprefix, ite_self]

theorem stripPayload_ok {p : Bytes} (hlen : 2 ≤ p.length) (hprefix : intOf (p.take 2) = p.length - 2) :
    stripPayload p = .ok (p.drop 2) := by
  have hend : 2 + (p.length - 2) = p.length := by omega
  rw [stripPayload, slice_zero, if_neg (by omega), if_neg (not_not.mpr hprefix), hprefix, hend, slice_to_end]

/-- A payload that is well built (R188) is stripped to what it carries. -/
theorem stripPayload_lengthPrefixed {x : Bytes} (h : x.length < 65536) : stripPayload (lengthPrefixed x) = .ok x := by
  have htake : (lengthPrefixed x).take 2 = be16 x.length := by simp [lengthPrefixed]
  have hint : intOf (be16 x.length) = x.length := intOf_bytesN_of_lt h
  rw [stripPayload_ok (by simp) (by rw [htake, hint]; simp)]
  simp [lengthPrefixed]

theorem openInner_short {h : RealHash} {inner : Bytes} (hl : inner.length < digestSize h + 2) (cfg : Config)
    (name : Bytes) : openInner cfg h inner name = .error .malformedInput := if_pos hl

section

variable {cfg : Config} {h : RealHash} {inner name payload tag : Bytes} (hl : digestSize h + 2 ≤ inner.length)
  (hpayload : payload = inner.drop (digestSize h + 2))
  (htag : tag = be16 (digestSize h) ++ providerHash cfg h (payload ++ name))
include hl hpayload htag

theorem openInner_badTag (hne : inner.take (digestSize h + 2) ≠ tag) :
    openInner cfg h inner name = .error .integrityCheckFailed := by
  subst hpayload htag
  rw [openInner_of_long hl, if_pos hne.symm]

theorem openInner_goodTag (heq : inner.take (digestSize h + 2) = tag) :
    openInner cfg h inner name = stripPayload payload := by
  subst hpayload htag
  rw [openInner_of_long hl, if_neg (not_not.mpr heq.symm)]

end

/-! ## The outcomes of DEENV (R191) -/

theorem exec_deenv (s : State) (alg : Half) : exec (.deenv alg) s = .next (s.complete (s.deenvResult alg)) := rfl

theorem deenvResult_none {s : State} {alg : Half} (ha : realHash? alg = none) :
    s.deenvResult alg = .error .unsupportedAlgorithm s.ctx := by
  rw [State.deenvResult, ha, raise_eq]

section

variable {s : State} {alg : Half} {h : RealHash} (ha : realHash? alg = some h)
include ha

theorem deenvResult_noCipher (hb : symBlock s.cfg s.p0 s.p1.toNat = none) :
    s.deenvResult alg = .error .unsupportedAlgorithm s.ctx := by
  simp only [State.deenvResult, ha, deenvelope, hb, ofExcept_error]

variable {bs : Nat} (hb : symBlock s.cfg s.p0 s.p1.toNat = some bs)
include hb

theorem deenvResult_keyLength (hkey : 8 * s.ib1.len ≠ s.p1.toNat) :
    s.deenvResult alg = .error .malformedInput s.ctx := by
  simp only [State.deenvResult, ha, deenvelope, hb, value_length, if_pos hkey, ofExcept_error]

/-- Past the first three checks DEENV opens the inner object: the blob decrypted under the transient context. -/
theorem deenvResult_inner (hkey : 8 * s.ib1.len = s.p1.toNat) {inner : Bytes}
    (hinner : inner = (symTransform s.cfg .dec (CipherCtx.make s.p0 s.p1 bs s.ib1.value (zeros bs)) s.ib0.value
      (zeros bs)).1) :
    s.deenvResult alg = s.ofExcept (openInner s.cfg h inner s.ib2.value) := by
  subst hinner
  simp only [State.deenvResult, ha, deenvelope, hb, value_length, if_neg (not_not.mpr hkey), deenvCtx]

end

/-- Settles O52: the tag matches the payload behind it, and the payload is the secret with its length before it. -/
theorem deenvRecoversTheSecret : Obligations.DeenvRecoversTheSecret := by
  intro s alg h bs secret payload hmem hb hkey hsecret hpayload hinner
  obtain rfl : payload = lengthPrefixed secret := hpayload
  have htagLen : (be16 (digestSize h) ++ providerHash s.cfg h (lengthPrefixed secret ++ s.ib2.value)).length =
      digestSize h + 2 := by simp; omega
  rw [exec_deenv, deenvResult_inner (mem_hashTable_iff.mp hmem) hb hkey hinner.symm,
    openInner_goodTag (by rw [List.length_append, htagLen]; omega) (List.drop_left' htagLen).symm rfl
      (List.take_left' htagLen),
    stripPayload_lengthPrefixed hsecret, ofExcept_ok]

/-- Settles O53: each step of the de-envelope that fails gives its class, and the last leaves the payload's bytes. -/
theorem deenvFollowsItsSteps : Obligations.DeenvFollowsItsSteps := by
  intro s alg
  refine ⟨fun hout => ?_, fun h hmem => ?_⟩
  · rw [exec_deenv, deenvResult_none (not_mem_hashTable_iff.mp hout), State.unsupported]
  have ha := mem_hashTable_iff.mp hmem
  refine ⟨fun hb => ?_, fun bs hb => ⟨fun hkey => ?_, fun hkey inner payload tag hinner hpayload htag => ?_⟩⟩
  · rw [exec_deenv, deenvResult_noCipher ha hb, State.unsupported]
  · rw [exec_deenv, deenvResult_keyLength ha hb hkey]
  rw [exec_deenv, deenvResult_inner ha hb hkey hinner]
  refine ⟨fun hshort => ?_, fun hlong hne => ?_, fun hlong heq hbad => ?_, fun hlong heq hlen hprefix => ?_⟩
  · rw [openInner_short hshort, ofExcept_error]
  · rw [openInner_badTag hlong hpayload htag hne, ofExcept_error]
  · rw [openInner_goodTag hlong hpayload htag heq, stripPayload_malformed hbad, ofExcept_error]
  · rw [openInner_goodTag hlong hpayload htag heq, stripPayload_ok hlen hprefix, ofExcept_ok]

/-! ## CLRBUF (R197) -/

/-- Where all six buffers are empty, no sub-window holds a byte. -/
theorem windowByte_of_empty {s : State} (hib : ∀ k, s.ib k = Buffer.empty) (hob : ∀ k, s.ob k = Buffer.empty)
    (w o : Nat) : s.windowByte w o = 0 := by
  unfold State.windowByte
  split
  · exact congrArg (·.mem.read o) (hib 0)
  · exact congrArg (·.mem.read o) (hib 1)
  · exact congrArg (·.mem.read o) (hib 2)
  · exact congrArg (·.mem.read o) (hib 3)
  · exact congrArg (·.mem.read o) (hob 0)
  · exact congrArg (·.mem.read o) (hob 1)
  · rfl

/-- Settles O54: CLRBUF completes with empty outputs from the state with cleared inputs. -/
theorem clrbufZeroisesBuffers : Obligations.ClrbufZeroisesBuffers := by
  intro s
  have hib (k : Fin 4) : (s.clearInputs.complete (s.successOb0 [])).ib k = Buffer.empty := by fin_cases k <;> rfl
  have hob (k : Fin 2) : (s.clearInputs.complete (s.successOb0 [])).ob k = Buffer.empty := by fin_cases k <;> rfl
  exact ⟨_, rfl, hib, hob, windowByte_of_empty hib hob, rfl, rfl, rfl, rfl, rfl, rfl, rfl, rfl, rfl, rfl, rfl⟩

end Sys2Proof.Machine
end

section
/-! Proof of the statement of 48_laws.md: the step is total (R225). -/

namespace Sys2Proof.Machine

/-- The engine completes the command it runs, or waits (log entry 12). -/
theorem engineStep_next (s : State) : ∃ t, s.engineStep = .next t := by
  cases hs : s.seq with
  | idle => exact ⟨_, engineStep_idle hs⟩
  | busy w =>
    cases hd : decode w with
    | ok i =>
      obtain ⟨s0, c, hexec, -⟩ := exec_cases i s
      exact ⟨_, (engineStep_legal hs hd).trans hexec⟩
    | error r => exact ⟨_, engineStep_illegal hs hd⟩

theorem runEvent_next (s : State) (e : Event) : ∃ t, s.runEvent e = .next t := by
  cases e with
  | access a => exact ⟨_, rfl⟩
  | engine => exact engineStep_next s
  | reset => exact ⟨_, rfl⟩

/-- Settles O13: the step is the engine's or that of the next event, and each answers a next state. -/
theorem stepAlwaysAnswersNext : Obligations.StepAlwaysAnswersNext := by
  intro s
  cases ha : s.agenda with
  | nil => exact step_nil ha ▸ engineStep_next s
  | cons e rest => exact step_cons ha ▸ runEvent_next { s with agenda := rest } e

end Sys2Proof.Machine
end

section
/-! Proofs of the statements of 60_exceptions.md: the three outcomes and the error codes (R200, R206), the outcomes of
each command (R201), the draws (R208), and what has no address (R214). -/

namespace Sys2Proof.Machine

/-! ## What a completion writes (R206) -/

/-- Settles O10: `finish` is the record of the statement, and BoolFalse and Error leave the outputs empty. -/
theorem completionWritesOutcome : Obligations.CompletionWritesOutcome :=
  ⟨rfl, fun s x y r c e => ⟨complete_success s x y r c, complete_boolFalse s c, complete_error s e c⟩⟩

/-! ## Draws (R208; 70_reset_and_hazards.md R237) -/

/-- Settles O58: a draw is counted only where the outcome is a success of a command of `Draws`. -/
theorem drawsOnlyOnSuccess : Obligations.DrawsOnlyOnSuccess := by
  intro i s t h
  obtain ⟨s0, c, rfl, -, rfl | ⟨rfl, hdraws, x, y, r, d, rfl⟩ | ⟨rfl, -⟩⟩ := exec_next_cases h
  · exact .inl (complete_drawCount _ _)
  · exact .inr ⟨complete_drawCount _ _, rfl, rfl, hdraws⟩
  · exact .inl (complete_drawCount _ _)

/-! ## The outcomes of each command (R201) -/

/-- The error classes a command can end with (R201). -/
def errorsOf : Mnemonic → List ErrorClass
  | .digsz | .blksz | .kdfxor | .oaepdec | .pssvfy => [.unsupportedAlgorithm]
  | .mgf1 | .kdfa => [.unsupportedAlgorithm, .capacity]
  | .split => [.unsupportedOperation, .malformedInput]
  | .xor => [.lengthMismatch]
  | .oaepenc => [.unsupportedAlgorithm, .messageTooLong, .capacity]
  | .pssenc => [.unsupportedAlgorithm, .encodingError, .capacity]
  | .p15enc => [.unsupportedAlgorithm, .encodedMessageTooShort, .capacity]
  | .ctxnew => [.unsupportedAlgorithm, .malformedInput]
  | .symenc | .symdec => [.noContext, .malformedInput]
  | .deenv => [.unsupportedAlgorithm, .malformedInput, .integrityCheckFailed]
  | .ishash | .xorp | .ctxrel | .clrbuf => []

/-- An outcome R201 allows a command: a success, a boolean failure of OAEPDEC or PSSVFY, or an error of its list. -/
def Allows (m : Mnemonic) : Completion → Prop
  | .success _ _ _ _ => True
  | .boolFalse _ => m = .oaepdec ∨ m = .pssvfy
  | .error e _ => e ∈ errorsOf m

theorem allows_success (m : Mnemonic) (x y : Bytes) (r : Word) (c : CipherCtx) : Allows m (.success x y r c) := trivial

theorem allows_error {m : Mnemonic} {e : ErrorClass} (h : e ∈ errorsOf m) (c : CipherCtx) : Allows m (.error e c) := h

theorem allows_ofExcept {m : Mnemonic} {x : Except ErrorClass Bytes} (h : ∀ e, x = .error e → e ∈ errorsOf m)
    (s : State) : Allows m (s.ofExcept x) := by
  cases x with
  | error e => exact allows_error (h e rfl) _
  | ok x => exact allows_success _ _ _ _ _

theorem sizeResult_allowed {m : Mnemonic} (h : ErrorClass.unsupportedAlgorithm ∈ errorsOf m) (s : State)
    (n : Option Nat) : Allows m (s.sizeResult n) := by
  cases n with
  | none => exact allows_error h _
  | some n => exact allows_success _ _ _ _ _

theorem mgf1Result_allowed (s : State) (a : Half) : Allows .mgf1 (s.mgf1Result a) := by
  unfold State.mgf1Result
  split
  · exact allows_error (by decide) _
  · split
    · exact allows_error (by decide) _
    · exact allows_success _ _ _ _ _

theorem kdfaResult_allowed (s : State) (a : Half) : Allows .kdfa (s.kdfaResult a) := by
  unfold State.kdfaResult
  split
  · exact allows_error (by decide) _
  · split
    · exact allows_error (by decide) _
    · exact allows_success _ _ _ _ _

theorem splitResult_allowed (s : State) : Allows .split s.splitResult := by
  unfold State.splitResult
  rcases splitBits_cases s.ib0.value s.p0n s.p1n with ⟨-, e⟩ | ⟨-, -, -, e⟩ | ⟨-, -, -, e⟩ <;> rw [e]
  · exact allows_error (by decide) _
  · exact allows_error (by decide) _
  · exact allows_success _ _ _ _ _

theorem xorChecked_errors {a b : Bytes} {e : ErrorClass} (h : xorChecked a b = .error e) : e ∈ errorsOf .xor := by
  by_cases hlen : a.length = b.length
  · simp [xorChecked_ok hlen] at h
  · rw [xorChecked_error hlen] at h
    cases h
    decide

/-- The mask of KDFXOR is as long as the data, so only the algorithm can be refused (43_xor.md R130). -/
theorem kdfxorResult_allowed (s : State) (a : Half) : Allows .kdfxor (s.kdfxorResult a) := by
  cases ha : realHash? a with
  | none => rw [kdfxorResult_none ha]; exact allows_error (by decide) _
  | some h => rw [kdfxorResult_some ha]; exact allows_success _ _ _ _ _

theorem oaepencCheck_errors {s : State} {a : Half} {e : ErrorClass} (h : s.oaepencCheck a = .error e) :
    e ∈ errorsOf .oaepenc := by
  cases ha : realHash? a with
  | none =>
    rw [oaepencCheck_none ha] at h
    cases h
    decide
  | some k =>
    rcases oaepencCheck_cases (s := s) ha with ⟨-, hc⟩ | ⟨-, -, hc⟩ | ⟨-, -, hc⟩ <;> rw [hc] at h <;> cases h
    · decide
    · decide

theorem oaepdecResult_allowed (s : State) (a : Half) : Allows .oaepdec (s.oaepdecResult a) := by
  unfold State.oaepdecResult
  split
  · exact allows_error (by decide) _
  · split
    · exact .inl rfl
    · exact allows_success _ _ _ _ _

theorem pssencCheck_errors {s : State} {a : Half} {e : ErrorClass} (h : s.pssencCheck a = .error e) :
    e ∈ errorsOf .pssenc := by
  cases ha : realHash? a with
  | none =>
    rw [pssencCheck_none ha] at h
    cases h
    decide
  | some k =>
    rcases pssencCheck_cases (s := s) ha with ⟨-, hc⟩ | ⟨-, -, hc⟩ | ⟨-, -, hc⟩ <;> rw [hc] at h <;> cases h
    · decide
    · decide

theorem pssvfyResult_allowed (s : State) (a : Half) : Allows .pssvfy (s.pssvfyResult a) := by
  unfold State.pssvfyResult
  split
  · exact allows_error (by decide) _
  · split
    · exact allows_success _ _ _ _ _
    · exact .inr rfl

theorem p15encResult_allowed (s : State) (a : Half) : Allows .p15enc (s.p15encResult a) := by
  unfold State.p15encResult
  split
  · exact allows_error (by decide) _
  · split
    · exact allows_error (by decide) _
    · split
      · exact allows_error (by decide) _
      · exact allows_success _ _ _ _ _

theorem ctxnewCheck_errors {s : State} {r v : Bool} {e : ErrorClass} (h : s.ctxnewCheck r v = .error e) :
    e ∈ errorsOf .ctxnew := by
  rcases ctxnewCheck_cases s r v with ⟨-, hc⟩ | ⟨bs, -, ⟨-, hc⟩ | ⟨-, -, hc⟩⟩ <;> rw [hc] at h <;> cases h
  · decide
  · decide

theorem transformResult_allowed {m : Mnemonic} (hctx : ErrorClass.noContext ∈ errorsOf m)
    (hlen : ErrorClass.malformedInput ∈ errorsOf m) (s : State) (d : Dir) (v : Bool) :
    Allows m (s.transformResult d v) := by
  unfold State.transformResult
  split
  · exact allows_error hctx _
  · split
    · exact allows_error hlen _
    · exact allows_success _ _ _ _ _

theorem stripPayload_errors {p : Bytes} {e : ErrorClass} (h : stripPayload p = .error e) : e ∈ errorsOf .deenv := by
  by_cases hbad : p.length < 2 ∨ intOf (p.take 2) ≠ p.length - 2
  · rw [stripPayload_malformed hbad] at h
    cases h
    decide
  · push Not at hbad
    simp [stripPayload_ok hbad.1 hbad.2] at h

theorem openInner_errors {cfg : Config} {k : RealHash} {inner name : Bytes} {e : ErrorClass}
    (h : openInner cfg k inner name = .error e) : e ∈ errorsOf .deenv := by
  by_cases hl : digestSize k + 2 ≤ inner.length
  · rw [openInner_of_long hl] at h
    split at h
    · cases h; decide
    · exact stripPayload_errors h
  · rw [openInner_short (by omega)] at h
    cases h
    decide

theorem deenvResult_allowed (s : State) (a : Half) : Allows .deenv (s.deenvResult a) := by
  cases ha : realHash? a with
  | none => rw [deenvResult_none ha]; exact allows_error (by decide) _
  | some h =>
    cases hb : symBlock s.cfg s.p0 s.p1.toNat with
    | none => rw [deenvResult_noCipher ha hb]; exact allows_error (by decide) _
    | some bs =>
      by_cases hkey : 8 * s.ib1.len = s.p1.toNat
      · rw [deenvResult_inner ha hb hkey rfl]
        exact allows_ofExcept (fun e => openInner_errors) _
      · rw [deenvResult_keyLength ha hb hkey]; exact allows_error (by decide) _

/-- Every command completes with an outcome R201 allows it. -/
theorem exec_allowed {i : Instr} {s t : State} (h : exec i s = .next t) :
    ∃ (s0 : State) (c : Completion), t = s0.complete c ∧ Allows i.asm.mnemonic c := by
  cases i with
  | digsz a => cases h; exact ⟨_, _, rfl, sizeResult_allowed (m := .digsz) (by decide) _ _⟩
  | blksz a => cases h; exact ⟨_, _, rfl, sizeResult_allowed (m := .blksz) (by decide) _ _⟩
  | ishash a => cases h; exact ⟨_, _, rfl, allows_success _ _ _ _ _⟩
  | mgf1 a => cases h; exact ⟨_, _, rfl, mgf1Result_allowed _ _⟩
  | kdfa a => cases h; exact ⟨_, _, rfl, kdfaResult_allowed _ _⟩
  | split => cases h; exact ⟨_, _, rfl, splitResult_allowed _⟩
  | xor => cases h; exact ⟨_, _, rfl, allows_ofExcept (fun e => xorChecked_errors) _⟩
  | xorp => cases h; exact ⟨_, _, rfl, allows_success _ _ _ _ _⟩
  | kdfxor a => cases h; exact ⟨_, _, rfl, kdfxorResult_allowed _ _⟩
  | oaepenc a =>
    cases hc : s.oaepencCheck a with
    | error e => rw [exec_oaepenc_error hc] at h; cases h; exact ⟨_, _, rfl, oaepencCheck_errors hc⟩
    | ok k => rw [exec_oaepenc_ok hc] at h; cases h; exact ⟨_, _, rfl, allows_success _ _ _ _ _⟩
  | oaepdec a => cases h; exact ⟨_, _, rfl, oaepdecResult_allowed _ _⟩
  | pssenc a =>
    cases hc : s.pssencCheck a with
    | error e => rw [exec_pssenc_error hc] at h; cases h; exact ⟨_, _, rfl, pssencCheck_errors hc⟩
    | ok k => rw [exec_pssenc_ok hc] at h; cases h; exact ⟨_, _, rfl, allows_success _ _ _ _ _⟩
  | pssvfy a => cases h; exact ⟨_, _, rfl, pssvfyResult_allowed _ _⟩
  | p15enc a => cases h; exact ⟨_, _, rfl, p15encResult_allowed _ _⟩
  | ctxnew r v =>
    cases hc : s.ctxnewCheck r v with
    | error e => rw [exec_ctxnew_error hc] at h; cases h; exact ⟨_, _, rfl, ctxnewCheck_errors hc⟩
    | ok bs => rw [exec_ctxnew_ok hc] at h; cases h; exact ⟨_, _, rfl, allows_success _ _ _ _ _⟩
  | ctxrel => cases h; exact ⟨_, _, rfl, allows_success _ _ _ _ _⟩
  | symenc v => cases h; exact ⟨_, _, rfl, transformResult_allowed (m := .symenc) (by decide) (by decide) _ _ _⟩
  | symdec v => cases h; exact ⟨_, _, rfl, transformResult_allowed (m := .symdec) (by decide) (by decide) _ _ _⟩
  | deenv a => cases h; exact ⟨_, _, rfl, deenvResult_allowed _ _⟩
  | clrbuf => cases h; exact ⟨_, _, rfl, allows_success _ _ _ _ _⟩

theorem oaepdec_or_pssvfy_of_mnemonic {i : Instr} (h : i.asm.mnemonic = .oaepdec ∨ i.asm.mnemonic = .pssvfy) :
    (∃ a, i = .oaepdec a) ∨ ∃ a, i = .pssvfy a := by
  cases i with
  | oaepdec a => exact .inl ⟨a, rfl⟩
  | pssvfy a => exact .inr ⟨a, rfl⟩
  | _ => simp [Instr.asm] at h

/-- Settles O59: an allowed outcome, written to STATUS, is in the command's row of the table. -/
theorem outcomesAreTheTableOfR201 : Obligations.OutcomesAreTheTableOfR201 := by
  intro i s t h
  obtain ⟨s0, c, rfl, hc⟩ := exec_allowed h
  cases c with
  | success x y r d => exact .inl ⟨rfl, rfl, rfl⟩
  | boolFalse d => exact .inr (.inl ⟨rfl, rfl, rfl, oaepdec_or_pssvfy_of_mnemonic hc⟩)
  | error e d =>
    refine .inr (.inr ⟨rfl, rfl, (errorsOf i.asm.mnemonic).map ErrorClass.code, List.mem_map_of_mem hc, ?_⟩)
    -- a list with an error in it, written in codes, is a row of the table
    have hne : errorsOf i.asm.mnemonic ≠ [] := List.ne_nil_of_mem hc
    revert hne
    generalize i.asm.mnemonic = m
    cases m <;> decide

/-! ## What has no address (R214) -/

/-- A state with other KEY and IV stores, another loop engine and another transient context. -/
def State.withHidden (s : State) (key iv : Memory) (l : LoopEngine) (c : CipherCtx) : State :=
  { s with ctx := { s.ctx with key := key, iv := iv }, loop := l, transient := c }

theorem sameVisible_iff {s t : State} : s.SameVisible t ↔ ∃ key iv l c, t = s.withHidden key iv l c := by
  constructor
  · intro h
    exact ⟨_, _, _, _, h.symm⟩
  · rintro ⟨key, iv, l, c, rfl⟩
    rfl

section

variable (s : State) (key iv : Memory) (l : LoopEngine) (c : CipherCtx)

@[simp] theorem withHidden_cfg : (s.withHidden key iv l c).cfg = s.cfg := rfl
@[simp] theorem withHidden_busy : (s.withHidden key iv l c).busy = s.busy := rfl

@[simp] theorem withHidden_bufferAdmits (a : Access) (o : Nat) :
    (s.withHidden key iv l c).bufferAdmits a o = s.bufferAdmits a o := rfl

@[simp] theorem withHidden_ib (k : Fin 4) : (s.withHidden key iv l c).ib k = s.ib k := by
  fin_cases k <;> rfl

@[simp] theorem withHidden_ob (k : Fin 2) : (s.withHidden key iv l c).ob k = s.ob k := by
  fin_cases k <;> rfl

@[simp] theorem withHidden_setIb (k : Fin 4) (b : Buffer) :
    (s.withHidden key iv l c).setIb k b = (s.setIb k b).withHidden key iv l c := by
  fin_cases k <;> rfl

@[simp] theorem withHidden_readReg (r : Reg) : (s.withHidden key iv l c).readReg r = s.readReg r := by
  cases r with
  | ibLen k => simp [State.readReg]
  | obLen k => simp [State.readReg]
  | _ => rfl

/-- A register write has the same effect, and is refused alike. -/
theorem withHidden_writeReg (r : Reg) (v : Word) :
    (s.withHidden key iv l c).writeReg r v = (s.writeReg r v).map (·.withHidden key iv l c) := by
  cases r with
  | status => simp only [State.writeReg]; split <;> rfl
  | ibLen k => simp only [State.writeReg, withHidden_cfg, withHidden_ib, withHidden_setIb]; split <;> rfl
  | _ => rfl

theorem withHidden_regAccess (a : Access) (o : Nat) :
    (s.withHidden key iv l c).regAccess a o =
      ((s.regAccess a o).1.withHidden key iv l c, (s.regAccess a o).2) := by
  simp only [State.regAccess, withHidden_busy, withHidden_readReg, withHidden_writeReg]
  split
  · rfl
  split
  · rfl
  split
  · rfl
  split
  · rfl
  cases s.writeReg _ a.data with
  | none => rfl
  | some t => rfl

theorem withHidden_ibAccess (k : Fin 4) (a : Access) (o : Nat) :
    (s.withHidden key iv l c).ibAccess k a o =
      ((s.ibAccess k a o).1.withHidden key iv l c, (s.ibAccess k a o).2) := by
  simp only [State.ibAccess, withHidden_bufferAdmits, withHidden_ib, withHidden_setIb]
  split
  · rfl
  · split <;> rfl

theorem withHidden_obAccess (k : Fin 2) (a : Access) (o : Nat) :
    (s.withHidden key iv l c).obAccess k a o =
      ((s.obAccess k a o).1.withHidden key iv l c, (s.obAccess k a o).2) := by
  simp only [State.obAccess, withHidden_bufferAdmits, withHidden_ob]
  split
  · rfl
  · split <;> rfl

/-- An access commutes with the change of what has no address, and its answer does not depend on it. -/
theorem withHidden_hostAccess (a : Access) :
    (s.withHidden key iv l c).hostAccess a =
      ((s.hostAccess a).1.withHidden key iv l c, (s.hostAccess a).2) := by
  rcases hostAccess_cases s a with ⟨hw, -⟩ | ⟨k, hw, -⟩ | ⟨k, hw, -⟩ | ⟨hw, -⟩
  · rw [hostAccess_reg hw, hostAccess_reg hw, withHidden_regAccess]
  · rw [hostAccess_ib hw, hostAccess_ib hw, withHidden_ibAccess]
  · rw [hostAccess_ob hw, hostAccess_ob hw, withHidden_obAccess]
  · simp [State.hostAccess, hw]

end

/-- Settles O24: the other state is `s` with something else hidden, and so is the one an access leaves. -/
theorem hiddenStoresAreNotReadable : Obligations.HiddenStoresAreNotReadable := by
  intro s t a h
  obtain ⟨key, iv, l, c, rfl⟩ := sameVisible_iff.mp h
  rw [withHidden_hostAccess]
  exact ⟨rfl, sameVisible_iff.mpr ⟨key, iv, l, c, rfl⟩⟩

end Sys2Proof.Machine
end
